-- ==== Sys2Proof/Word.lean ====
section
/-! DEFINITION. The byte, and the two raw formats an instruction comes in: the fields of a command block and one
access of the host bus. -/

namespace Sys2Proof

/-- One byte: a port value, a command byte, a buffer or image byte (20_memory.md R72, R80). -/
abbrev Byte := BitVec 8

/-- The 40 bits of a command block behind its opcode, field by field (30_encoding.md R101 to R103, R118, R119).
All bits are kept, those without a meaning for a command too (R122). -/
structure Cdb where
  /-- byte 1, bits 7:5 -/
  drive   : BitVec 3
  /-- byte 1, bits 4:0 -/
  head    : BitVec 5
  /-- byte 2, bits 5:0; how many of them count is `SECTOR_BITS` -/
  sector  : BitVec 6
  /-- byte 2, bits 7:6 (high), then byte 3 -/
  cyl     : BitVec 10
  /-- byte 4 -/
  count   : Byte
  /-- byte 5, read by no rule -/
  control : Byte
  deriving DecidableEq, Repr

/-- One access of the host bus (20_memory.md R71, R72; 30_encoding.md R100): `data` is the byte written, and has no
meaning in a read. The width of `addr` is log 27. -/
structure Access where
  addr  : BitVec 16
  write : Bool
  /-- access width in bits -/
  width : Nat
  data  : Byte
  deriving DecidableEq, Repr

end Sys2Proof
end

