-- ==== Sys2Proof/Config.lean ====
section
/-! DEFINITION. What is fixed for the life of one controller instance (00_scope.md R9, R10): its parameters as plain
data, which State carries (log 1), and the OPEN functions and free values as constants without a body. -/

namespace Sys2Proof

/-- `FAMILY`, the command-set dialect (00_scope.md R9, R11). -/
inductive Family where
  | xebec | dtc | st11 | wd1002a
  deriving DecidableEq, Repr

/-- A geometry: cylinders, heads, sectors per track (10_state.md R53, R54). -/
structure Geometry where
  cylinders : BitVec 16
  heads     : Byte
  spt       : Byte
  deriving DecidableEq, Repr, Inhabited

/-- How many 512-byte blocks a geometry has (10_state.md R53). -/
def Geometry.blocks (g : Geometry) : Nat :=
  g.cylinders.toNat * g.heads.toNat * g.spt.toNat

/-- The four vendor geometry commands, the family-gated rows of 30_encoding.md R108. -/
inductive Vendor where
  | dtcGetGeom | dtcSetGeom | st11GetGeom | st11SetGeom
  deriving DecidableEq, Repr

/-- The rows of the command set (30_encoding.md R108). -/
inductive Cmd where
  | testReady | recalibrate | sense | formatDrive | verify | formatTrack | formatBadTrack | read | write | seek
  | specify | readBuffer | writeBuffer | ramDiag | driveDiag | ctrlDiag | readLong | writeLong
  | vendor (v : Vendor)
  deriving DecidableEq, Repr

/-- The one family that has a vendor geometry command (30_encoding.md R108, R111). -/
def Vendor.family : Vendor → Family
  | .dtcGetGeom | .dtcSetGeom => .dtc
  | .st11GetGeom | .st11SetGeom => .st11

/-- The vendor rows, in the order of the command table. -/
def Vendor.all : List Vendor := [.st11GetGeom, .st11SetGeom, .dtcSetGeom, .dtcGetGeom]

/-- The rows of 30_encoding.md R108, in its order. -/
def Cmd.all : List Cmd :=
  [.testReady, .recalibrate, .sense, .formatDrive, .verify, .formatTrack, .formatBadTrack, .read, .write, .seek,
   .specify, .readBuffer, .writeBuffer, .ramDiag, .driveDiag, .ctrlDiag, .readLong, .writeLong] ++
  Vendor.all.map Cmd.vendor

/-- Whether a row's families include `f` (30_encoding.md R108, R109). -/
def Cmd.inFamily (f : Family) : Cmd → Bool
  | .vendor v => v.family == f
  | .testReady | .recalibrate | .sense | .formatDrive | .verify | .formatTrack | .formatBadTrack | .read | .write
  | .seek | .specify | .readBuffer | .writeBuffer | .ramDiag | .driveDiag | .ctrlDiag | .readLong | .writeLong => true

/-- The parameter `OPCODE` (30_encoding.md R108, decision D4). The defaults are the spec's; all but READ's are marked
there as general knowledge (log 4). -/
structure Opcodes where
  testReady      : Byte := 0x00
  recalibrate    : Byte := 0x01
  sense          : Byte := 0x03
  formatDrive    : Byte := 0x04
  verify         : Byte := 0x05
  formatTrack    : Byte := 0x06
  formatBadTrack : Byte := 0x07
  read           : Byte := 0x08
  write          : Byte := 0x0A
  seek           : Byte := 0x0B
  specify        : Byte := 0x0C
  readBuffer     : Byte := 0x0E
  writeBuffer    : Byte := 0x0F
  ramDiag        : Byte := 0xE0
  driveDiag      : Byte := 0xE3
  ctrlDiag       : Byte := 0xE4
  readLong       : Byte := 0xE5
  writeLong      : Byte := 0xE6
  st11GetGeom    : Byte := 0xF8
  st11SetGeom    : Byte := 0xFA
  dtcSetGeom     : Byte := 0xFE
  dtcGetGeom     : Byte := 0xFF
  deriving DecidableEq, Repr

/-- The opcode of a row. -/
def Opcodes.of (o : Opcodes) : Cmd → Byte
  | .testReady => o.testReady
  | .recalibrate => o.recalibrate
  | .sense => o.sense
  | .formatDrive => o.formatDrive
  | .verify => o.verify
  | .formatTrack => o.formatTrack
  | .formatBadTrack => o.formatBadTrack
  | .read => o.read
  | .write => o.write
  | .seek => o.seek
  | .specify => o.specify
  | .readBuffer => o.readBuffer
  | .writeBuffer => o.writeBuffer
  | .ramDiag => o.ramDiag
  | .driveDiag => o.driveDiag
  | .ctrlDiag => o.ctrlDiag
  | .readLong => o.readLong
  | .writeLong => o.writeLong
  | .vendor .st11GetGeom => o.st11GetGeom
  | .vendor .st11SetGeom => o.st11SetGeom
  | .vendor .dtcSetGeom => o.dtcSetGeom
  | .vendor .dtcGetGeom => o.dtcGetGeom

/-- No two rows have one opcode. 30_encoding.md R109 speaks of 'the row'; the decoder is total without this, the
encoder can be undone only with it (log 17). -/
def Opcodes.distinct (o : Opcodes) : Bool := decide (Cmd.all.map o.of).Nodup

/-- The error names of 30_encoding.md R112. -/
inductive ErrorName where
  | notReady | seekError | noTrack0
  | idFault | uncorrectableData | illegalAddress | targetSectorNotFound | noRecovery
  | badCommand | badParameter
  | badRam | badRom | crcEcc
  deriving DecidableEq, Repr

/-- All error names, in the order of 30_encoding.md R112. -/
def ErrorName.all : List ErrorName :=
  [.notReady, .seekError, .noTrack0, .idFault, .uncorrectableData, .illegalAddress, .targetSectorNotFound,
   .noRecovery, .badCommand, .badParameter, .badRam, .badRom, .crcEcc]

/-- The group of a code, its bits 5:4 (30_encoding.md R107, R112). -/
def ErrorName.group : ErrorName → Nat
  | .notReady | .seekError | .noTrack0 => 0
  | .idFault | .uncorrectableData | .illegalAddress | .targetSectorNotFound | .noRecovery => 1
  | .badCommand | .badParameter => 2
  | .badRam | .badRom | .crcEcc => 3

/-- The parameter `ERR_CODE` (30_encoding.md R112, decision D3), with the spec's defaults (log 4). -/
structure ErrCodes where
  notReady             : Byte := 0x04
  seekError            : Byte := 0x02
  noTrack0             : Byte := 0x06
  idFault              : Byte := 0x10
  uncorrectableData    : Byte := 0x11
  illegalAddress       : Byte := 0x12
  targetSectorNotFound : Byte := 0x14
  noRecovery           : Byte := 0x1F
  badCommand           : Byte := 0x20
  badParameter         : Byte := 0x22
  badRam               : Byte := 0x30
  badRom               : Byte := 0x31
  crcEcc               : Byte := 0x32
  deriving DecidableEq, Repr

/-- `ERR_CODE(e)`. -/
def ErrCodes.of (c : ErrCodes) : ErrorName → Byte
  | .notReady => c.notReady
  | .seekError => c.seekError
  | .noTrack0 => c.noTrack0
  | .idFault => c.idFault
  | .uncorrectableData => c.uncorrectableData
  | .illegalAddress => c.illegalAddress
  | .targetSectorNotFound => c.targetSectorNotFound
  | .noRecovery => c.noRecovery
  | .badCommand => c.badCommand
  | .badParameter => c.badParameter
  | .badRam => c.badRam
  | .badRom => c.badRom
  | .crcEcc => c.crcEcc

/-- What 30_encoding.md R112 and R107 demand of `ERR_CODE`: bits 7:6 clear and bits 5:4 the group, never 0, pairwise
distinct. -/
def ErrCodes.wf (c : ErrCodes) : Bool :=
  ErrorName.all.all (fun e => (c.of e).toNat / 16 == e.group && c.of e != 0) && decide (ErrorName.all.map c.of).Nodup

/-- One row of `SWITCH_TABLE` (30_encoding.md R117): a geometry and its 2-bit code. -/
structure SwitchRow where
  geometry : Geometry
  code     : BitVec 2
  deriving DecidableEq, Repr

/-- The parameters of one instance (00_scope.md R9). `NUM_DRIVES` is the number of drive slots State holds, `phys`,
`present` and `image0` stand in those slots, the delays stand by name in `Delay`, `GEOM_ENCODE` and `GEOM_DECODE` are
constants below. The default of an OPEN entry is a launch argument of the reset state only (log 2). -/
structure Params where
  family            : Family := .xebec
  ioBase            : BitVec 16 := 0x320
  irqLine           : Nat := 5
  dmaChannel        : Nat := 3
  bufSize           : Nat := 516
  cylOffset         : Nat := 0
  sectorBits        : Nat := 6
  opcodes           : Opcodes := {}
  errCodes          : ErrCodes := {}
  retryBudget       : Nat := 16
  /-- `LONG_ECC_FILL`, the four bytes in the order the host receives them -/
  eccFill           : Vector Byte 4 := #v[0, 0, 0, 0]
  switchTable       : List SwitchRow :=
    [⟨⟨306, 4, 17⟩, 0⟩, ⟨⟨612, 4, 17⟩, 1⟩, ⟨⟨615, 4, 17⟩, 2⟩, ⟨⟨306, 8, 17⟩, 3⟩]
  switchShift0      : Nat := 2
  switchShift1      : Nat := 0
  switchUnsupported : BitVec 2 := 0
  deriving DecidableEq, Repr

/-- The defaults of a family (00_scope.md R9, R11; decision D25: `CYL_OFFSET` is 1 for ST11, else 0). -/
def Params.ofFamily (f : Family) : Params :=
  { family := f, cylOffset := if f = .st11 then 1 else 0 }

/-- The parameter constraints of 00_scope.md R10 and 30_encoding.md R112, but for `NUM_DRIVES`, which State counts. -/
def Params.wf (p : Params) : Bool :=
  decide (p.cylOffset ≤ 127) && (p.sectorBits == 5 || p.sectorBits == 6) && decide (1 ≤ p.retryBudget) &&
  decide (516 ≤ p.bufSize) && p.errCodes.wf

/-- The answers of the DMA collaborator to a request for a byte of host memory (20_memory.md R85). -/
inductive DmaRead where
  | byte (b : Byte) | noData
  deriving DecidableEq, Repr, Inhabited

/-- The answers of the DMA collaborator to an offered byte (20_memory.md R86). -/
inductive DmaWrite where
  | ack | noData
  deriving DecidableEq, Repr, Inhabited

/-- The value of a port-3 read, a fresh free value at each read (40_register_interface.md R153; log 10). -/
opaque Config.maskRead : Nat → Byte

/-- The DMA collaborator's free answer to a read request no turn brings an answer for (20_memory.md R85; log 8). -/
opaque Config.dmaRead : Nat → DmaRead

/-- The DMA collaborator's free answer to a write request no turn brings an answer for (20_memory.md R86; log 8). -/
opaque Config.dmaWrite : Nat → DmaWrite

/-- Byte `i` of the command buffer after an attach within a run (10_state.md R60; log 21). -/
opaque Config.attachCommand : Nat → Nat → Byte

/-- Byte `i` of the data buffer after an attach within a run (10_state.md R60; log 21). -/
opaque Config.attachBuffer : Nat → Nat → Byte

/-- Byte `i` (0 to 15) of `GEOM_ENCODE(family, cfg, phys)` (30_encoding.md R115, OPEN; log 20). -/
opaque Config.geomEncode : Family → Geometry → Geometry → Nat → Byte

/-- `GEOM_DECODE(family, block, cfg)` (30_encoding.md R115, OPEN; log 20). -/
opaque Config.geomDecode : Family → List Byte → Geometry → Geometry

/-- `DMA_ENA` in `irqDmaMask` (30_encoding.md R106, decision D5; log 4). -/
def Config.dmaEna : Byte := 0x01

/-- `IRQ_ENA` in `irqDmaMask` (30_encoding.md R106, decision D5; log 4). -/
def Config.irqEna : Byte := 0x02

end Sys2Proof
end

