-- ==== Sys2Proof/Syntax.lean ====
section
/-! DEFINITION. The instructions: one constructor per row of spec/opcode_table.json. -/

namespace Sys2Proof

/-- The instructions of the block are of two kinds (30_encoding.md, opening): the controller commands, each with the
fields of its command block, and the eight port accesses, a write with its byte. -/
inductive Instr where
  /-- TEST_READY, 44_commands.md R242 -/
  | testReady (f : Cdb)
  /-- RECALIBRATE, R243, R244 -/
  | recalibrate (f : Cdb)
  /-- SENSE, R245, R246 -/
  | sense (f : Cdb)
  /-- FORMAT_DRIVE, R249, R250 -/
  | formatDrive (f : Cdb)
  /-- VERIFY, R251 -/
  | verify (f : Cdb)
  /-- FORMAT_TRACK, R247, R250 -/
  | formatTrack (f : Cdb)
  /-- FORMAT_BAD_TRACK, R248, R250 -/
  | formatBadTrack (f : Cdb)
  /-- READ, R252, R253 -/
  | read (f : Cdb)
  /-- WRITE, R256, R257 -/
  | write (f : Cdb)
  /-- SEEK, R260 -/
  | seek (f : Cdb)
  /-- SPECIFY, R261, R262 -/
  | specify (f : Cdb)
  /-- READ_BUFFER, R263, R264 -/
  | readBuffer (f : Cdb)
  /-- WRITE_BUFFER, R265, R266 -/
  | writeBuffer (f : Cdb)
  /-- RAM_DIAG, R267 -/
  | ramDiag (f : Cdb)
  /-- DRIVE_DIAG, R268 -/
  | driveDiag (f : Cdb)
  /-- CTRL_DIAG, R269 -/
  | ctrlDiag (f : Cdb)
  /-- READ_LONG, R254, R255 -/
  | readLong (f : Cdb)
  /-- WRITE_LONG, R258, R259 -/
  | writeLong (f : Cdb)
  /-- ST11_GET_GEOM, R273 -/
  | st11GetGeom (f : Cdb)
  /-- ST11_SET_GEOM, R274 -/
  | st11SetGeom (f : Cdb)
  /-- DTC_SET_GEOM, R271 -/
  | dtcSetGeom (f : Cdb)
  /-- DTC_GET_GEOM, R270 -/
  | dtcGetGeom (f : Cdb)
  /-- WRONG_FAMILY(DTC_GET_GEOM), R272 -/
  | wrongDtcGetGeom (f : Cdb)
  /-- WRONG_FAMILY(DTC_SET_GEOM), R272 -/
  | wrongDtcSetGeom (f : Cdb)
  /-- WRONG_FAMILY(ST11_GET_GEOM), R272 -/
  | wrongSt11GetGeom (f : Cdb)
  /-- WRONG_FAMILY(ST11_SET_GEOM), R272 -/
  | wrongSt11SetGeom (f : Cdb)
  /-- UNKNOWN, any other opcode, R275 -/
  | unknown (op : Byte) (f : Cdb)
  /-- DATA_WRITE, 40_register_interface.md R141 to R143 -/
  | dataWrite (v : Byte)
  /-- DATA_READ, R144 to R147 -/
  | dataRead
  /-- RESET_WRITE, R148 -/
  | resetWrite (v : Byte)
  /-- STATUS_READ, R149 -/
  | statusRead
  /-- SELECT_WRITE, R150 -/
  | selectWrite (v : Byte)
  /-- SWITCH_READ, R151 -/
  | switchRead
  /-- MASK_WRITE, R152 -/
  | maskWrite (v : Byte)
  /-- MASK_READ, R153 -/
  | maskRead
  deriving DecidableEq, Repr

/-- The command block's fields, for a command; none for a port access. -/
def Instr.fields? : Instr → Option Cdb
  | .testReady f | .recalibrate f | .sense f | .formatDrive f | .verify f | .formatTrack f | .formatBadTrack f
  | .read f | .write f | .seek f | .specify f | .readBuffer f | .writeBuffer f | .ramDiag f | .driveDiag f
  | .ctrlDiag f | .readLong f | .writeLong f | .st11GetGeom f | .st11SetGeom f | .dtcSetGeom f | .dtcGetGeom f
  | .wrongDtcGetGeom f | .wrongDtcSetGeom f | .wrongSt11GetGeom f | .wrongSt11SetGeom f | .unknown _ f => some f
  | .dataWrite _ | .dataRead | .resetWrite _ | .statusRead | .selectWrite _ | .switchRead | .maskWrite _
  | .maskRead => none

end Sys2Proof
end

