-- ==== Sys2Proof/WellFormed.lean ====
section
/-! DEFINITION. Which instructions an instance with parameters `p` can be given: a vendor geometry command only in its
own family, its WRONG_FAMILY row only in another, UNKNOWN only with an opcode of no row (30_encoding.md R109). Every
other bound is in the widths of the fields. -/

namespace Sys2Proof

/-- Whether some row of the command set has this opcode (30_encoding.md R110). -/
def Params.listed (p : Params) (op : Byte) : Bool := Cmd.all.any (fun c => p.opcodes.of c == op)

/-- The well-formedness check (30_encoding.md R108 to R111). -/
def WellFormed (p : Params) : Instr → Bool
  | .dtcGetGeom _ | .dtcSetGeom _ => p.family == .dtc
  | .st11GetGeom _ | .st11SetGeom _ => p.family == .st11
  | .wrongDtcGetGeom _ | .wrongDtcSetGeom _ => p.family != .dtc
  | .wrongSt11GetGeom _ | .wrongSt11SetGeom _ => p.family != .st11
  | .unknown op _ => !p.listed op
  | .testReady _ | .recalibrate _ | .sense _ | .formatDrive _ | .verify _ | .formatTrack _ | .formatBadTrack _
  | .read _ | .write _ | .seek _ | .specify _ | .readBuffer _ | .writeBuffer _ | .ramDiag _ | .driveDiag _
  | .ctrlDiag _ | .readLong _ | .writeLong _ | .dataWrite _ | .dataRead | .resetWrite _ | .statusRead
  | .selectWrite _ | .switchRead | .maskWrite _ | .maskRead => true

end Sys2Proof
end

