-- ==== Sys2Proof/Decode.lean ====
section
/-! DEFINITION. The decoder of both formats, total on any bytes and any bus access, and the encoder, written from the
same tables (30_encoding.md R100 to R103, R108, R109, R118, R119), and the jumper byte's encoding (R117). -/

namespace Sys2Proof

/-- What a decoder is given: the bytes of a command block, or one bus access. -/
inductive Code where
  | cdb (bytes : List Byte)
  | bus (a : Access)
  deriving DecidableEq, Repr

/-- Why a code is no instruction. -/
inductive DecodeError where
  /-- not six bytes (30_encoding.md R120) -/
  | commandLength
  /-- a bus access that is not 8 bits wide (20_memory.md R72) -/
  | accessWidth
  deriving DecidableEq, Repr

/-- The result of `opClass` (30_encoding.md R109). -/
inductive OpClass where
  | command (c : Cmd)
  | wrongFamily (v : Vendor)
  | unknown
  deriving DecidableEq, Repr

/-- `opClass(op, FAMILY)`: first a row whose families include FAMILY, then a family-gated row of another family, else
unknown (30_encoding.md R109). -/
def opClass (p : Params) (op : Byte) : OpClass :=
  match Cmd.all.find? (fun c => p.opcodes.of c == op && c.inFamily p.family) with
  | some c => .command c
  | none =>
    match Vendor.all.find? (fun v => p.opcodes.of (.vendor v) == op) with
    | some v => .wrongFamily v
    | none => .unknown

/-- The fields of bytes 1 to 5 (30_encoding.md R101, R102, R118, R119). -/
def Cdb.ofBytes (b1 b2 b3 b4 b5 : Byte) : Cdb where
  drive   := b1.extractLsb' 5 3
  head    := b1.extractLsb' 0 5
  sector  := b2.extractLsb' 0 6
  cyl     := b2.extractLsb' 6 2 ++ b3
  count   := b4
  control := b5

/-- The instruction of a row of the command set. -/
def Cmd.instr (f : Cdb) : Cmd → Instr
  | .testReady => .testReady f
  | .recalibrate => .recalibrate f
  | .sense => .sense f
  | .formatDrive => .formatDrive f
  | .verify => .verify f
  | .formatTrack => .formatTrack f
  | .formatBadTrack => .formatBadTrack f
  | .read => .read f
  | .write => .write f
  | .seek => .seek f
  | .specify => .specify f
  | .readBuffer => .readBuffer f
  | .writeBuffer => .writeBuffer f
  | .ramDiag => .ramDiag f
  | .driveDiag => .driveDiag f
  | .ctrlDiag => .ctrlDiag f
  | .readLong => .readLong f
  | .writeLong => .writeLong f
  | .vendor .dtcGetGeom => .dtcGetGeom f
  | .vendor .dtcSetGeom => .dtcSetGeom f
  | .vendor .st11GetGeom => .st11GetGeom f
  | .vendor .st11SetGeom => .st11SetGeom f

/-- The instruction of a WRONG_FAMILY row. -/
def Vendor.wrongInstr (f : Cdb) : Vendor → Instr
  | .dtcGetGeom => .wrongDtcGetGeom f
  | .dtcSetGeom => .wrongDtcSetGeom f
  | .st11GetGeom => .wrongSt11GetGeom f
  | .st11SetGeom => .wrongSt11SetGeom f

/-- Decode on (opcode, FAMILY), the fields already read. -/
def decodeFields (p : Params) (op : Byte) (f : Cdb) : Instr :=
  match opClass p op with
  | .command c => c.instr f
  | .wrongFamily v => v.wrongInstr f
  | .unknown => .unknown op f

/-- The instruction the six bytes of the command buffer hold. -/
def decodeCommand (p : Params) (cmd : Vector Byte 6) : Instr :=
  decodeFields p cmd[0] (Cdb.ofBytes cmd[1] cmd[2] cmd[3] cmd[4] cmd[5])

/-- A host access is decoded by (offset = address bits 1:0, direction); the block looks at no other address bit
(30_encoding.md R100, 20_memory.md R71, R72). -/
def decodeAccess (a : Access) : Except DecodeError Instr :=
  if a.width = 8 then
    match (a.addr.extractLsb' 0 2).toNat, a.write with
    | 0, true => .ok (.dataWrite a.data)
    | 0, false => .ok .dataRead
    | 1, true => .ok (.resetWrite a.data)
    | 1, false => .ok .statusRead
    | 2, true => .ok (.selectWrite a.data)
    | 2, false => .ok .switchRead
    | _, true => .ok (.maskWrite a.data)
    | _, false => .ok .maskRead
  else .error .accessWidth

/-- The decoder, total on every code. -/
def decode (p : Params) : Code → Except DecodeError Instr
  | .cdb [b0, b1, b2, b3, b4, b5] => .ok (decodeFields p b0 (Cdb.ofBytes b1 b2 b3 b4 b5))
  | .cdb _ => .error .commandLength
  | .bus a => decodeAccess a

/-- Bytes 1 to 5 of a command block (30_encoding.md R101). -/
def Cdb.toBytes (f : Cdb) : List Byte :=
  [f.drive ++ f.head, f.cyl.extractLsb' 8 2 ++ f.sector, f.cyl.extractLsb' 0 8, f.count, f.control]

/-- A write to a port, one byte wide. -/
def Access.out (p : Params) (port : BitVec 16) (v : Byte) : Access :=
  { addr := p.ioBase + port, write := true, width := 8, data := v }

/-- A read of a port, one byte wide. -/
def Access.inp (p : Params) (port : BitVec 16) : Access :=
  { addr := p.ioBase + port, write := false, width := 8, data := 0 }

/-- The six bytes of a command of the table. -/
def Cmd.code (p : Params) (c : Cmd) (f : Cdb) : Code := .cdb (p.opcodes.of c :: f.toBytes)

/-- The encoder (30_encoding.md R100, R101, R108). -/
def encode (p : Params) : Instr → Code
  | .testReady f => Cmd.code p .testReady f
  | .recalibrate f => Cmd.code p .recalibrate f
  | .sense f => Cmd.code p .sense f
  | .formatDrive f => Cmd.code p .formatDrive f
  | .verify f => Cmd.code p .verify f
  | .formatTrack f => Cmd.code p .formatTrack f
  | .formatBadTrack f => Cmd.code p .formatBadTrack f
  | .read f => Cmd.code p .read f
  | .write f => Cmd.code p .write f
  | .seek f => Cmd.code p .seek f
  | .specify f => Cmd.code p .specify f
  | .readBuffer f => Cmd.code p .readBuffer f
  | .writeBuffer f => Cmd.code p .writeBuffer f
  | .ramDiag f => Cmd.code p .ramDiag f
  | .driveDiag f => Cmd.code p .driveDiag f
  | .ctrlDiag f => Cmd.code p .ctrlDiag f
  | .readLong f => Cmd.code p .readLong f
  | .writeLong f => Cmd.code p .writeLong f
  | .st11GetGeom f => Cmd.code p (.vendor .st11GetGeom) f
  | .st11SetGeom f => Cmd.code p (.vendor .st11SetGeom) f
  | .dtcSetGeom f => Cmd.code p (.vendor .dtcSetGeom) f
  | .dtcGetGeom f => Cmd.code p (.vendor .dtcGetGeom) f
  | .wrongDtcGetGeom f => Cmd.code p (.vendor .dtcGetGeom) f
  | .wrongDtcSetGeom f => Cmd.code p (.vendor .dtcSetGeom) f
  | .wrongSt11GetGeom f => Cmd.code p (.vendor .st11GetGeom) f
  | .wrongSt11SetGeom f => Cmd.code p (.vendor .st11SetGeom) f
  | .unknown op f => .cdb (op :: f.toBytes)
  | .dataWrite v => .bus (.out p 0 v)
  | .dataRead => .bus (.inp p 0)
  | .resetWrite v => .bus (.out p 1 v)
  | .statusRead => .bus (.inp p 1)
  | .selectWrite v => .bus (.out p 2 v)
  | .switchRead => .bus (.inp p 2)
  | .maskWrite v => .bus (.out p 3 v)
  | .maskRead => .bus (.inp p 3)

/-- The bits one drive contributes to the jumper byte (30_encoding.md R117). -/
def switchBits (p : Params) (present : Bool) (phys : Geometry) (shift : Nat) : Byte :=
  if present then
    match p.switchTable.find? (fun r => r.geometry == phys) with
    | some r => r.code.zeroExtend 8 <<< shift
    | none => p.switchUnsupported.zeroExtend 8 <<< shift
  else 0

/-- The jumper byte, from presence and physical geometry of drives 0 and 1 (30_encoding.md R117). -/
def switchByte (p : Params) : List (Bool × Geometry) → Byte
  | d0 :: d1 :: _ => switchBits p d0.1 d0.2 p.switchShift0 ||| switchBits p d1.1 d1.2 p.switchShift1
  | [d0] => switchBits p d0.1 d0.2 p.switchShift0
  | [] => 0

/-- The six bytes of a number whose bits above `nbits` are 0: byte 0 is its least significant byte (the numbering of
spec/opcode_table.json; log 22). -/
def tableBytes (nbits w : Nat) : Vector Byte 6 :=
  let v := w % 2 ^ nbits
  #v[BitVec.ofNat 8 v, BitVec.ofNat 8 (v / 256), BitVec.ofNat 8 (v / 65536), BitVec.ofNat 8 (v / 16777216),
     BitVec.ofNat 8 (v / 4294967296), BitVec.ofNat 8 (v / 1099511627776)]

/-- The instruction the decoder reads from a table word, taken as a command block, for the reset state's parameters. A
word of more than 48 bits is no command block (log 22). -/
def decodeTableWord (nbits w : Nat) : Option Instr :=
  if nbits ≤ 48 then
    match decode (Params.ofFamily .xebec) (.cdb (tableBytes nbits w).toList) with
    | .ok i => some i
    | .error _ => none
  else none

end Sys2Proof
end

