-- ==== Sys2Proof/Machine/State.lean ====
section
/-! DEFINITION. The state of one controller instance as plain data: everything 10_state.md gives it, the instance's
parameters, and four fields of the model's own (turns, dma, busOut, draws), and its value after attach. -/

namespace Sys2Proof.Machine

/-- Bytes by address, addresses strictly rising; an unlisted address reads 0x00 and no entry holds 0x00 (log 5). Byte
`i` of block `lba` of an image stands at `lba * 512 + i` (20_memory.md R75); byte `i` of the data buffer at `i`. -/
abbrev Memory := List Host.Cell

/-- The canonical form: strictly rising addresses, no entry equal to what an unlisted address reads as. -/
abbrev Memory.wf (m : Memory) : Prop := m.Pairwise (fun a b => a.1 < b.1) ∧ ∀ c ∈ m, c.2 ≠ 0#8

/-- No entry lies at or above `n`. -/
abbrev Memory.below (m : Memory) (n : Nat) : Prop := ∀ c ∈ m, c.1 < n

/-- The nine values of `state` (10_state.md R32, R33). -/
inductive Phase where
  | idle | receiveCommand | startCommand | receiveData | receivedData | sendData | sentData | completionByte | done
  deriving DecidableEq, Repr

/-- The delay an `Arm` records, by the name of its parameter; `format n` is `T_FORMAT * n` (00_scope.md R9, R14). No
rule reads it (log 18). -/
inductive Delay where
  | cmd | step | dma | stall | recal
  | format (n : Nat)
  deriving DecidableEq, Repr

/-- The address register (10_state.md R47, R48). -/
structure Address where
  cyl    : BitVec 16
  head   : Byte
  sector : Byte
  count  : Byte
  lba    : BitVec 32
  deriving DecidableEq, Repr

/-- A drive slot (10_state.md R51 to R56). -/
structure Drive where
  present         : Bool
  phys            : Geometry
  cfg             : Geometry
  currentCylinder : BitVec 16
  image           : Memory
  deriving DecidableEq, Repr

/-- The kinds of protocol violation (41_state_machine.md R186). -/
inductive Violation where
  | writeData | readData | stepNoHandler
  deriving DecidableEq, Repr

/-- The events of the log (10_state.md R59). Where an event is also a call of a collaborator it carries the line or
channel of the call (log 19). -/
inductive Event where
  | violation (kind : Violation)
  /-- `IrqRaised`, with the `IRQ_LINE` of `raiseLine` (60_exceptions.md R312) -/
  | irqRaised (line : Nat)
  /-- `DmaIn(b)` on `DMA_CHANNEL` (20_memory.md R85) -/
  | dmaIn (channel : Nat) (b : Byte)
  /-- `DmaOut(b)` on `DMA_CHANNEL` (20_memory.md R86) -/
  | dmaOut (channel : Nat) (b : Byte)
  /-- `DmaNoData` on `DMA_CHANNEL` (20_memory.md R87) -/
  | dmaNoData (channel : Nat)
  | imageWritten (d lba : Nat)
  | imageZeroed (d lba n : Nat)
  deriving DecidableEq, Repr

/-- What the DMA channel answers if the step asks it, one answer for each kind of request (log 8). -/
structure DmaAnswer where
  read  : DmaRead
  write : DmaWrite
  deriving DecidableEq, Repr

/-- One action of the environment, in the total order of 20_memory.md R91 (log 7). -/
inductive Turn where
  /-- the host accesses the bus -/
  | host (a : Access)
  /-- the scheduler fires the pending step, and the DMA channel would answer so -/
  | fire (dma : DmaAnswer)
  /-- the instance ends (20_memory.md R84) -/
  | detach
  /-- a new instance over the images kept (70_reset_and_hazards.md R332) -/
  | attach
  deriving DecidableEq, Repr

/-- The state. Where the spec names a field otherwise its docstring says so. -/
structure State where
  /-- the instance's parameters (00_scope.md R9), changed by nothing -/
  params         : Params
  /-- whether the instance exists (20_memory.md R84) -/
  attached       : Bool
  /-- the spec's `state` (10_state.md R32) -/
  phase          : Phase
  status         : Byte
  command        : Vector Byte 6
  commandPos     : Nat
  buffer         : Memory
  bufPos         : Nat
  bufCount       : Nat
  errorCode      : Byte
  completionByte : Byte
  driveSelect    : BitVec 3
  irqDmaMask     : Byte
  /-- the spec's `pending`, with the delay that travels with it (10_state.md R46) -/
  pending        : Option Delay
  addr           : Address
  xferDma        : Bool
  stall          : Nat
  /-- the drive slots; `NUM_DRIVES` is their number (10_state.md R51) -/
  drives         : List Drive
  switches       : Byte
  /-- the event log, oldest first (10_state.md R59) -/
  log            : List Event
  /-- the `fault` mark (20_memory.md R83) -/
  fault          : Bool
  /-- MODEL'S OWN: the environment's actions still to come, next first (log 7) -/
  turns          : List Turn
  /-- MODEL'S OWN: the DMA channel's answers to the step being run (log 8) -/
  dma            : DmaAnswer
  /-- MODEL'S OWN: the byte the last port read returned (log 9) -/
  busOut         : Byte
  /-- MODEL'S OWN: how many free values have been taken (log 10) -/
  draws          : Nat
  deriving DecidableEq, Repr

/-- Why the machine stops with a fault. -/
inductive Fault where
  /-- Raised by `fetch` on a state whose `fault` mark is set: an image access left the image collaborator's contract
  (20_memory.md R83, 60_exceptions.md R303). Safe: nothing is claimed of such a run (log 11). -/
  | imageContract
  /-- Raised by a port-0 access or a DMA step that would touch the data buffer at or above `BUF_SIZE`. No state that
  meets the invariant raises it. Safe (log 13). -/
  | bufferIndex
  /-- Raised by a port-0 write that would store a seventh command byte. No state that meets the invariant raises it.
  Safe (log 13). -/
  | commandIndex
  deriving DecidableEq, Repr

/-- Why the machine refuses. -/
inductive Refusal where
  /-- Raised by exec on an instruction without a meaning. Safe. -/
  | notModelled (mnemonic : String)
  /-- Raised by `fetch` on a bus access that is not 8 bits wide (20_memory.md R72). Safe (log 16). -/
  | accessWidth
  /-- Raised by `fetch` on a configuration outside 00_scope.md R10. Safe (log 17). -/
  | configuration
  /-- Raised by `fetch` on an action after detach (20_memory.md R84: no rule runs after it). Safe (log 21). -/
  | detached
  /-- Raised by `fetch` on an attach of an instance that exists already, which no rule describes. Safe (log 21). -/
  | attachedTwice
  deriving DecidableEq, Repr

/-- What a drive slot is launched with: `present[d]`, `phys[d]`, `image0[d]` (00_scope.md R9). -/
structure Launch where
  present : Bool
  phys    : Geometry
  image   : Memory
  deriving DecidableEq, Repr

/-- A drive at attach: configured as it physically is, at cylinder 0 (10_state.md R60). -/
def Launch.drive (l : Launch) : Drive where
  present := l.present
  phys := l.phys
  cfg := l.phys
  currentCylinder := 0
  image := l.image

/-- The values after attach (10_state.md R60; 70_reset_and_hazards.md R330). `command` and `buffer` are what is found
there: the spec leaves them unspecified (log 3). -/
def State.attach (p : Params) (drives : List Launch) (command : Vector Byte 6) (buffer : Memory) : State where
  params := p
  attached := true
  phase := .idle
  status := 0x00
  command := command
  commandPos := 0
  buffer := buffer
  bufPos := 0
  bufCount := 0
  errorCode := 0x00
  completionByte := 0x00
  driveSelect := 0
  irqDmaMask := 0x00
  pending := none
  addr := { cyl := 0, head := 0, sector := 0, count := 0, lba := 0 }
  xferDma := false
  stall := 0
  drives := drives.map Launch.drive
  switches := switchByte p (drives.map (fun l => (l.present, l.phys)))
  log := []
  fault := false
  turns := []
  dma := { read := .noData, write := .noData }
  busOut := 0
  draws := 0

/-- The drives of the common start state of 95_test_vectors.md: drive 0 present, 306/4/17, its image all zeros, drive 1
not present (log 2, log 5). -/
def State.commonDrives : List Launch :=
  [{ present := true, phys := ⟨306, 4, 17⟩, image := [] }, { present := false, phys := ⟨0, 0, 0⟩, image := [] }]

/-- The machine right after attach, launched as the common start state of 95_test_vectors.md (log 2, log 3). -/
def State.reset : State :=
  State.attach (Params.ofFamily .xebec) State.commonDrives (Vector.replicate 6 0) []

end Sys2Proof.Machine
end

