-- ==== Sys2Proof/Machine/Flags.lean ====
section
/-! DEFINITION. The status register's bits and the values the rules write to it (00_scope.md R15, 30_encoding.md R104,
41_state_machine.md R188). -/

namespace Sys2Proof.Machine

/-- The status bits (30_encoding.md R104). -/
def REQ : Byte := 0x01
@[inherit_doc REQ] def IO : Byte := 0x02
@[inherit_doc REQ] def CD : Byte := 0x04
@[inherit_doc REQ] def BSY : Byte := 0x08
@[inherit_doc REQ] def DRQ : Byte := 0x10
@[inherit_doc REQ] def IRQ : Byte := 0x20

/-- The error-present bit of the completion byte (30_encoding.md R105). -/
def errorPresent : Byte := 0x02

/-- Whether `DMA_ENA` is set in a mask (30_encoding.md R106). -/
def dmaEnabled (mask : Byte) : Bool := mask &&& Config.dmaEna != 0

/-- Whether `IRQ_ENA` is set in a mask (30_encoding.md R106). -/
def irqEnabled (mask : Byte) : Bool := mask &&& Config.irqEna != 0

/-- The status a controller-to-host data phase starts with, and goes back to after a byte moved by DMA (R175, R224). -/
def sendStatus (dma : Bool) : Byte := if dma then BSY ||| IO ||| DRQ else BSY ||| IO ||| REQ

/-- The status a host-to-controller data phase starts with, and goes back to after a byte moved by DMA (R176, R225). -/
def receiveStatus (dma : Bool) : Byte := if dma then BSY ||| DRQ else BSY ||| REQ

/-- The status of a completion (R180). -/
def completeStatus (irq : Bool) : Byte :=
  if irq then REQ ||| CD ||| IO ||| BSY ||| IRQ else REQ ||| CD ||| IO ||| BSY

/-- The status a DMA stall leaves (43_transfer_engine.md R229). -/
def stallStatus (status : Byte) : Byte := status ||| (BSY ||| CD ||| IO ||| REQ)

end Sys2Proof.Machine
end

