-- ==== Sys2Proof/Machine/Ops.lean ====
section
/-! DEFINITION. The named operations over memory, the image and DMA collaborators, the phase entries, and the two
halves of the block's one exception mechanism: an error that completes the command, and the host's read of the
completion byte that returns from it. -/

namespace Sys2Proof.Machine

/-! ## Memory -/

/-- The byte at an address; an unlisted address reads 0x00 (log 5). -/
def Memory.read : Memory → Nat → Byte
  | [], _ => 0#8
  | (k, b) :: m, a => if k = a then b else Memory.read m a

/-- The `n` bytes from `base` upwards. -/
def Memory.readBytes (m : Memory) (base n : Nat) : List Byte := (List.range n).map (fun i => Memory.read m (base + i))

/-- The entries of a run of bytes placed at `base`. -/
def Memory.cells : Nat → List Byte → Memory
  | _, [] => []
  | base, b :: bs => if b = 0#8 then Memory.cells (base + 1) bs else (base, b) :: Memory.cells (base + 1) bs

/-- Replace the bytes from `base` upwards by `bs`. -/
def Memory.writeBytes (m : Memory) (base : Nat) (bs : List Byte) : Memory :=
  m.filter (fun c => decide (c.1 < base)) ++ (Memory.cells base bs ++ m.filter (fun c => decide (base + bs.length ≤ c.1)))

/-- Set the `n` bytes from `base` upwards to 0x00. -/
def Memory.zero (m : Memory) (base n : Nat) : Memory :=
  m.filter (fun c => decide (c.1 < base ∨ base + n ≤ c.1))

/-! ## The event log, the scheduler, the drives -/

/-- Append an event (10_state.md R59). -/
def State.event (e : Event) (s : State) : State := { s with log := s.log ++ [e] }

/-- `LogViolation(kind)` (41_state_machine.md R186). -/
def State.violation (k : Violation) (s : State) : State := s.event (.violation k)

/-- `Arm(delay)`: a pending step is replaced (20_memory.md R90). -/
def State.arm (d : Delay) (s : State) : State := { s with pending := some d }

/-- The drive index of the current command, `d = driveSelect` (44_commands.md, opening). -/
def State.d (s : State) : Nat := s.driveSelect.toNat

/-- `driveOk(d)` (10_state.md R51). -/
def State.driveOk (d : Nat) (s : State) : Bool :=
  match s.drives[d]? with
  | some dr => dr.present
  | none => false

/-- Change one drive slot; an index that names none changes nothing (10_state.md R51). -/
def State.onDrive (d : Nat) (g : Drive → Drive) (s : State) : State := { s with drives := s.drives.modify d g }

/-! ## The image collaborator (20_memory.md R80 to R83) -/

/-- Whether blocks `lba` to `lba + n - 1` of drive `d` are inside the image of a present drive (R83). -/
def State.imageHas (d lba n : Nat) (s : State) : Bool :=
  match s.drives[d]? with
  | some dr => dr.present && decide (lba + n ≤ dr.phys.blocks)
  | none => false

/-- One byte of a drive's image (R75). -/
def State.imageByte (d a : Nat) (s : State) : Byte :=
  match s.drives[d]? with
  | some dr => Memory.read dr.image a
  | none => 0#8

/-- An access outside the contract: the mark is set and nothing else changes (R83). -/
def State.markFault (s : State) : State := { s with fault := true }

/-- `buffer[0..511] <- ImageRead(d, lba)` (R80, 43_transfer_engine.md R223). `.error t` is a handler that ends in `t`. -/
def State.imageToBuffer (d lba : Nat) (s : State) : Except State State :=
  if s.imageHas d lba 1 then
    .ok { s with buffer := Memory.writeBytes s.buffer 0 ((List.range 512).map (fun i => s.imageByte d (lba * 512 + i))) }
  else .error s.markFault

/-- `ImageWrite(d, lba, buffer[0..511])` (R81, 43_transfer_engine.md R223). -/
def State.bufferToImage (d lba : Nat) (s : State) : Except State State :=
  if s.imageHas d lba 1 then
    .ok ((s.onDrive d (fun dr =>
      { dr with image := Memory.writeBytes dr.image (lba * 512) (Memory.readBytes s.buffer 0 512) })).event
        (.imageWritten d lba))
  else .error s.markFault

/-- `ImageZero(d, lba, n)` (R82; `n = 0`: log 12). -/
def State.imageZero (d lba n : Nat) (s : State) : Except State State :=
  if n = 0 then .ok s
  else if s.imageHas d lba n then
    .ok ((s.onDrive d (fun dr => { dr with image := Memory.zero dr.image (lba * 512) (n * 512) })).event
      (.imageZeroed d lba n))
  else .error s.markFault

/-! ## Phase entries (41_state_machine.md R175 to R177) -/

/-- `EnterSend(n)` (R175). -/
def State.enterSend (n : Nat) (s : State) : State :=
  let dma := dmaEnabled s.irqDmaMask
  { s with
    bufPos := 0, bufCount := n, stall := 0, xferDma := dma, phase := .sendData, status := sendStatus dma
    pending := if dma then some .dma else s.pending }

/-- `EnterReceive(n)` (R176). -/
def State.enterReceive (n : Nat) (s : State) : State :=
  let dma := dmaEnabled s.irqDmaMask
  { s with
    bufPos := 0, bufCount := n, stall := 0, xferDma := dma, phase := .receiveData, status := receiveStatus dma
    pending := if dma then some .dma else s.pending }

/-- `EnterDone(delay)` (R177). -/
def State.enterDone (d : Delay) (s : State) : State := State.arm d { s with phase := .done, status := BSY }

/-- The last byte of a controller-to-host phase has moved (40_register_interface.md R146, 43_transfer_engine.md R224). -/
def State.enterSent (s : State) : State := State.arm .step { s with phase := .sentData, status := BSY }

/-- The last byte of a host-to-controller phase has moved (40_register_interface.md R142, 43_transfer_engine.md R225). -/
def State.enterReceived (s : State) : State := State.arm .step { s with phase := .receivedData, status := BSY }

/-- The sixth command byte is in (40_register_interface.md R141). -/
def State.enterStart (s : State) : State := State.arm .cmd { s with phase := .startCommand, status := BSY }

/-! ## Completion, error, and the return (41_state_machine.md R180, R181; 60_exceptions.md R306, R307, R312) -/

/-- `RaiseIrq()` (60_exceptions.md R312). -/
def State.raiseIrq (s : State) : State := s.event (.irqRaised s.params.irqLine)

/-- `Complete()` (R180). -/
def State.complete (s : State) : State :=
  let irq := irqEnabled s.irqDmaMask
  let t := { s with status := completeStatus irq, phase := .completionByte }
  if irq then t.raiseIrq else t

/-- `Error(code)` (R181). -/
def State.error (e : ErrorName) (s : State) : State :=
  { s with completionByte := s.completionByte ||| errorPresent, errorCode := s.params.errCodes.of e }

/-- Taking an exception: `Error(code)` followed by `Complete()` in the same step (00_scope.md R13, R182). -/
def State.fail (e : ErrorName) (s : State) : State := (s.error e).complete

/-- The return: the host's read of the completion byte (40_register_interface.md R145, 60_exceptions.md R307). -/
def State.returnCompletion (s : State) : State :=
  { s with busOut := s.completionByte, status := 0, phase := .idle }

/-! ## The scheduled step (41_state_machine.md R170 to R173) -/

/-- The step prologue (R172). -/
def State.prologue (f : Cdb) (s : State) : State :=
  { s with driveSelect := f.drive, completionByte := f.drive.zeroExtend 8 <<< 5 }

/-- DMA stall (43_transfer_engine.md R226, R227, R229). -/
def State.dmaStall (s : State) : State :=
  let t := { s with stall := s.stall + 1 }
  if s.params.retryBudget ≤ t.stall then t.fail .noRecovery
  else State.arm .stall { t with status := stallStatus t.status }

/-- The DMA send step (43_transfer_engine.md R224, 20_memory.md R86, R87). -/
def dmaSend (s : State) : Host.Outcome State Fault Refusal :=
  if s.bufPos < s.params.bufSize then
    match s.dma.write with
    | .ack =>
      let t := State.event (.dmaOut s.params.dmaChannel (Memory.read s.buffer s.bufPos))
        { s with bufPos := s.bufPos + 1, stall := 0 }
      .next (if t.bufPos = t.bufCount then t.enterSent
        else State.arm .dma { t with status := sendStatus true })
    | .noData => .next (s.event (.dmaNoData s.params.dmaChannel)).dmaStall
  else .fault .bufferIndex

/-- The DMA receive step (43_transfer_engine.md R225, 20_memory.md R85, R87). -/
def dmaReceive (s : State) : Host.Outcome State Fault Refusal :=
  match s.dma.read with
  | .byte b =>
    if s.bufPos < s.params.bufSize then
      let t := State.event (.dmaIn s.params.dmaChannel b)
        { s with buffer := Memory.writeBytes s.buffer s.bufPos [b], bufPos := s.bufPos + 1, stall := 0 }
      .next (if t.bufPos = t.bufCount then t.enterReceived
        else State.arm .dma { t with status := receiveStatus true })
    else .fault .bufferIndex
  | .noData => .next (s.event (.dmaNoData s.params.dmaChannel)).dmaStall

/-- The row of a command in the handler table (41_state_machine.md R179); `none` is its '-'. -/
structure Handlers where
  start    : State → State
  sent     : Option (State → State) := none
  received : Option (State → State) := none
  done     : Option (State → State) := none

/-- Run a handler, or log that there is none (41_state_machine.md R173, R185). -/
def runHandler (h : Option (State → State)) (s : State) : State :=
  match h with
  | some g => g s
  | none => s.violation .stepNoHandler

/-- One scheduled step of the command with fields `f` and handlers `h`: the guard, the prologue, then the DMA byte step
or the handler (R171 to R173). -/
def scheduledStep (f : Cdb) (h : Handlers) (s : State) : Host.Outcome State Fault Refusal :=
  match s.phase with
  | .idle | .receiveCommand | .completionByte => .next (s.violation .stepNoHandler)
  | .sendData => if s.xferDma then dmaSend (s.prologue f) else .next (s.violation .stepNoHandler)
  | .receiveData => if s.xferDma then dmaReceive (s.prologue f) else .next (s.violation .stepNoHandler)
  | .startCommand => .next (h.start (s.prologue f))
  | .sentData => .next (runHandler h.sent (s.prologue f))
  | .receivedData => .next (runHandler h.received (s.prologue f))
  | .done => .next (runHandler h.done (s.prologue f))

/-! ## Common sub-steps of the handlers (44_commands.md) -/

/-- `RequireDrive()` (R240). `.error t` is a handler that ends in `t`. -/
def State.requireDrive (s : State) : Except State State :=
  if s.driveOk s.d then .ok s else .error (s.fail .notReady)

/-- Run the rest of a handler unless it has ended already. -/
def andThen (r : Except State State) (g : State → State) : State :=
  match r with
  | .ok t => g t
  | .error t => t

end Sys2Proof.Machine
end

