-- ==== Sys2Proof/Machine/Operands.lean ====
section
/-! DEFINITION. The address operand of a command: decodeCHS, translate, nextSector (42_chs_translator.md), and the
address sub-steps of 44_commands.md built on them. -/

namespace Sys2Proof.Machine

/-- The clamp of an out-of-range cylinder, and the saturation of the last one: `C - 1`, or 0 if `C = 0`
(42_chs_translator.md R201, R206; decision D30). -/
def lastCylinder (g : Geometry) : BitVec 16 := if g.cylinders = 0 then 0 else g.cylinders - 1

/-- The address fields of a command block (R200; 30_encoding.md R118, R119). `lba` is not written. -/
def addressOf (p : Params) (f : Cdb) (a : Address) : Address :=
  { a with
    cyl := BitVec.ofNat 16 (f.cyl.toNat + p.cylOffset)
    head := BitVec.ofNat 8 f.head.toNat
    sector := BitVec.ofNat 8 (f.sector.toNat % 2 ^ p.sectorBits)
    count := f.count }

/-- `drive[d].currentCylinder <- c`. -/
def State.seekTo (d : Nat) (c : BitVec 16) (s : State) : State :=
  s.onDrive d (fun dr => { dr with currentCylinder := c })

/-- `decodeCHS(d)` with its answer (R200, R201, R202). -/
def State.decodeChs (d : Nat) (f : Cdb) (s : State) : Bool × State :=
  let t := { s with addr := addressOf s.params f s.addr }
  match s.drives[d]? with
  | some dr =>
    if t.addr.cyl.toNat < dr.cfg.cylinders.toNat then (true, t.seekTo d t.addr.cyl)
    else (false, t.seekTo d (lastCylinder dr.cfg))
  | none => (false, t)

/-- `translate(d, c, h, s)` (R203, R204, R205). -/
def State.translate (d : Nat) (c : BitVec 16) (h sct : Byte) (s : State) : Except ErrorName Nat :=
  match s.drives[d]? with
  | none => .error .notReady
  | some dr =>
    if dr.present = false then .error .notReady
    else if dr.currentCylinder ≠ c then .error .illegalAddress
    else if dr.cfg.heads.toNat ≤ h.toNat then .error .illegalAddress
    else if dr.cfg.spt.toNat ≤ sct.toNat then .error .illegalAddress
    else .ok ((c.toNat * dr.cfg.heads.toNat + h.toNat) * dr.cfg.spt.toNat + sct.toNat)

/-- The address `nextSector` gives on a configured geometry (R206, R207). -/
def advance (g : Geometry) (a : Address) : Address :=
  let sector := a.sector + 1
  if sector.toNat < g.spt.toNat then { a with sector := sector }
  else
    let head := a.head + 1
    if head.toNat < g.heads.toNat then { a with sector := 0, head := head }
    else
      let cyl := a.cyl + 1
      { a with sector := 0, head := 0, cyl := if cyl.toNat < g.cylinders.toNat then cyl else lastCylinder g }

/-- `nextSector(d)` (R206, R208). An index that names no slot changes nothing (log 25). -/
def State.nextSector (d : Nat) (s : State) : State :=
  match s.drives[d]? with
  | some dr => State.seekTo d (advance dr.cfg s.addr).cyl { s with addr := advance dr.cfg s.addr }
  | none => s

/-- `addr.lba <- lba` (10_state.md R48). -/
def State.setLba (lba : Nat) (s : State) : State := { s with addr := { s.addr with lba := BitVec.ofNat 32 lba } }

/-- `addr.count <- (addr.count - 1) mod 256` (44_commands.md R276). -/
def State.countDown (s : State) : State := { s with addr := { s.addr with count := s.addr.count - 1 } }

/-- `r <- translate(...)`, then `Error(e); Complete()` or `addr.lba <- r.lba` (44_commands.md R247, R252, R277;
10_state.md R48). The one place where a command translates. -/
def State.locate (h sct : Byte) (s : State) : Except State State :=
  match s.translate s.d s.addr.cyl h sct with
  | .error e => .error (s.fail e)
  | .ok lba => .ok (s.setLba lba)

/-- `SetupAddress(failCode)` (R241). -/
def State.setupAddress (e : ErrorName) (f : Cdb) (s : State) : Except State State :=
  match s.requireDrive with
  | .error t => .error t
  | .ok t =>
    match t.decodeChs t.d f with
    | (true, u) => .ok u
    | (false, u) => .error (u.fail e)

/-- `SetupAddress(IllegalAddress)` and the translation of the addressed sector (R252, R254, R256, R258). -/
def State.openSector (f : Cdb) (s : State) : Except State State :=
  match s.setupAddress .illegalAddress f with
  | .error t => .error t
  | .ok t => t.locate t.addr.head t.addr.sector

/-- `SetupAddress(IllegalAddress)` and the translation of the addressed track's sector 0 (R247, R249). -/
def State.openTrack (f : Cdb) (s : State) : Except State State :=
  match s.setupAddress .illegalAddress f with
  | .error t => .error t
  | .ok t => t.locate t.addr.head 0

/-- `SectorAdvance()` (R277): `.ok` is its `true`. -/
def State.sectorAdvance (s : State) : Except State State :=
  let t := s.countDown
  if t.addr.count = 0 then .error t.complete
  else
    let u := t.nextSector t.d
    u.locate u.addr.head u.addr.sector

end Sys2Proof.Machine
end

