-- ==== Sys2Proof/Machine/Blocks.lean ====
section
/-! DEFINITION. The commands that move a parameter block or the sector buffer: SENSE, SPECIFY, READ_BUFFER,
WRITE_BUFFER and the vendor geometry commands (44_commands.md R245, R246, R261 to R266, R270, R271, R273, R274). -/

namespace Sys2Proof.Machine

/-- The SENSE block (30_encoding.md R113): the stored error, and the address in the host's own numbering. The cylinder
`(addr.cyl - cylOffset) mod 1024` is the low ten bits of the difference of the 16-bit values. -/
def senseBlock (s : State) : List Byte :=
  let lcyl := s.addr.cyl - BitVec.ofNat 16 s.params.cylOffset
  [s.errorCode,
   s.driveSelect ++ s.addr.head.extractLsb' 0 5,
   lcyl.extractLsb' 8 2 ++ s.addr.sector.extractLsb' 0 6,
   lcyl.extractLsb' 0 8]

/-- Place a parameter block at the start of the buffer and send it. -/
def State.sendBytes (bs : List Byte) (s : State) : State :=
  State.enterSend bs.length { s with buffer := Memory.writeBytes s.buffer 0 bs }

/-- SENSE (R245, R246). -/
def execSense (f : Cdb) (s : State) : Host.Outcome State Fault Refusal :=
  scheduledStep f
    { start := fun t => t.sendBytes (senseBlock t), sent := some (fun t => State.complete { t with errorCode := 0 }) } s

/-- Store a new configured geometry, or NotReady for an index that names no slot; then complete (R262, R271). -/
def State.configure (g : Geometry → Geometry) (s : State) : State :=
  if s.d < s.drives.length then (s.onDrive s.d (fun dr => { dr with cfg := g dr.cfg })).complete
  else s.fail .notReady

/-- SPECIFY, ReceivedData (R262; block layout 30_encoding.md R114). -/
def specifyReceived (s : State) : State :=
  s.configure (fun g =>
    { g with cylinders := Memory.read s.buffer 0 ++ Memory.read s.buffer 1, heads := Memory.read s.buffer 2 })

/-- SPECIFY (R261, R262). -/
def execSpecify (f : Cdb) (s : State) : Host.Outcome State Fault Refusal :=
  scheduledStep f { start := State.enterReceive 8, received := some specifyReceived } s

/-- READ_BUFFER (R263, R264). -/
def execReadBuffer (f : Cdb) (s : State) : Host.Outcome State Fault Refusal :=
  scheduledStep f { start := State.enterSend 512, sent := some State.complete } s

/-- WRITE_BUFFER (R265, R266). -/
def execWriteBuffer (f : Cdb) (s : State) : Host.Outcome State Fault Refusal :=
  scheduledStep f { start := State.enterReceive 512, received := some State.complete } s

/-- `GEOM_ENCODE(fam, cfg, phys)`, 16 bytes (30_encoding.md R115). -/
def geomBlock (fam : Family) (dr : Drive) : List Byte :=
  (List.range 16).map (Config.geomEncode fam dr.cfg dr.phys)

/-- Vendor geometry get, StartCommand (R270, R273). -/
def getGeomStart (fam : Family) (s : State) : State :=
  match s.drives[s.d]? with
  | some dr => s.sendBytes (geomBlock fam dr)
  | none => s.fail .notReady

/-- Vendor geometry set, ReceivedData (R271, R274). -/
def setGeomReceived (fam : Family) (s : State) : State :=
  s.configure (Config.geomDecode fam (Memory.readBytes s.buffer 0 16))

/-- DTC_GET_GEOM (R270). -/
def execDtcGetGeom (f : Cdb) (s : State) : Host.Outcome State Fault Refusal :=
  scheduledStep f { start := getGeomStart .dtc, sent := some State.complete } s

/-- DTC_SET_GEOM (R271). -/
def execDtcSetGeom (f : Cdb) (s : State) : Host.Outcome State Fault Refusal :=
  scheduledStep f { start := State.enterReceive 16, received := some (setGeomReceived .dtc) } s

/-- ST11_GET_GEOM (R273). -/
def execSt11GetGeom (f : Cdb) (s : State) : Host.Outcome State Fault Refusal :=
  scheduledStep f { start := getGeomStart .st11, sent := some State.complete } s

/-- ST11_SET_GEOM (R274). -/
def execSt11SetGeom (f : Cdb) (s : State) : Host.Outcome State Fault Refusal :=
  scheduledStep f { start := State.enterReceive 16, received := some (setGeomReceived .st11) } s

end Sys2Proof.Machine
end

