-- ==== Sys2Proof/Machine/Format.lean ====
section
/-! DEFINITION. FORMAT_TRACK, FORMAT_BAD_TRACK and FORMAT_DRIVE (44_commands.md R247 to R250). -/

namespace Sys2Proof.Machine

/-- Zero `n` blocks from the addressed one, then wait in proportion (R247, R249). -/
def zeroFrom (n : Nat) (s : State) : State :=
  andThen (s.imageZero s.d s.addr.lba.toNat n) (State.enterDone (.format n))

/-- The configured geometry of the current drive; the default stands for a slot that does not exist. -/
def State.cfgOf (d : Nat) (s : State) : Geometry :=
  match s.drives[d]? with
  | some dr => dr.cfg
  | none => default

/-- Format the addressed track, StartCommand (R247, R248). -/
def formatTrackStart (f : Cdb) (s : State) : State :=
  andThen (s.openTrack f) (fun t => zeroFrom (t.cfgOf t.d).spt.toNat t)

/-- Format from the addressed track to the end of the configured disk, StartCommand (R249). -/
def formatDriveStart (f : Cdb) (s : State) : State :=
  andThen (s.openTrack f) (fun t => zeroFrom ((t.cfgOf t.d).blocks - t.addr.lba.toNat) t)

/-- FORMAT_TRACK (R247, R250). -/
def execFormatTrack (f : Cdb) (s : State) : Host.Outcome State Fault Refusal :=
  scheduledStep f { start := formatTrackStart f, done := some State.complete } s

/-- FORMAT_BAD_TRACK: as FORMAT_TRACK, no mark is kept (R248, R250). -/
def execFormatBadTrack (f : Cdb) (s : State) : Host.Outcome State Fault Refusal :=
  scheduledStep f { start := formatTrackStart f, done := some State.complete } s

/-- FORMAT_DRIVE (R249, R250). -/
def execFormatDrive (f : Cdb) (s : State) : Host.Outcome State Fault Refusal :=
  scheduledStep f { start := formatDriveStart f, done := some State.complete } s

end Sys2Proof.Machine
end

