-- ==== Sys2Proof/Machine/Immediate.lean ====
section
/-! DEFINITION. The commands that end in their first step whatever the drive: the vendor diagnostics, the vendor
geometry commands of another family, and the unknown opcodes (44_commands.md R267 to R269, R272, R275). -/

namespace Sys2Proof.Machine

/-- RAM_DIAG (R267). -/
def execRamDiag (f : Cdb) (s : State) : Host.Outcome State Fault Refusal :=
  scheduledStep f { start := State.complete } s

/-- DRIVE_DIAG (R268). -/
def execDriveDiag (f : Cdb) (s : State) : Host.Outcome State Fault Refusal :=
  scheduledStep f { start := State.complete } s

/-- CTRL_DIAG (R269). -/
def execCtrlDiag (f : Cdb) (s : State) : Host.Outcome State Fault Refusal :=
  scheduledStep f { start := State.complete } s

/-- DTC_GET_GEOM in another family (R272). -/
def execWrongDtcGetGeom (f : Cdb) (s : State) : Host.Outcome State Fault Refusal :=
  scheduledStep f { start := State.fail .badCommand } s

/-- DTC_SET_GEOM in another family (R272). -/
def execWrongDtcSetGeom (f : Cdb) (s : State) : Host.Outcome State Fault Refusal :=
  scheduledStep f { start := State.fail .badCommand } s

/-- ST11_GET_GEOM in another family (R272). -/
def execWrongSt11GetGeom (f : Cdb) (s : State) : Host.Outcome State Fault Refusal :=
  scheduledStep f { start := State.fail .badCommand } s

/-- ST11_SET_GEOM in another family (R272). -/
def execWrongSt11SetGeom (f : Cdb) (s : State) : Host.Outcome State Fault Refusal :=
  scheduledStep f { start := State.fail .badCommand } s

/-- An opcode of no row (R275). The opcode itself has no further effect. -/
def execUnknown (_op : Byte) (f : Cdb) (s : State) : Host.Outcome State Fault Refusal :=
  scheduledStep f { start := State.fail .badCommand } s

end Sys2Proof.Machine
end

