-- ==== Sys2Proof/Machine/Ports.lean ====
section
/-! DEFINITION. The eight port accesses (40_register_interface.md). A read leaves its result in `busOut` (log 9). -/

namespace Sys2Proof.Machine

/-- A host write of a command byte (R141). -/
def writeCommandByte (v : Byte) (s : State) : Host.Outcome State Fault Refusal :=
  if h : s.commandPos < 6 then
    let t := { s with command := s.command.set s.commandPos v, commandPos := s.commandPos + 1 }
    .next (if t.commandPos = 6 then t.enterStart else t)
  else .fault .commandIndex

/-- A host write of a data byte, in a polled or a DMA-driven phase alike (R142, R155). -/
def writeDataByte (v : Byte) (s : State) : Host.Outcome State Fault Refusal :=
  if s.bufPos < s.params.bufSize then
    let t := { s with buffer := Memory.writeBytes s.buffer s.bufPos [v], bufPos := s.bufPos + 1 }
    .next (if t.bufPos = t.bufCount then t.enterReceived else t)
  else .fault .bufferIndex

/-- DATA_WRITE (R141, R142, R143). -/
def execDataWrite (v : Byte) (s : State) : Host.Outcome State Fault Refusal :=
  match s.phase with
  | .receiveCommand => writeCommandByte v s
  | .receiveData => writeDataByte v s
  | .idle | .startCommand | .receivedData | .sendData | .sentData | .completionByte | .done =>
    .next (s.violation .writeData)

/-- A host read of a data byte, in a polled or a DMA-driven phase alike (R146, R155). -/
def readDataByte (s : State) : Host.Outcome State Fault Refusal :=
  if s.bufPos < s.params.bufSize then
    let t := { s with busOut := Memory.read s.buffer s.bufPos, bufPos := s.bufPos + 1 }
    .next (if t.bufPos = t.bufCount then t.enterSent else t)
  else .fault .bufferIndex

/-- The IRQ clear every port-0 read begins with (R144; log 15). -/
def State.clearIrq (s : State) : State := { s with status := s.status &&& ~~~IRQ }

/-- DATA_READ (R144 to R147). -/
def execDataRead (s : State) : Host.Outcome State Fault Refusal :=
  match s.phase with
  | .completionByte => .next s.clearIrq.returnCompletion
  | .sendData => readDataByte s.clearIrq
  | .idle | .receiveCommand | .startCommand | .receiveData | .receivedData | .sentData | .done =>
    .next (State.violation .readData { s.clearIrq with busOut := 0xFF })

/-- RESET_WRITE: controller reset; the value is ignored (R148; 10_state.md R61). -/
def execResetWrite (_v : Byte) (s : State) : Host.Outcome State Fault Refusal :=
  .next { s with status := 0, pending := none, phase := .idle, stall := 0 }

/-- STATUS_READ (R149). -/
def execStatusRead (s : State) : Host.Outcome State Fault Refusal := .next { s with busOut := s.status }

/-- SELECT_WRITE: select pulse; the value is ignored and a pending step stays pending (R150). -/
def execSelectWrite (_v : Byte) (s : State) : Host.Outcome State Fault Refusal :=
  .next { s with status := BSY ||| CD ||| REQ, commandPos := 0, phase := .receiveCommand }

/-- SWITCH_READ (R151). -/
def execSwitchRead (s : State) : Host.Outcome State Fault Refusal := .next { s with busOut := s.switches }

/-- MASK_WRITE (R152). -/
def execMaskWrite (v : Byte) (s : State) : Host.Outcome State Fault Refusal := .next { s with irqDmaMask := v }

/-- MASK_READ: a fresh free value (R153; log 10). -/
def execMaskRead (s : State) : Host.Outcome State Fault Refusal :=
  .next { s with busOut := Config.maskRead s.draws, draws := s.draws + 1 }

end Sys2Proof.Machine
end

