-- ==== Sys2Proof/Machine/Positioning.lean ====
section
/-! DEFINITION. TEST_READY, RECALIBRATE, SEEK and VERIFY (44_commands.md R242 to R244, R251, R260). -/

namespace Sys2Proof.Machine

/-- TEST_READY, StartCommand (R242). -/
def testReadyStart (s : State) : State :=
  if s.driveOk s.d then s.complete else (s.error .notReady).complete

/-- TEST_READY (R242). -/
def execTestReady (f : Cdb) (s : State) : Host.Outcome State Fault Refusal :=
  scheduledStep f { start := testReadyStart } s

/-- RECALIBRATE, StartCommand (R243). -/
def recalibrateStart (s : State) : State := andThen s.requireDrive (State.enterDone .recal)

/-- RECALIBRATE, Done (R244). -/
def recalibrateDone (s : State) : State := (s.seekTo s.d (BitVec.ofNat 16 s.params.cylOffset)).complete

/-- RECALIBRATE (R243, R244). -/
def execRecalibrate (f : Cdb) (s : State) : Host.Outcome State Fault Refusal :=
  scheduledStep f { start := recalibrateStart, done := some recalibrateDone } s

/-- SEEK, StartCommand (R260): `decodeCHS` sets or clamps the cylinder, SeekError if out of range. -/
def seekStart (f : Cdb) (s : State) : State := andThen (s.setupAddress .seekError f) State.complete

/-- SEEK (R260). -/
def execSeek (f : Cdb) (s : State) : Host.Outcome State Fault Refusal :=
  scheduledStep f { start := seekStart f } s

/-- The loop of VERIFY, at most `n` rounds (R251): `addr.lba` follows each successful translate (10_state.md R48;
log 14). The count reaches 0 within 256 rounds, so 256 is never used up (log 24). -/
def verifyLoop : Nat → State → State
  | 0, s => s.complete
  | n + 1, s =>
    match s.locate s.addr.head s.addr.sector with
    | .error t => t
    | .ok t =>
      let u := (t.nextSector t.d).countDown
      if u.addr.count = 0 then u.complete else verifyLoop n u

/-- VERIFY, StartCommand (R251). -/
def verifyStart (f : Cdb) (s : State) : State := andThen (s.setupAddress .illegalAddress f) (verifyLoop 256)

/-- VERIFY (R251). -/
def execVerify (f : Cdb) (s : State) : Host.Outcome State Fault Refusal :=
  scheduledStep f { start := verifyStart f } s

end Sys2Proof.Machine
end

