-- ==== Sys2Proof/Machine/Sectors.lean ====
section
/-! DEFINITION. READ, READ_LONG, WRITE and WRITE_LONG (44_commands.md R252 to R259). -/

namespace Sys2Proof.Machine

/-- Bring the addressed block into the buffer and send it (R252, R253). -/
def sendBlock (s : State) : State :=
  andThen (s.imageToBuffer s.d s.addr.lba.toNat) (State.enterSend 512)

/-- `buffer[512..515] <- LONG_ECC_FILL` (30_encoding.md R116). -/
def State.fillEcc (s : State) : State :=
  { s with buffer := Memory.writeBytes s.buffer 512 s.params.eccFill.toList }

/-- Bring the addressed block into the buffer, add the ECC bytes, and send both (R254, R255). -/
def sendLongBlock (s : State) : State :=
  andThen (s.imageToBuffer s.d s.addr.lba.toNat) (fun t => t.fillEcc.enterSend 516)

/-- Write the received sector; if more remain, address the next and receive `n` bytes for it (R257, R259). -/
def storeBlock (n : Nat) (s : State) : State :=
  andThen (s.bufferToImage s.d s.addr.lba.toNat) (fun t => andThen t.sectorAdvance (State.enterReceive n))

/-- READ (R252, R253). -/
def execRead (f : Cdb) (s : State) : Host.Outcome State Fault Refusal :=
  scheduledStep f
    { start := fun t => andThen (t.openSector f) sendBlock, sent := some (fun t => andThen t.sectorAdvance sendBlock) } s

/-- READ_LONG (R254, R255). -/
def execReadLong (f : Cdb) (s : State) : Host.Outcome State Fault Refusal :=
  scheduledStep f
    { start := fun t => andThen (t.openSector f) sendLongBlock
      sent := some (fun t => andThen t.sectorAdvance sendLongBlock) } s

/-- WRITE (R256, R257). -/
def execWrite (f : Cdb) (s : State) : Host.Outcome State Fault Refusal :=
  scheduledStep f
    { start := fun t => andThen (t.openSector f) (State.enterReceive 512), received := some (storeBlock 512) } s

/-- WRITE_LONG (R258, R259): bytes 512 to 515 are received and not written. -/
def execWriteLong (f : Cdb) (s : State) : Host.Outcome State Fault Refusal :=
  scheduledStep f
    { start := fun t => andThen (t.openSector f) (State.enterReceive 516), received := some (storeBlock 516) } s

end Sys2Proof.Machine
end

