-- ==== Sys2Proof/Machine/Dispatch.lean ====
section
/-! DEFINITION. The meaning of every instruction, one arm each. -/

namespace Sys2Proof.Machine

/-- A command is one scheduled step of it (41_state_machine.md R170 to R173), a port access one host access. -/
def exec (i : Instr) (s : State) : Host.Outcome State Fault Refusal :=
  match i with
  | .testReady f => Sys2Proof.Machine.execTestReady f s
  | .recalibrate f => Sys2Proof.Machine.execRecalibrate f s
  | .sense f => Sys2Proof.Machine.execSense f s
  | .formatDrive f => Sys2Proof.Machine.execFormatDrive f s
  | .verify f => Sys2Proof.Machine.execVerify f s
  | .formatTrack f => Sys2Proof.Machine.execFormatTrack f s
  | .formatBadTrack f => Sys2Proof.Machine.execFormatBadTrack f s
  | .read f => Sys2Proof.Machine.execRead f s
  | .write f => Sys2Proof.Machine.execWrite f s
  | .seek f => Sys2Proof.Machine.execSeek f s
  | .specify f => Sys2Proof.Machine.execSpecify f s
  | .readBuffer f => Sys2Proof.Machine.execReadBuffer f s
  | .writeBuffer f => Sys2Proof.Machine.execWriteBuffer f s
  | .ramDiag f => Sys2Proof.Machine.execRamDiag f s
  | .driveDiag f => Sys2Proof.Machine.execDriveDiag f s
  | .ctrlDiag f => Sys2Proof.Machine.execCtrlDiag f s
  | .readLong f => Sys2Proof.Machine.execReadLong f s
  | .writeLong f => Sys2Proof.Machine.execWriteLong f s
  | .st11GetGeom f => Sys2Proof.Machine.execSt11GetGeom f s
  | .st11SetGeom f => Sys2Proof.Machine.execSt11SetGeom f s
  | .dtcSetGeom f => Sys2Proof.Machine.execDtcSetGeom f s
  | .dtcGetGeom f => Sys2Proof.Machine.execDtcGetGeom f s
  | .wrongDtcGetGeom f => Sys2Proof.Machine.execWrongDtcGetGeom f s
  | .wrongDtcSetGeom f => Sys2Proof.Machine.execWrongDtcSetGeom f s
  | .wrongSt11GetGeom f => Sys2Proof.Machine.execWrongSt11GetGeom f s
  | .wrongSt11SetGeom f => Sys2Proof.Machine.execWrongSt11SetGeom f s
  | .unknown op f => Sys2Proof.Machine.execUnknown op f s
  | .dataWrite v => Sys2Proof.Machine.execDataWrite v s
  | .dataRead => Sys2Proof.Machine.execDataRead s
  | .resetWrite v => Sys2Proof.Machine.execResetWrite v s
  | .statusRead => Sys2Proof.Machine.execStatusRead s
  | .selectWrite v => Sys2Proof.Machine.execSelectWrite v s
  | .switchRead => Sys2Proof.Machine.execSwitchRead s
  | .maskWrite v => Sys2Proof.Machine.execMaskWrite v s
  | .maskRead => Sys2Proof.Machine.execMaskRead s

end Sys2Proof.Machine
end

