-- ==== Sys2Proof/Machine/Turns.lean ====
section
/-! DEFINITION. What comes next: the next turn of the environment's total order (20_memory.md R91, R92), and the
instruction it fetches, from the bus for a host access and from the command buffer for a scheduled step. -/

namespace Sys2Proof.Machine

/-- What a state has its machine do next. -/
inductive Fetched where
  /-- run this instruction at this state -/
  | run (i : Instr) (s : State)
  /-- no instruction runs -/
  | settled (o : Host.Outcome State Fault Refusal)

/-- The constraints of 00_scope.md R10; `NUM_DRIVES` is the number of drive slots. -/
def State.configOk (s : State) : Bool :=
  s.params.wf && decide (1 ≤ s.drives.length) && decide (s.drives.length ≤ 8)

/-- Firing the pending step: it stops being pending, and the command in the command buffer is run
(41_state_machine.md R170, R173). -/
def runPending (s : State) : Fetched := .run (decodeCommand s.params s.command) { s with pending := none }

/-- The DMA channel's free answers to a step that no turn brings (20_memory.md R85, R86; log 8). -/
def State.drawDma (s : State) : State :=
  { s with dma := { read := Config.dmaRead s.draws, write := Config.dmaWrite s.draws }, draws := s.draws + 1 }

/-- Detach: the pending step is dropped, nothing partial reaches an image (20_memory.md R84). DESIGN CHOICE (log 28): the
`imageClose(drive)` of R84 has no event and no open or closed state of its own; `attached := false` stands for every image
being closed, and the image contents stay in the drives for a later attach. -/
def State.detach (s : State) : State := { s with attached := false, pending := none }

/-- A slot launched again with the image its collaborator kept (70_reset_and_hazards.md R332). -/
def Drive.launch (d : Drive) : Launch := { present := d.present, phys := d.phys, image := d.image }

/-- A later attach: 10_state.md R60 again, over the images kept, with free bytes in the two buffers (R332; log 21). -/
def State.reattach (s : State) : State :=
  { State.attach s.params (s.drives.map Drive.launch)
      (Vector.ofFn (fun i => Config.attachCommand s.draws i.val))
      (Memory.writeBytes [] 0 ((List.range s.params.bufSize).map (Config.attachBuffer s.draws))) with
    draws := s.draws + 1 }

/-- The next turn of an attached instance. With none left the host is silent: the pending step fires, and with none
pending nothing happens (60_exceptions.md R322; log 7). A `fire` with no step pending is skipped (41_state_machine.md
R170: a step is never enabled then). -/
def fetchAttached (s : State) : Fetched :=
  match s.turns with
  | [] =>
    match s.pending with
    | some _ => runPending s.drawDma
    | none => .settled (.next s)
  | .host a :: rest =>
    match decodeAccess a with
    | .ok i => .run i { s with turns := rest }
    | .error _ => .settled (.refused .accessWidth)
  | .fire dma :: rest =>
    match s.pending with
    | some _ => runPending { s with turns := rest, dma := dma }
    | none => .settled (.next { s with turns := rest })
  | .detach :: rest => .settled (.next (State.detach { s with turns := rest }))
  | .attach :: _ => .settled (.refused .attachedTwice)

/-- The next turn after detach (20_memory.md R84, 70_reset_and_hazards.md R332; log 21). -/
def fetchDetached (s : State) : Fetched :=
  match s.turns with
  | [] => .settled (.next s)
  | .attach :: rest => .settled (.next { s.reattach with turns := rest })
  | .host _ :: _ | .fire _ :: _ | .detach :: _ => .settled (.refused .detached)

/-- What comes next. A set `fault` mark is a fault (20_memory.md R83, 60_exceptions.md R303), a configuration outside
00_scope.md R10 is refused. -/
def fetch (s : State) : Fetched :=
  if s.fault then .settled (.fault .imageContract)
  else if s.configOk then (if s.attached then fetchAttached s else fetchDetached s)
  else .settled (.refused .configuration)

/-- The state in which these six bytes have just been received (40_register_interface.md R141) and the scheduler's turn
comes next; the DMA channel would answer NoData (log 23). -/
def State.withCommand (cmd : Vector Byte 6) (s : State) : State :=
  State.enterStart
    { s with command := cmd, commandPos := 6, turns := .fire { read := .noData, write := .noData } :: s.turns }

end Sys2Proof.Machine
end

