-- ==== Sys2Proof/Machine/Step.lean ====
section
/-! DEFINITION. One step of the machine: fetch, then run what was fetched. -/

namespace Sys2Proof.Machine

/-- One atomic action of the total order (20_memory.md R91). -/
def step (s : State) : Host.Outcome State Fault Refusal :=
  match fetch s with
  | .run i t => exec i t
  | .settled o => o

/-- The word stored as the command just received, so that the next step runs it (log 22, log 23). -/
def State.withFetchWord (s : State) (nbits w : Nat) : State := s.withCommand (tableBytes nbits w)

end Sys2Proof.Machine
end

