-- ==== Sys2Proof/Safety.lean ====
section
/-! DEFINITION. The terms the claims are stated in: what a completion, an error and a phase entry leave, in the numbers
of 41_state_machine.md R188; which commands have which data phase (R179, 30_encoding.md R124); and the invariant of the
reachable states. None of it is used by the machine. -/

namespace Sys2Proof

/-- The block address of (cylinder, head, sector) on a geometry (42_chs_translator.md R203). -/
def Geometry.lba (g : Geometry) (c h s : Nat) : Nat := (c * g.heads.toNat + h) * g.spt.toNat + s

end Sys2Proof

namespace Sys2Proof.Machine

/-! ## Results, in the spec's numbers -/

/-- After the prologue of a step of a command (41_state_machine.md R172). -/
def State.begun (f : Cdb) (s : State) : State :=
  { s with driveSelect := f.drive, completionByte := f.drive.zeroExtend 8 <<< 5 }

/-- After `Complete()`: 0x0F, or 0x2F and the line raised when IRQ_ENA (bit 1) is set (R180; 60_exceptions.md R312). -/
def State.completed (s : State) : State :=
  if s.irqDmaMask.getLsbD 1 then
    { s with phase := .completionByte, status := 0x2F, log := s.log ++ [.irqRaised s.params.irqLine] }
  else { s with phase := .completionByte, status := 0x0F }

/-- After `Error(e)` and `Complete()` (R181, R182). -/
def State.failed (e : ErrorName) (s : State) : State :=
  State.completed
    { s with completionByte := s.completionByte ||| 0x02, errorCode := s.params.errCodes.of e }

/-- In a controller-to-host phase of `n` bytes just entered (R175, R188). -/
def State.sending (n : Nat) (s : State) : State :=
  { s with
    phase := .sendData, bufPos := 0, bufCount := n, stall := 0, xferDma := s.irqDmaMask.getLsbD 0
    status := if s.irqDmaMask.getLsbD 0 then 0x1A else 0x0B
    pending := if s.irqDmaMask.getLsbD 0 then some .dma else s.pending }

/-- In a host-to-controller phase of `n` bytes just entered (R176, R188). -/
def State.receiving (n : Nat) (s : State) : State :=
  { s with
    phase := .receiveData, bufPos := 0, bufCount := n, stall := 0, xferDma := s.irqDmaMask.getLsbD 0
    status := if s.irqDmaMask.getLsbD 0 then 0x18 else 0x09
    pending := if s.irqDmaMask.getLsbD 0 then some .dma else s.pending }

/-- In `Done`, waiting (R177, R188). -/
def State.waiting (d : Delay) (s : State) : State := { s with phase := .done, status := 0x08, pending := some d }

/-- The address fields a command block gives (42_chs_translator.md R200, R202). -/
def State.addressed (f : Cdb) (s : State) : State :=
  { s with
    addr :=
      { cyl := BitVec.ofNat 16 (f.cyl.toNat + s.params.cylOffset)
        head := f.head.zeroExtend 8
        sector := BitVec.ofNat 8 (f.sector.toNat % 2 ^ s.params.sectorBits)
        count := f.count
        lba := s.addr.lba } }

/-- Drive `d` at cylinder `c` (10_state.md R55). -/
def State.seeked (d : Nat) (c : BitVec 16) (s : State) : State :=
  { s with drives := s.drives.modify d (fun dr => { dr with currentCylinder := c }) }

/-- A drive without its image, to say what else of a drive stays. -/
def Drive.bare (d : Drive) : Drive := { d with image := [] }

/-- Drive `d` is present, and is `dr` (10_state.md R51). -/
def State.hasDrive (d : Nat) (dr : Drive) (s : State) : Prop := s.drives[d]? = some dr ∧ dr.present = true

/-- No present drive stands at `d`, the slot missing or empty (10_state.md R51). -/
def State.lacksDrive (d : Nat) (s : State) : Prop := ∀ dr, s.drives[d]? = some dr → dr.present = false

/-- `k` steps of the machine, stopping at the first fault or refusal. -/
def runSteps : Nat → State → Host.Outcome State Fault Refusal
  | 0, s => .next s
  | k + 1, s =>
    match step s with
    | .next t => runSteps k t
    | .fault r => .fault r
    | .refused r => .refused r

/-! ## Classes of commands (41_state_machine.md R179, 30_encoding.md R124, 44_commands.md R240) -/

/-- The length of a command's controller-to-host phase. -/
def sendLength : Instr → Option Nat
  | .read _ | .readBuffer _ => some 512
  | .readLong _ => some 516
  | .sense _ => some 4
  | .dtcGetGeom _ | .st11GetGeom _ => some 16
  | .testReady _ | .recalibrate _ | .formatDrive _ | .verify _ | .formatTrack _ | .formatBadTrack _ | .write _
  | .seek _ | .specify _ | .writeBuffer _ | .ramDiag _ | .driveDiag _ | .ctrlDiag _ | .writeLong _ | .st11SetGeom _
  | .dtcSetGeom _ | .wrongDtcGetGeom _ | .wrongDtcSetGeom _ | .wrongSt11GetGeom _ | .wrongSt11SetGeom _
  | .unknown _ _ | .dataWrite _ | .dataRead | .resetWrite _ | .statusRead | .selectWrite _ | .switchRead
  | .maskWrite _ | .maskRead => none

/-- The length of a command's host-to-controller phase. -/
def receiveLength : Instr → Option Nat
  | .write _ | .writeBuffer _ => some 512
  | .writeLong _ => some 516
  | .specify _ => some 8
  | .dtcSetGeom _ | .st11SetGeom _ => some 16
  | .testReady _ | .recalibrate _ | .sense _ | .formatDrive _ | .verify _ | .formatTrack _ | .formatBadTrack _
  | .read _ | .seek _ | .readBuffer _ | .ramDiag _ | .driveDiag _ | .ctrlDiag _ | .readLong _ | .st11GetGeom _
  | .dtcGetGeom _ | .wrongDtcGetGeom _ | .wrongDtcSetGeom _ | .wrongSt11GetGeom _ | .wrongSt11SetGeom _
  | .unknown _ _ | .dataWrite _ | .dataRead | .resetWrite _ | .statusRead | .selectWrite _ | .switchRead
  | .maskWrite _ | .maskRead => none

/-- The commands with a `Done` handler. -/
def hasDone : Instr → Bool
  | .recalibrate _ | .formatTrack _ | .formatBadTrack _ | .formatDrive _ => true
  | .testReady _ | .sense _ | .verify _ | .read _ | .write _ | .seek _ | .specify _ | .readBuffer _ | .writeBuffer _
  | .ramDiag _ | .driveDiag _ | .ctrlDiag _ | .readLong _ | .writeLong _ | .st11GetGeom _ | .st11SetGeom _
  | .dtcSetGeom _ | .dtcGetGeom _ | .wrongDtcGetGeom _ | .wrongDtcSetGeom _ | .wrongSt11GetGeom _
  | .wrongSt11SetGeom _ | .unknown _ _ | .dataWrite _ | .dataRead | .resetWrite _ | .statusRead | .selectWrite _
  | .switchRead | .maskWrite _ | .maskRead => false

/-- The commands that begin with `SetupAddress(IllegalAddress)`: all that decode an address but SEEK. -/
def setsUpAddress : Instr → Bool
  | .formatTrack _ | .formatBadTrack _ | .formatDrive _ | .verify _ | .read _ | .readLong _ | .write _
  | .writeLong _ => true
  | .testReady _ | .recalibrate _ | .sense _ | .seek _ | .specify _ | .readBuffer _ | .writeBuffer _ | .ramDiag _
  | .driveDiag _ | .ctrlDiag _ | .st11GetGeom _ | .st11SetGeom _ | .dtcSetGeom _ | .dtcGetGeom _
  | .wrongDtcGetGeom _ | .wrongDtcSetGeom _ | .wrongSt11GetGeom _ | .wrongSt11SetGeom _ | .unknown _ _
  | .dataWrite _ | .dataRead | .resetWrite _ | .statusRead | .selectWrite _ | .switchRead | .maskWrite _
  | .maskRead => false

/-- The commands that move sectors between the host and an image. -/
def movesSectors : Instr → Bool
  | .read _ | .readLong _ | .write _ | .writeLong _ => true
  | .testReady _ | .recalibrate _ | .sense _ | .formatDrive _ | .verify _ | .formatTrack _ | .formatBadTrack _
  | .seek _ | .specify _ | .readBuffer _ | .writeBuffer _ | .ramDiag _ | .driveDiag _ | .ctrlDiag _ | .st11GetGeom _
  | .st11SetGeom _ | .dtcSetGeom _ | .dtcGetGeom _ | .wrongDtcGetGeom _ | .wrongDtcSetGeom _ | .wrongSt11GetGeom _
  | .wrongSt11SetGeom _ | .unknown _ _ | .dataWrite _ | .dataRead | .resetWrite _ | .statusRead | .selectWrite _
  | .switchRead | .maskWrite _ | .maskRead => false

/-- The commands that may change an image. -/
def storesToImage : Instr → Bool
  | .write _ | .writeLong _ | .formatTrack _ | .formatBadTrack _ | .formatDrive _ => true
  | .testReady _ | .recalibrate _ | .sense _ | .verify _ | .read _ | .readLong _ | .seek _ | .specify _
  | .readBuffer _ | .writeBuffer _ | .ramDiag _ | .driveDiag _ | .ctrlDiag _ | .st11GetGeom _ | .st11SetGeom _
  | .dtcSetGeom _ | .dtcGetGeom _ | .wrongDtcGetGeom _ | .wrongDtcSetGeom _ | .wrongSt11GetGeom _
  | .wrongSt11SetGeom _ | .unknown _ _ | .dataWrite _ | .dataRead | .resetWrite _ | .statusRead | .selectWrite _
  | .switchRead | .maskWrite _ | .maskRead => false

/-- The codes some rule raises (60_exceptions.md R302). -/
def raisedErrors : List ErrorName := [.notReady, .illegalAddress, .seekError, .noRecovery, .badCommand]

/-! ## The invariant -/

/-- The command in the command buffer. -/
def State.current (s : State) : Instr := decodeCommand s.params s.command

/-- The status projection (41_state_machine.md R188). -/
def State.statusShown (s : State) : Prop :=
  match s.phase with
  | .idle => s.status = 0x00
  | .receiveCommand => s.status = 0x0D
  | .startCommand | .receivedData | .sentData | .done => s.status = 0x08
  | .receiveData => s.status = if s.xferDma then (if s.stall = 0 then 0x18 else 0x1F) else 0x09
  | .sendData => s.status = if s.xferDma then (if s.stall = 0 then 0x1A else 0x1F) else 0x0B
  | .completionByte => s.status = 0x0F ∨ s.status = 0x2F

/-- No step is pending where the block waits for the host (10_state.md R62, 43_transfer_engine.md R221, R222,
60_exceptions.md R322); one is where the block waits for the scheduler (41_state_machine.md R178), unless the instance
has ended or left the image's contract. -/
def State.pendingShown (s : State) : Prop :=
  match s.phase with
  | .receiveCommand => True
  | .idle | .completionByte => s.pending = none
  | .startCommand | .receivedData | .sentData | .done =>
    s.attached = true → s.fault = false → s.pending.isSome = true
  | .receiveData | .sendData =>
    if s.xferDma then s.attached = true → s.fault = false → s.pending.isSome = true else s.pending = none

/-- The command running has the handler its phase calls for, and the data phase has its length (41_state_machine.md
R185, 30_encoding.md R124). -/
def State.phaseServed (s : State) : Prop :=
  match s.phase with
  | .idle | .receiveCommand | .startCommand | .completionByte => True
  | .sendData | .sentData => sendLength s.current = some s.bufCount
  | .receiveData | .receivedData => receiveLength s.current = some s.bufCount
  | .done => hasDone s.current = true

/-- Whether the block is in a data phase or has just ended one. -/
def Phase.moving : Phase → Bool
  | .sendData | .sentData | .receiveData | .receivedData => true
  | .idle | .receiveCommand | .startCommand | .completionByte | .done => false

/-- The invariant of the reachable states. It says nothing of `turns`, `dma`, `busOut` and `draws`. -/
structure State.Inv (s : State) : Prop where
  /-- 00_scope.md R10 -/
  config : s.configOk = true
  /-- 10_state.md R63 -/
  commandPos : s.commandPos ≤ 6 ∧ (s.phase = .receiveCommand → s.commandPos < 6)
  /-- 10_state.md R40 -/
  bufRange : s.bufPos ≤ s.bufCount ∧ s.bufCount ≤ s.params.bufSize
  /-- 10_state.md R39: a data phase in progress has a byte to move -/
  bufLeft : (s.phase = .sendData ∨ s.phase = .receiveData) → s.bufPos < s.bufCount
  /-- 41_state_machine.md R188 -/
  status : s.statusShown
  /-- 10_state.md R62, 41_state_machine.md R178 -/
  pending : s.pendingShown
  /-- 20_memory.md R84 -/
  ended : s.attached = false → s.pending = none
  /-- 41_state_machine.md R185 -/
  served : s.phaseServed
  /-- 10_state.md R50 -/
  stall : s.stall ≤ s.params.retryBudget ∧
    ((s.phase = .sendData ∨ s.phase = .receiveData) → s.xferDma = true → s.stall < s.params.retryBudget)
  /-- 30_encoding.md R105 -/
  completion : s.completionByte = s.driveSelect.zeroExtend 8 <<< 5 ∨
    s.completionByte = (s.driveSelect.zeroExtend 8 <<< 5) ||| 0x02
  /-- 60_exceptions.md R302 -/
  errorCode : s.errorCode = 0 ∨ ∃ e ∈ raisedErrors, s.errorCode = s.params.errCodes.of e
  /-- 41_state_machine.md R172: the drive of the command running -/
  drive : (s.phase.moving = true ∨ s.phase = .done ∨ s.phase = .completionByte) →
    s.driveSelect = s.command[1].extractLsb' 5 3
  /-- 42_chs_translator.md R201, R203, R206: the sector being moved lies in the configured disk of a present drive -/
  target : s.phase.moving = true → movesSectors s.current = true →
    ∃ dr, s.hasDrive s.d dr ∧ s.addr.cyl.toNat < dr.cfg.cylinders.toNat ∧ s.addr.lba.toNat < dr.cfg.blocks
  /-- 10_state.md R57, 30_encoding.md R117 -/
  switches : s.switches = switchByte s.params (s.drives.map (fun d => (d.present, d.phys)))
  /-- the canonical form of the data buffer, within BUF_SIZE -/
  buffer : Memory.wf s.buffer ∧ Memory.below s.buffer s.params.bufSize
  /-- the canonical form of each image, within its blocks (20_memory.md R80) -/
  images : ∀ d ∈ s.drives, Memory.wf d.image ∧ Memory.below d.image (d.phys.blocks * 512)

/-- No configured geometry has more blocks than the image behind it (70_reset_and_hazards.md R340). -/
def State.fits (s : State) : Prop := ∀ d ∈ s.drives, d.cfg.blocks ≤ d.phys.blocks

/-- A safe run's state: the image collaborator's contract has been kept (20_memory.md R83, 60_exceptions.md R303). -/
def State.safe (s : State) : Prop := s.fault = false

end Sys2Proof.Machine
end

