-- ==== Sys2Proof/Certificates/Slice0/Obligations.lean ====
section
/-! DEFINITION. The statements for the provers. Each docstring names the rules of spec/ it formalises. States are given
whole, by what changes in them, wherever an instruction stores nothing to an image: that is the frame too. -/

open Sys2Proof Sys2Proof.Machine

/-! ## Encoding -/

/-- 30_encoding.md R100, R101, R108, R109: what the encoder writes for a well-formed instruction the decoder reads back,
every field at every value, for every OPCODE map without a repeated opcode, every FAMILY and every IO_BASE that is a
multiple of 4 (log 17, log 27). -/
def Obligations.DecodeEncodeRoundTrip : Prop :=
  ∀ (p : Params) (i : Instr), p.opcodes.distinct = true → p.ioBase.extractLsb' 0 2 = 0 → WellFormed p i = true →
    decode p (encode p i) = .ok i

/-- 30_encoding.md R101, R109, R110: every six bytes decode to a well-formed instruction, and encoding it gives the six
bytes back; no bit is dropped. -/
def Obligations.EverySixBytesDecode : Prop :=
  ∀ (p : Params) (b0 b1 b2 b3 b4 b5 : Byte), ∃ i : Instr,
    decode p (.cdb [b0, b1, b2, b3, b4, b5]) = .ok i ∧ WellFormed p i = true ∧
    encode p i = .cdb [b0, b1, b2, b3, b4, b5]

/-- 30_encoding.md R100 and 20_memory.md R71, R72: an 8-bit access is decoded by address bits 1:0 and the direction
alone; an access of another width is refused. -/
def Obligations.BusDecodeByOffsetAndDirection : Prop :=
  ∀ (a : Access),
    (a.width ≠ 8 → decodeAccess a = .error .accessWidth) ∧
    (a.width = 8 → a.write = true →
      (a.addr.toNat % 4 = 0 → decodeAccess a = .ok (.dataWrite a.data)) ∧
      (a.addr.toNat % 4 = 1 → decodeAccess a = .ok (.resetWrite a.data)) ∧
      (a.addr.toNat % 4 = 2 → decodeAccess a = .ok (.selectWrite a.data)) ∧
      (a.addr.toNat % 4 = 3 → decodeAccess a = .ok (.maskWrite a.data))) ∧
    (a.width = 8 → a.write = false →
      (a.addr.toNat % 4 = 0 → decodeAccess a = .ok .dataRead) ∧
      (a.addr.toNat % 4 = 1 → decodeAccess a = .ok .statusRead) ∧
      (a.addr.toNat % 4 = 2 → decodeAccess a = .ok .switchRead) ∧
      (a.addr.toNat % 4 = 3 → decodeAccess a = .ok .maskRead))

/-- 30_encoding.md R101, R108; 95_test_vectors.md V20, S8 (its SEEK to cylinder 400), V41 and the unknown and the
DTC_GET_GEOM row of section 2.3: these command blocks decode to what they stand for. The opcodes but READ's are general
knowledge by the spec's own mark, PRESUMED in log 4. -/
def Obligations.SampleWordsDecode : Prop :=
  let p := Params.ofFamily .xebec
  decode p (.cdb [0x08, 0x23, 0xC5, 0x12, 0x01, 0x00]) =
      .ok (.read { drive := 1, head := 3, sector := 5, cyl := 786, count := 1, control := 0 }) ∧
  decode p (.cdb [0x0B, 0x00, 0x40, 0x90, 0x00, 0x00]) =
      .ok (.seek { drive := 0, head := 0, sector := 0, cyl := 400, count := 0, control := 0 }) ∧
  decode p (.cdb [0x05, 0x03, 0x4F, 0x31, 0x03, 0x00]) =
      .ok (.verify { drive := 0, head := 3, sector := 15, cyl := 305, count := 3, control := 0 }) ∧
  decode p (.cdb [0xFF, 0x00, 0x00, 0x00, 0x00, 0x00]) =
      .ok (.wrongDtcGetGeom { drive := 0, head := 0, sector := 0, cyl := 0, count := 0, control := 0 }) ∧
  decode p (.cdb [0x55, 0x00, 0x00, 0x00, 0x00, 0x00]) =
      .ok (.unknown 0x55 { drive := 0, head := 0, sector := 0, cyl := 0, count := 0, control := 0 })

/-! ## The step of the machine -/

/-- 20_memory.md R91: when the host's turn comes and its access decodes to `i`, the step is `i` at that state, the turn
taken. -/
def Obligations.HostTurnRunsTheAccess : Prop :=
  ∀ (s : State) (a : Access) (rest : List Turn) (i : Instr),
    s.fault = false → s.configOk = true → s.attached = true → s.turns = .host a :: rest →
    decodeAccess a = .ok i → step s = exec i { s with turns := rest }

/-- 41_state_machine.md R170, R173: when the scheduler's turn comes and a step is pending, it stops being pending and
the command in the command buffer runs, with the DMA answers the turn brings; with none pending no step runs. -/
def Obligations.SchedulerTurnRunsTheCommand : Prop :=
  ∀ (s : State) (dma : DmaAnswer) (rest : List Turn),
    s.fault = false → s.configOk = true → s.attached = true → s.turns = .fire dma :: rest →
    (s.pending.isSome = true →
      step s = exec (decodeCommand s.params s.command) { s with turns := rest, dma := dma, pending := none }) ∧
    (s.pending = none → step s = .next { s with turns := rest })

/-- 60_exceptions.md R322 and log 7 (a DESIGN CHOICE of the model): with no turn left and nothing pending the state
stays; with a step pending it fires, its DMA answers free. -/
def Obligations.SilentHostLetsTheSchedulerRun : Prop :=
  ∀ (s : State), s.fault = false → s.configOk = true → s.attached = true → s.turns = [] →
    (s.pending = none → step s = .next s) ∧
    (s.pending.isSome = true → ∃ dma : DmaAnswer,
      step s = exec (decodeCommand s.params s.command) { s with dma := dma, pending := none, draws := s.draws + 1 })

/-- 20_memory.md R72, R83, R84; 60_exceptions.md R303; 00_scope.md R10: where the machine stops, and how; and that it
stops nowhere else. Host accesses are always enabled (40_register_interface.md R140) and no protocol violation stops the
block (41_state_machine.md R187): from a state that meets the invariant every 8-bit access, fire, detach and silence of
an instance without the mark has a next state, and so have an attach and silence after detach. The names, the turns and
what the stops of an ended or a second instance are, are the model's (log 11, 16, 17, 21). -/
def Obligations.StopsAreNamed : Prop :=
  (∀ s : State, s.fault = true → step s = .fault .imageContract) ∧
  (∀ s : State, s.fault = false → s.configOk = false → step s = .refused .configuration) ∧
  (∀ (s : State) (a : Access) (rest : List Turn), s.fault = false → s.configOk = true → s.attached = true →
    s.turns = .host a :: rest → a.width ≠ 8 → step s = .refused .accessWidth) ∧
  (∀ (s : State) (a : Access) (rest : List Turn), s.fault = false → s.configOk = true → s.attached = false →
    s.turns = .host a :: rest → step s = .refused .detached) ∧
  (∀ (s : State) (u : Turn) (rest : List Turn), s.fault = false → s.configOk = true → s.attached = false →
    s.turns = u :: rest → (∃ dma, u = .fire dma) ∨ u = .detach → step s = .refused .detached) ∧
  (∀ (s : State) (rest : List Turn), s.fault = false → s.configOk = true → s.attached = true →
    s.turns = .attach :: rest → step s = .refused .attachedTwice) ∧
  (∀ s : State, s.Inv → s.fault = false → s.attached = true →
    (s.turns = [] ∨ (∃ a rest, s.turns = .host a :: rest ∧ a.width = 8) ∨ (∃ dma rest, s.turns = .fire dma :: rest) ∨
      ∃ rest, s.turns = .detach :: rest) →
    ∃ t, step s = .next t) ∧
  (∀ s : State, s.fault = false → s.configOk = true → s.attached = false →
    (s.turns = [] ∨ ∃ rest, s.turns = .attach :: rest) → ∃ t, step s = .next t)

/-- 20_memory.md R84, 70_reset_and_hazards.md R332: detach drops the pending step and leaves every image as it is; a
later attach gives the values of `AttachValues` again, over the images kept, with some bytes in the command and data
buffers. That the parameters and the drives are those of before, and that both are turns, is the model's choice
(log 21), and so is that the closing of the images (`imageClose`) shows in nothing but the end of the instance
(log 28). -/
def Obligations.DetachDropsThePendingStep : Prop :=
  (∀ (s : State) (rest : List Turn), s.fault = false → s.configOk = true → s.attached = true →
    s.turns = .detach :: rest →
    step s = .next { s with turns := rest, attached := false, pending := none }) ∧
  ∀ (s : State) (rest : List Turn), s.fault = false → s.configOk = true → s.attached = false →
    s.turns = .attach :: rest →
    ∃ (cmd : Vector Byte 6) (buf : Memory), Memory.wf buf ∧ Memory.below buf s.params.bufSize ∧
      step s = .next
        { State.attach s.params (s.drives.map (fun d => { present := d.present, phys := d.phys, image := d.image }))
            cmd buf with
          turns := rest, draws := s.draws + 1 }

/-- 10_state.md R60, 70_reset_and_hazards.md R330: every value after attach, whatever `command` and `buffer` hold; and
30_encoding.md R117: the jumper byte, drives 0 and 1 each contributing their shifted code, by the first row of the table
with their physical geometry, or the sentinel; an absent drive and drives 2 and up contribute nothing. The default table,
shifts and sentinel are general knowledge by the spec's own mark, PRESUMED in log 4. -/
def Obligations.AttachValues : Prop :=
  (∀ (p : Params) (l : List Launch) (cmd : Vector Byte 6) (buf : Memory),
    let t := State.attach p l cmd buf
    t.phase = .idle ∧ t.status = 0x00 ∧ t.command = cmd ∧ t.commandPos = 0 ∧ t.buffer = buf ∧ t.bufPos = 0 ∧
    t.bufCount = 0 ∧ t.errorCode = 0x00 ∧ t.completionByte = 0x00 ∧ t.driveSelect = 0 ∧ t.irqDmaMask = 0x00 ∧
    t.pending = none ∧ t.addr = { cyl := 0, head := 0, sector := 0, count := 0, lba := 0 } ∧ t.xferDma = false ∧
    t.stall = 0 ∧ t.log = [] ∧ t.fault = false ∧ t.drives.length = l.length ∧
    (∀ (d : Nat) (x : Launch), l[d]? = some x → ∃ dr, t.drives[d]? = some dr ∧ dr.present = x.present ∧
      dr.phys = x.phys ∧ dr.cfg = x.phys ∧ dr.currentCylinder = 0 ∧ dr.image = x.image) ∧
    t.switches = switchByte p (l.map (fun x => (x.present, x.phys))) ∧
    ∃ b0 b1 : Byte, t.switches = b0 ||| b1 ∧
      ∀ (d shift : Nat) (b : Byte),
        d = 0 ∧ shift = p.switchShift0 ∧ b = b0 ∨ d = 1 ∧ shift = p.switchShift1 ∧ b = b1 →
        ((∀ x, l[d]? = some x → x.present = false) → b = 0) ∧
        ∀ x, l[d]? = some x → x.present = true →
          (∀ pre r post, p.switchTable = pre ++ r :: post → r.geometry = x.phys →
            (∀ q ∈ pre, q.geometry ≠ x.phys) → b = (r.code.zeroExtend 8 : Byte) <<< shift) ∧
          ((∀ r ∈ p.switchTable, r.geometry ≠ x.phys) → b = (p.switchUnsupported.zeroExtend 8 : Byte) <<< shift)) ∧
  ∀ fam : Family,
    (Params.ofFamily fam).switchTable =
      [⟨⟨306, 4, 17⟩, 0⟩, ⟨⟨612, 4, 17⟩, 1⟩, ⟨⟨615, 4, 17⟩, 2⟩, ⟨⟨306, 8, 17⟩, 3⟩] ∧
    (Params.ofFamily fam).switchShift0 = 2 ∧ (Params.ofFamily fam).switchShift1 = 0 ∧
    (Params.ofFamily fam).switchUnsupported = 0

/-! ## The port accesses -/

/-- 40_register_interface.md R141: a command byte is stored; the sixth starts the command. -/
def Obligations.DataWriteStoresCommandByte : Prop :=
  ∀ (v : Byte) (s : State) (h : s.commandPos < 6), s.phase = .receiveCommand →
    exec (.dataWrite v) s = .next
      (if s.commandPos = 5 then
        { s with
          command := s.command.set s.commandPos v h, commandPos := 6, status := 0x08, phase := .startCommand
          pending := some .cmd }
      else { s with command := s.command.set s.commandPos v h, commandPos := s.commandPos + 1 })

/-- 40_register_interface.md R142 (and R155: DMA or not): a data byte is stored; the last ends the phase. -/
def Obligations.DataWriteStoresDataByte : Prop :=
  ∀ (v : Byte) (s : State), s.phase = .receiveData → s.bufPos < s.params.bufSize →
    ∃ t : State, exec (.dataWrite v) s = .next t ∧
      t = (if s.bufPos + 1 = s.bufCount then
          { s with
            buffer := t.buffer, bufPos := s.bufPos + 1, status := 0x08, phase := .receivedData
            pending := some .step }
        else { s with buffer := t.buffer, bufPos := s.bufPos + 1 }) ∧
      ∀ a, Memory.read t.buffer a = if a = s.bufPos then v else Memory.read s.buffer a

/-- 40_register_interface.md R143, R147 (R144's IRQ clear is vacuous where 10_state.md R62 holds): a port-0 access in any
other state is logged and changes nothing; the read returns 0xFF. -/
def Obligations.DataAccessElsewhereIsLogged : Prop :=
  (∀ (v : Byte) (s : State), s.phase ≠ .receiveCommand → s.phase ≠ .receiveData →
    exec (.dataWrite v) s = .next { s with log := s.log ++ [.violation .writeData] }) ∧
  (∀ (s : State), s.phase ≠ .completionByte → s.phase ≠ .sendData → s.status &&& 0x20 = 0 →
    exec .dataRead s = .next { s with busOut := 0xFF, log := s.log ++ [.violation .readData] })

/-- 40_register_interface.md R145, 60_exceptions.md R307: the completion byte is read and the block is Idle. -/
def Obligations.DataReadReturnsCompletionByte : Prop :=
  ∀ (s : State), s.phase = .completionByte →
    exec .dataRead s = .next { s with busOut := s.completionByte, status := 0x00, phase := .idle }

/-- 40_register_interface.md R146 (and R155: DMA or not): the next buffer byte is read, IRQ cleared; the last ends the
phase. -/
def Obligations.DataReadReturnsBufferByte : Prop :=
  ∀ (s : State), s.phase = .sendData → s.bufPos < s.params.bufSize →
    exec .dataRead s = .next
      (if s.bufPos + 1 = s.bufCount then
        { s with
          busOut := Memory.read s.buffer s.bufPos, bufPos := s.bufPos + 1, status := 0x08, phase := .sentData
          pending := some .step }
      else
        { s with
          busOut := Memory.read s.buffer s.bufPos, bufPos := s.bufPos + 1, status := s.status &&& 0xDF })

/-- 40_register_interface.md R148, 10_state.md R61: controller reset, whatever the value. -/
def Obligations.ResetWriteResetsTheController : Prop :=
  ∀ (v : Byte) (s : State),
    exec (.resetWrite v) s = .next { s with status := 0x00, pending := none, phase := .idle, stall := 0 }

/-- 40_register_interface.md R149, R151, R152, R153: the status and the jumper byte are read and nothing changes; the mask
is written whole; reading port 3 gives some byte and changes nothing (the byte is a free value: `draws` counts it,
log 10). -/
def Obligations.StatusSwitchAndMaskAccesses : Prop :=
  ∀ (v : Byte) (s : State),
    exec .statusRead s = .next { s with busOut := s.status } ∧
    exec .switchRead s = .next { s with busOut := s.switches } ∧
    exec (.maskWrite v) s = .next { s with irqDmaMask := v } ∧
    ∃ b : Byte, exec .maskRead s = .next { s with busOut := b, draws := s.draws + 1 }

/-- 40_register_interface.md R150: select pulse in every state, whatever the value; a pending step stays pending. -/
def Obligations.SelectPulseOpensTheCommandBlock : Prop :=
  ∀ (v : Byte) (s : State),
    exec (.selectWrite v) s = .next { s with status := 0x0D, commandPos := 0, phase := .receiveCommand }

/-- 40_register_interface.md R156: no port access consumes a pending step but a port-1 write. -/
def Obligations.PortAccessesKeepThePendingStep : Prop :=
  ∀ (i : Instr) (s t : State), i.fields? = none → (∀ v, i ≠ .resetWrite v) → exec i s = .next t →
    (t.pending = s.pending ∨
      (t.pending = some .cmd ∧ s.phase = .receiveCommand ∧ t.phase = .startCommand) ∨
      (t.pending = some .step ∧ (s.phase = .receiveData ∧ t.phase = .receivedData ∨
        s.phase = .sendData ∧ t.phase = .sentData)))

/-! ## The scheduled step -/

/-- 41_state_machine.md R171, R185, R179: a step that finds a state without work logs a violation and changes nothing
else; one whose command has no handler for the state does so after the prologue. -/
def Obligations.StepsWithoutWorkAreLogged : Prop :=
  ∀ (i : Instr) (f : Cdb) (s : State), i.fields? = some f →
    ((s.phase = .idle ∨ s.phase = .receiveCommand ∨ s.phase = .completionByte ∨
        ((s.phase = .sendData ∨ s.phase = .receiveData) ∧ s.xferDma = false)) →
      exec i s = .next { s with log := s.log ++ [.violation .stepNoHandler] }) ∧
    ((s.phase = .sentData ∧ sendLength i = none ∨ s.phase = .receivedData ∧ receiveLength i = none ∨
        s.phase = .done ∧ hasDone i = false) →
      exec i s = .next { s.begun f with log := s.log ++ [.violation .stepNoHandler] })

/-- 43_transfer_engine.md R224, 20_memory.md R86: a DMA send step whose byte is taken, of every command. -/
def Obligations.DmaSendStepMovesOneByte : Prop :=
  ∀ (i : Instr) (f : Cdb) (s : State), i.fields? = some f → s.phase = .sendData → s.xferDma = true →
    s.bufPos < s.params.bufSize → s.dma.write = .ack →
    exec i s = .next
      { s.begun f with
        bufPos := s.bufPos + 1
        stall := 0
        phase := if s.bufPos + 1 = s.bufCount then .sentData else .sendData
        status := if s.bufPos + 1 = s.bufCount then 0x08 else 0x1A
        pending := if s.bufPos + 1 = s.bufCount then some .step else some .dma
        log := s.log ++ [.dmaOut s.params.dmaChannel (Memory.read s.buffer s.bufPos)] }

/-- 43_transfer_engine.md R225, 20_memory.md R85: a DMA receive step that gets a byte, of every command. -/
def Obligations.DmaReceiveStepMovesOneByte : Prop :=
  ∀ (i : Instr) (f : Cdb) (s : State) (b : Byte), i.fields? = some f → s.phase = .receiveData → s.xferDma = true →
    s.bufPos < s.params.bufSize → s.dma.read = .byte b →
    ∃ t : State, exec i s = .next t ∧
      t =
        { s.begun f with
          buffer := t.buffer
          bufPos := s.bufPos + 1
          stall := 0
          phase := if s.bufPos + 1 = s.bufCount then .receivedData else .receiveData
          status := if s.bufPos + 1 = s.bufCount then 0x08 else 0x18
          pending := if s.bufPos + 1 = s.bufCount then some .step else some .dma
          log := s.log ++ [.dmaIn s.params.dmaChannel b] } ∧
      ∀ a, Memory.read t.buffer a = if a = s.bufPos then b else Memory.read s.buffer a

/-- 43_transfer_engine.md R226, R227, R229, 20_memory.md R87: a NoData answer, in either direction: one more stall with
its status, or, the budget spent, NoRecovery; no byte moves and no image is written. -/
def Obligations.DmaStallCountsThenFails : Prop :=
  ∀ (i : Instr) (f : Cdb) (s : State), i.fields? = some f → s.xferDma = true →
    (s.phase = .sendData ∧ s.dma.write = .noData ∧ s.bufPos < s.params.bufSize ∨
      s.phase = .receiveData ∧ s.dma.read = .noData) →
    exec i s = .next
      (if s.stall + 1 < s.params.retryBudget then
        { s.begun f with
          stall := s.stall + 1, status := s.status ||| 0x0F, pending := some .stall
          log := s.log ++ [.dmaNoData s.params.dmaChannel] }
      else
        State.failed .noRecovery
          { s.begun f with stall := s.stall + 1, log := s.log ++ [.dmaNoData s.params.dmaChannel] })

/-- 43_transfer_engine.md R226, R227, R228; 70_reset_and_hazards.md R343: a DMA phase that gets `DMA_RETRY_BUDGET`
consecutive NoData answers ends in exactly so many steps with NoRecovery, and no image has changed. That none of them
finds the phase over is what the log says: every one asked the channel and got NoData, and only then came the interrupt
of the completion, if IRQ_ENA is set (60_exceptions.md R312). -/
def Obligations.StalledTransferEndsWithinTheBudget : Prop :=
  ∀ (s : State) (rest : List Turn), s.Inv → s.fault = false → s.attached = true →
    (s.phase = .receiveData ∨ s.phase = .sendData) → s.xferDma = true → s.stall = 0 →
    s.turns = List.replicate s.params.retryBudget (.fire { read := .noData, write := .noData }) ++ rest →
    ∃ t : State, runSteps s.params.retryBudget s = .next t ∧ t.phase = .completionByte ∧
      t.errorCode = s.params.errCodes.of .noRecovery ∧
      t.completionByte = ((s.driveSelect.zeroExtend 8 <<< 5) ||| 0x02) ∧ t.pending = none ∧ t.turns = rest ∧
      t.drives = s.drives ∧ t.buffer = s.buffer ∧
      t.log = s.log ++ List.replicate s.params.retryBudget (.dmaNoData s.params.dmaChannel) ++
        if s.irqDmaMask.getLsbD 1 then [.irqRaised s.params.irqLine] else []

/-- 43_transfer_engine.md R224, R231: a DMA send phase whose every byte is taken moves exactly `bufCount` bytes, in
order, one a step, and ends in SentData. -/
def Obligations.DmaSendPhaseMovesTheWholeBlock : Prop :=
  ∀ (s : State) (rest : List Turn), s.Inv → s.fault = false → s.attached = true → s.phase = .sendData →
    s.xferDma = true → s.bufPos = 0 →
    s.turns = List.replicate s.bufCount (.fire { read := .noData, write := .ack }) ++ rest →
    ∃ t : State, runSteps s.bufCount s = .next t ∧ t.phase = .sentData ∧ t.status = 0x08 ∧
      t.pending = some .step ∧ t.turns = rest ∧ t.drives = s.drives ∧
      t.log = s.log ++ (List.range s.bufCount).map (fun k => .dmaOut s.params.dmaChannel (Memory.read s.buffer k))

/-! ## Errors common to the commands -/

/-- 44_commands.md R240, 10_state.md R51: every command that addresses a drive ends with NotReady where none is present
in the slot or there is no slot (TEST_READY: `TestReadyReportsPresence`). -/
def Obligations.AbsentDriveIsNotReady : Prop :=
  ∀ (i : Instr) (f : Cdb) (s : State), i.fields? = some f →
    (setsUpAddress i = true ∨ i = .recalibrate f ∨ i = .seek f) → s.phase = .startCommand →
    s.lacksDrive f.drive.toNat →
    exec i s = .next (State.failed .notReady (s.begun f))

/-- 44_commands.md R241, R260; 42_chs_translator.md R200, R201: a cylinder out of range clamps the drive's cylinder;
SEEK ends with SeekError, every other command with IllegalAddress. -/
def Obligations.CylinderOutOfRangeClampsAndFails : Prop :=
  ∀ (i : Instr) (f : Cdb) (s : State) (dr : Drive), i.fields? = some f →
    (setsUpAddress i = true ∨ i = .seek f) → s.phase = .startCommand → s.hasDrive f.drive.toNat dr →
    dr.cfg.cylinders.toNat ≤ (s.addressed f).addr.cyl.toNat →
    exec i s = .next
      (State.failed (if i = .seek f then .seekError else .illegalAddress)
        (((s.begun f).addressed f).seeked f.drive.toNat (BitVec.ofNat 16 (dr.cfg.cylinders.toNat - 1))))

/-- 42_chs_translator.md R203, 44_commands.md R247, R249, R251, R252, R254, R256, R258: a head or a sector out of range,
or a track without sectors, ends with IllegalAddress, the drive already at the addressed cylinder, no data moved. -/
def Obligations.HeadOrSectorOutOfRangeFails : Prop :=
  ∀ (i : Instr) (f : Cdb) (s : State) (dr : Drive), i.fields? = some f → setsUpAddress i = true →
    s.phase = .startCommand → s.hasDrive f.drive.toNat dr →
    (s.addressed f).addr.cyl.toNat < dr.cfg.cylinders.toNat →
    (dr.cfg.heads.toNat ≤ f.head.toNat ∨ dr.cfg.spt.toNat = 0 ∨
      ((movesSectors i = true ∨ i = .verify f) ∧ dr.cfg.spt.toNat ≤ (s.addressed f).addr.sector.toNat)) →
    exec i s = .next
      (State.failed .illegalAddress
        (((s.begun f).addressed f).seeked f.drive.toNat (s.addressed f).addr.cyl))

/-- 20_memory.md R83; 44_commands.md R253, R255: READ and READ_LONG of a block past the image, at once or as their next
sector, WRITE and WRITE_LONG into one, and a FORMAT whose extent runs past it, set the mark and do nothing more; what the
handler did before the access stays (log 11). -/
def Obligations.AccessPastTheImageSetsTheMark : Prop :=
  (∀ (i : Instr) (f : Cdb) (s : State) (dr : Drive), i = .read f ∨ i = .readLong f → s.phase = .startCommand →
    s.hasDrive f.drive.toNat dr →
    let a := (s.addressed f).addr
    let lba := dr.cfg.lba a.cyl.toNat a.head.toNat a.sector.toNat
    a.cyl.toNat < dr.cfg.cylinders.toNat → a.head.toNat < dr.cfg.heads.toNat → a.sector.toNat < dr.cfg.spt.toNat →
    dr.phys.blocks ≤ lba →
    exec i s = .next
      { ((s.begun f).addressed f).seeked f.drive.toNat a.cyl with
        addr := { a with lba := BitVec.ofNat 32 lba }, fault := true }) ∧
  (∀ (i : Instr) (f : Cdb) (s : State) (dr : Drive), i = .read f ∨ i = .readLong f → s.phase = .sentData →
    s.hasDrive f.drive.toNat dr →
    let a := advance dr.cfg { s.addr with count := s.addr.count - 1 }
    let lba := dr.cfg.lba a.cyl.toNat a.head.toNat a.sector.toNat
    s.addr.count ≠ 1 → a.head.toNat < dr.cfg.heads.toNat → a.sector.toNat < dr.cfg.spt.toNat →
    a.cyl.toNat < dr.cfg.cylinders.toNat → dr.phys.blocks ≤ lba →
    exec i s = .next
      { (s.begun f).seeked f.drive.toNat a.cyl with
        addr := { a with lba := BitVec.ofNat 32 lba }, fault := true }) ∧
  (∀ (i : Instr) (f : Cdb) (s : State) (dr : Drive), i = .write f ∨ i = .writeLong f → s.phase = .receivedData →
    s.hasDrive f.drive.toNat dr → dr.phys.blocks ≤ s.addr.lba.toNat →
    exec i s = .next { s.begun f with fault := true }) ∧
  (∀ (i : Instr) (f : Cdb) (s : State) (dr : Drive),
    i = .formatTrack f ∨ i = .formatBadTrack f ∨ i = .formatDrive f → s.phase = .startCommand →
    s.hasDrive f.drive.toNat dr →
    let a := (s.addressed f).addr
    let lba := dr.cfg.lba a.cyl.toNat a.head.toNat 0
    let n := if i = .formatDrive f then dr.cfg.blocks - lba else dr.cfg.spt.toNat
    a.cyl.toNat < dr.cfg.cylinders.toNat → a.head.toNat < dr.cfg.heads.toNat → 0 < dr.cfg.spt.toNat →
    dr.phys.blocks < lba + n →
    exec i s = .next
      { ((s.begun f).addressed f).seeked f.drive.toNat a.cyl with
        addr := { a with lba := BitVec.ofNat 32 lba }, fault := true })

/-! ## The commands -/

/-- 44_commands.md R242. -/
def Obligations.TestReadyReportsPresence : Prop :=
  ∀ (f : Cdb) (s : State), s.phase = .startCommand →
    (∀ dr, s.hasDrive f.drive.toNat dr → exec (.testReady f) s = .next (State.completed (s.begun f))) ∧
    (s.lacksDrive f.drive.toNat → exec (.testReady f) s = .next (State.failed .notReady (s.begun f)))

/-- 44_commands.md R243, R244; 10_state.md R55: RECALIBRATE waits in Done, then sets the cylinder to the offset. -/
def Obligations.RecalibrateWaitsThenRewinds : Prop :=
  ∀ (f : Cdb) (s : State),
    (∀ dr, s.phase = .startCommand → s.hasDrive f.drive.toNat dr →
      exec (.recalibrate f) s = .next (State.waiting .recal (s.begun f))) ∧
    (s.phase = .done →
      exec (.recalibrate f) s = .next
        (State.completed ((s.begun f).seeked f.drive.toNat (BitVec.ofNat 16 s.params.cylOffset))))

/-- 44_commands.md R260, 42_chs_translator.md R201: SEEK to a cylinder in range moves the drive there. -/
def Obligations.SeekMovesTheDrive : Prop :=
  ∀ (f : Cdb) (s : State) (dr : Drive), s.phase = .startCommand → s.hasDrive f.drive.toNat dr →
    (s.addressed f).addr.cyl.toNat < dr.cfg.cylinders.toNat →
    exec (.seek f) s = .next
      (State.completed (((s.begun f).addressed f).seeked f.drive.toNat (s.addressed f).addr.cyl))

/-- 44_commands.md R251, R276, 42_chs_translator.md R206, R207: from a valid address VERIFY of any count (0 is 256)
completes without error, saturation included; the address is nextSector applied count times, the count is 0, and the
drive stands at the address's cylinder. `addr.lba` is the block of the last sector checked, `b`: 10_state.md R48, which
the model applies to VERIFY though R251's pseudocode stores no result (the model's choice, DEDUCED in log 14). -/
def Obligations.VerifyFromAValidAddressCompletes : Prop :=
  ∀ (f : Cdb) (s : State) (dr : Drive), s.phase = .startCommand → s.hasDrive f.drive.toNat dr →
    (s.addressed f).addr.cyl.toNat < dr.cfg.cylinders.toNat → f.head.toNat < dr.cfg.heads.toNat →
    (s.addressed f).addr.sector.toNat < dr.cfg.spt.toNat →
    let n := if f.count = 0 then 256 else f.count.toNat
    let a := (advance dr.cfg)^[n] (s.addressed f).addr
    let b := (advance dr.cfg)^[n - 1] (s.addressed f).addr
    let lba := dr.cfg.lba b.cyl.toNat b.head.toNat b.sector.toNat
    exec (.verify f) s = .next
      (State.completed
        { (s.begun f).seeked f.drive.toNat a.cyl with addr := { a with count := 0, lba := BitVec.ofNat 32 lba } })

/-- 42_chs_translator.md R206, R207, R208: nextSector, with the stores mod 2^w of 00_scope.md R12. -/
def Obligations.NextSectorRollsAndSaturates : Prop :=
  ∀ (d : Nat) (s : State) (dr : Drive), s.drives[d]? = some dr →
    let a := s.addr
    let sector := (a.sector.toNat + 1) % 256
    let head := (a.head.toNat + 1) % 256
    let cyl := (a.cyl.toNat + 1) % 65536
    ∃ b : Address, s.nextSector d = State.seeked d b.cyl { s with addr := b } ∧ b.count = a.count ∧ b.lba = a.lba ∧
      (sector < dr.cfg.spt.toNat → b.sector.toNat = sector ∧ b.head = a.head ∧ b.cyl = a.cyl) ∧
      (dr.cfg.spt.toNat ≤ sector → b.sector = 0 ∧
        (head < dr.cfg.heads.toNat → b.head.toNat = head ∧ b.cyl = a.cyl) ∧
        (dr.cfg.heads.toNat ≤ head → b.head = 0 ∧
          b.cyl.toNat = if cyl < dr.cfg.cylinders.toNat then cyl else dr.cfg.cylinders.toNat - 1))

/-- 95_test_vectors.md S3 (source §8), 42_chs_translator.md R206: nextSector applied heads*spt times from sector 0 of
head 0 yields the next cylinder, head 0, sector 0. -/
def Obligations.NextSectorWalksATrackCylinder : Prop :=
  ∀ (g : Geometry) (a : Address), 0 < g.heads.toNat → 0 < g.spt.toNat → a.head = 0 → a.sector = 0 →
    a.cyl.toNat + 1 < g.cylinders.toNat →
    (advance g)^[g.heads.toNat * g.spt.toNat] a = { a with cyl := a.cyl + 1 }

/-- 42_chs_translator.md R203, R206: inside the disk, nextSector is the next block address. -/
def Obligations.NextSectorIsTheNextBlock : Prop :=
  ∀ (g : Geometry) (a : Address), a.cyl.toNat < g.cylinders.toNat → a.head.toNat < g.heads.toNat →
    a.sector.toNat < g.spt.toNat → g.lba a.cyl.toNat a.head.toNat a.sector.toNat + 1 < g.blocks →
    g.lba (advance g a).cyl.toNat (advance g a).head.toNat (advance g a).sector.toNat =
      g.lba a.cyl.toNat a.head.toNat a.sector.toNat + 1

/-- 42_chs_translator.md R203, R205: when translate answers a block, and which; its only errors. -/
def Obligations.TranslateFormulaAndErrors : Prop :=
  ∀ (d : Nat) (c : BitVec 16) (h sct : Byte) (s : State),
    (s.lacksDrive d → s.translate d c h sct = .error .notReady) ∧
    (∀ dr, s.hasDrive d dr →
      (dr.currentCylinder ≠ c ∨ dr.cfg.heads.toNat ≤ h.toNat ∨ dr.cfg.spt.toNat ≤ sct.toNat →
        s.translate d c h sct = .error .illegalAddress) ∧
      (dr.currentCylinder = c → h.toNat < dr.cfg.heads.toNat → sct.toNat < dr.cfg.spt.toNat →
        s.translate d c h sct =
          .ok ((c.toNat * dr.cfg.heads.toNat + h.toNat) * dr.cfg.spt.toNat + sct.toNat)))

/-- 44_commands.md R245, R246; 30_encoding.md R113: SENSE fills bytes 0 to 3 of the buffer, the cylinder in the host's own
numbering modulo 1024, keeps the rest of it, and sends 4 bytes, with no drive check; then it completes, the stored error
cleared. -/
def Obligations.SenseReportsAndClearsTheError : Prop :=
  ∀ (f : Cdb) (s : State),
    (s.phase = .startCommand →
      let lcyl := (((s.addr.cyl.toNat : Int) - (s.params.cylOffset : Int)) % 1024).toNat
      ∃ t : State, exec (.sense f) s = .next t ∧ t = State.sending 4 { s.begun f with buffer := t.buffer } ∧
        Memory.read t.buffer 0 = s.errorCode ∧
        (Memory.read t.buffer 1).toNat = f.drive.toNat * 32 + s.addr.head.toNat % 32 ∧
        (Memory.read t.buffer 2).toNat = lcyl / 256 * 64 + s.addr.sector.toNat % 64 ∧
        (Memory.read t.buffer 3).toNat = lcyl % 256 ∧
        ∀ a, 4 ≤ a → Memory.read t.buffer a = Memory.read s.buffer a) ∧
    (s.phase = .sentData → exec (.sense f) s = .next (State.completed { s.begun f with errorCode := 0 }))

/-- 44_commands.md R247 to R250; 20_memory.md R82: in Done the FORMAT commands complete; in StartCommand they zero their
extent of the image (FORMAT_TRACK and FORMAT_BAD_TRACK the track, FORMAT_DRIVE from the track to the end of the
configured disk), change nothing else of any image or drive but the cylinder, and wait in Done. -/
def Obligations.FormatZeroesItsExtentThenCompletes : Prop :=
  (∀ (i : Instr) (f : Cdb) (s : State), i = .formatTrack f ∨ i = .formatBadTrack f ∨ i = .formatDrive f →
    s.phase = .done → exec i s = .next (State.completed (s.begun f))) ∧
  ∀ (i : Instr) (f : Cdb) (s : State) (dr : Drive),
    i = .formatTrack f ∨ i = .formatBadTrack f ∨ i = .formatDrive f → s.phase = .startCommand →
    s.hasDrive f.drive.toNat dr →
    let a := (s.addressed f).addr
    let lba := dr.cfg.lba a.cyl.toNat a.head.toNat 0
    let n := if i = .formatDrive f then dr.cfg.blocks - lba else dr.cfg.spt.toNat
    a.cyl.toNat < dr.cfg.cylinders.toNat → a.head.toNat < dr.cfg.heads.toNat → 0 < dr.cfg.spt.toNat →
    lba + n ≤ dr.phys.blocks →
    ∃ t : State, exec i s = .next t ∧
      t = State.waiting (.format n)
        { (s.begun f).addressed f with
          addr := { a with lba := BitVec.ofNat 32 lba }, drives := t.drives
          log := s.log ++ [.imageZeroed f.drive.toNat lba n] } ∧
      t.drives.map Drive.bare = (s.seeked f.drive.toNat a.cyl).drives.map Drive.bare ∧
      ∀ d k, State.imageByte d k t =
        if d = f.drive.toNat ∧ lba * 512 ≤ k ∧ k < (lba + n) * 512 then 0 else State.imageByte d k s

/-- 44_commands.md R252, R254; 30_encoding.md R116: READ and READ_LONG bring the addressed block (READ_LONG the four ECC
bytes behind it) into the buffer and send it. -/
def Obligations.ReadSendsTheAddressedBlock : Prop :=
  ∀ (i : Instr) (n : Nat) (f : Cdb) (s : State) (dr : Drive),
    i = .read f ∧ n = 512 ∨ i = .readLong f ∧ n = 516 → s.phase = .startCommand → s.hasDrive f.drive.toNat dr →
    let a := (s.addressed f).addr
    let lba := dr.cfg.lba a.cyl.toNat a.head.toNat a.sector.toNat
    a.cyl.toNat < dr.cfg.cylinders.toNat → a.head.toNat < dr.cfg.heads.toNat → a.sector.toNat < dr.cfg.spt.toNat →
    lba < dr.phys.blocks →
    ∃ t : State, exec i s = .next t ∧
      t = State.sending n
        { ((s.begun f).addressed f).seeked f.drive.toNat a.cyl with
          addr := { a with lba := BitVec.ofNat 32 lba }, buffer := t.buffer } ∧
      ∀ k, Memory.read t.buffer k =
        if k < 512 then State.imageByte f.drive.toNat (lba * 512 + k) s
        else if k < n then s.params.eccFill.toList.getD (k - 512) 0 else Memory.read s.buffer k

/-- 44_commands.md R253, R255, R276, R277: the last sector sent, READ and READ_LONG complete; with more sectors to go
they send the next one. -/
def Obligations.ReadCompletesOrSendsTheNextBlock : Prop :=
  (∀ (i : Instr) (f : Cdb) (s : State), i = .read f ∨ i = .readLong f → s.phase = .sentData → s.addr.count = 1 →
    exec i s = .next (State.completed { s.begun f with addr := { s.addr with count := 0 } })) ∧
  ∀ (i : Instr) (n : Nat) (f : Cdb) (s : State) (dr : Drive),
    i = .read f ∧ n = 512 ∨ i = .readLong f ∧ n = 516 → s.phase = .sentData → s.hasDrive f.drive.toNat dr →
    let a := advance dr.cfg { s.addr with count := s.addr.count - 1 }
    let lba := dr.cfg.lba a.cyl.toNat a.head.toNat a.sector.toNat
    s.addr.count ≠ 1 → a.head.toNat < dr.cfg.heads.toNat → a.sector.toNat < dr.cfg.spt.toNat →
    a.cyl.toNat < dr.cfg.cylinders.toNat → lba < dr.phys.blocks →
    ∃ t : State, exec i s = .next t ∧
      t = State.sending n
        { (s.begun f).seeked f.drive.toNat a.cyl with
          addr := { a with lba := BitVec.ofNat 32 lba }, buffer := t.buffer } ∧
      ∀ k, Memory.read t.buffer k =
        if k < 512 then State.imageByte f.drive.toNat (lba * 512 + k) s
        else if k < n then s.params.eccFill.toList.getD (k - 512) 0 else Memory.read s.buffer k

/-- 44_commands.md R256, R258: WRITE and WRITE_LONG to a valid address receive a sector. -/
def Obligations.WriteAsksForTheSector : Prop :=
  ∀ (i : Instr) (n : Nat) (f : Cdb) (s : State) (dr : Drive),
    i = .write f ∧ n = 512 ∨ i = .writeLong f ∧ n = 516 → s.phase = .startCommand → s.hasDrive f.drive.toNat dr →
    let a := (s.addressed f).addr
    a.cyl.toNat < dr.cfg.cylinders.toNat → a.head.toNat < dr.cfg.heads.toNat → a.sector.toNat < dr.cfg.spt.toNat →
    exec i s = .next
      (State.receiving n
        { ((s.begun f).addressed f).seeked f.drive.toNat a.cyl with
          addr := { a with lba := BitVec.ofNat 32 (dr.cfg.lba a.cyl.toNat a.head.toNat a.sector.toNat) } })

/-- 44_commands.md R257, R259, R277; 20_memory.md R75, R81: the received sector goes to block `addr.lba` of the drive's
image and nowhere else (WRITE_LONG's bytes 512 to 515 nowhere at all); the last one completes the command. -/
def Obligations.WriteStoresTheLastSector : Prop :=
  ∀ (i : Instr) (f : Cdb) (s : State) (dr : Drive), i = .write f ∨ i = .writeLong f → s.phase = .receivedData →
    s.hasDrive f.drive.toNat dr → s.addr.lba.toNat < dr.phys.blocks → s.addr.count = 1 →
    ∃ t : State, exec i s = .next t ∧
      t = State.completed
        { s.begun f with
          addr := { s.addr with count := 0 }, drives := t.drives
          log := s.log ++ [.imageWritten f.drive.toNat s.addr.lba.toNat] } ∧
      t.drives.map Drive.bare = s.drives.map Drive.bare ∧
      ∀ d k, State.imageByte d k t =
        if d = f.drive.toNat ∧ s.addr.lba.toNat * 512 ≤ k ∧ k < s.addr.lba.toNat * 512 + 512 then
          Memory.read s.buffer (k - s.addr.lba.toNat * 512)
        else State.imageByte d k s

/-- 44_commands.md R257, R259, R277: the same with more sectors to go: the next one is asked for. -/
def Obligations.WriteStoresTheSectorAndGoesOn : Prop :=
  ∀ (i : Instr) (n : Nat) (f : Cdb) (s : State) (dr : Drive),
    i = .write f ∧ n = 512 ∨ i = .writeLong f ∧ n = 516 → s.phase = .receivedData → s.hasDrive f.drive.toNat dr →
    let a := advance dr.cfg { s.addr with count := s.addr.count - 1 }
    s.addr.lba.toNat < dr.phys.blocks → s.addr.count ≠ 1 → a.head.toNat < dr.cfg.heads.toNat →
    a.sector.toNat < dr.cfg.spt.toNat →
    ∃ t : State, exec i s = .next t ∧
      t = State.receiving n
        { s.begun f with
          addr := { a with lba := BitVec.ofNat 32 (dr.cfg.lba a.cyl.toNat a.head.toNat a.sector.toNat) }
          drives := t.drives
          log := s.log ++ [.imageWritten f.drive.toNat s.addr.lba.toNat] } ∧
      t.drives.map Drive.bare = (s.seeked f.drive.toNat a.cyl).drives.map Drive.bare ∧
      ∀ d k, State.imageByte d k t =
        if d = f.drive.toNat ∧ s.addr.lba.toNat * 512 ≤ k ∧ k < s.addr.lba.toNat * 512 + 512 then
          Memory.read s.buffer (k - s.addr.lba.toNat * 512)
        else State.imageByte d k s

/-- 44_commands.md R261, R262; 30_encoding.md R114: SPECIFY receives 8 bytes, then stores cylinders (high byte first) and
heads, present drive or not, and keeps the sectors per track; an index without a slot is NotReady. -/
def Obligations.SpecifyStoresCylindersAndHeads : Prop :=
  ∀ (f : Cdb) (s : State),
    (s.phase = .startCommand → exec (.specify f) s = .next (State.receiving 8 (s.begun f))) ∧
    (s.phase = .receivedData → f.drive.toNat < s.drives.length →
      exec (.specify f) s = .next
        (State.completed
          { s.begun f with
            drives := s.drives.modify f.drive.toNat (fun dr =>
              { dr with
                cfg :=
                  { cylinders :=
                      BitVec.ofNat 16 ((Memory.read s.buffer 0).toNat * 256 + (Memory.read s.buffer 1).toNat)
                    heads := Memory.read s.buffer 2
                    spt := dr.cfg.spt } }) })) ∧
    (s.phase = .receivedData → s.drives.length ≤ f.drive.toNat →
      exec (.specify f) s = .next (State.failed .notReady (s.begun f)))

/-- 44_commands.md R263 to R269: the sector-buffer commands move 512 bytes and complete, the vendor diagnostics complete
at once; no error, no drive, no image. -/
def Obligations.BufferAndDiagnosticCommands : Prop :=
  ∀ (f : Cdb) (s : State),
    (s.phase = .startCommand →
      exec (.readBuffer f) s = .next (State.sending 512 (s.begun f)) ∧
      exec (.writeBuffer f) s = .next (State.receiving 512 (s.begun f)) ∧
      exec (.ramDiag f) s = .next (State.completed (s.begun f)) ∧
      exec (.driveDiag f) s = .next (State.completed (s.begun f)) ∧
      exec (.ctrlDiag f) s = .next (State.completed (s.begun f))) ∧
    (s.phase = .sentData → exec (.readBuffer f) s = .next (State.completed (s.begun f))) ∧
    (s.phase = .receivedData → exec (.writeBuffer f) s = .next (State.completed (s.begun f)))

/-- 44_commands.md R270, R273; 30_encoding.md R115: the vendor geometry get commands put the 16 bytes of GEOM_ENCODE
(OPEN: whatever it gives) in the buffer and send them, then complete; an index without a slot is NotReady. -/
def Obligations.GetGeometrySendsTheBlock : Prop :=
  ∀ (i : Instr) (fam : Family) (f : Cdb) (s : State),
    i = .dtcGetGeom f ∧ fam = .dtc ∨ i = .st11GetGeom f ∧ fam = .st11 →
    (∀ dr, s.phase = .startCommand → s.drives[f.drive.toNat]? = some dr →
      ∃ t : State, exec i s = .next t ∧ t = State.sending 16 { s.begun f with buffer := t.buffer } ∧
        ∀ k, Memory.read t.buffer k =
          if k < 16 then Config.geomEncode fam dr.cfg dr.phys k else Memory.read s.buffer k) ∧
    (s.phase = .startCommand → s.drives.length ≤ f.drive.toNat →
      exec i s = .next (State.failed .notReady (s.begun f))) ∧
    (s.phase = .sentData → exec i s = .next (State.completed (s.begun f)))

/-- 44_commands.md R271, R274; 30_encoding.md R115: the vendor geometry set commands receive 16 bytes, then store what
GEOM_DECODE (OPEN) makes of them; an index without a slot is NotReady. -/
def Obligations.SetGeometryStoresTheDecodedBlock : Prop :=
  ∀ (i : Instr) (fam : Family) (f : Cdb) (s : State),
    i = .dtcSetGeom f ∧ fam = .dtc ∨ i = .st11SetGeom f ∧ fam = .st11 →
    (s.phase = .startCommand → exec i s = .next (State.receiving 16 (s.begun f))) ∧
    (s.phase = .receivedData → f.drive.toNat < s.drives.length →
      exec i s = .next
        (State.completed
          { s.begun f with
            drives := s.drives.modify f.drive.toNat (fun dr =>
              { dr with
                cfg := Config.geomDecode fam ((List.range 16).map (fun k => Memory.read s.buffer k)) dr.cfg }) })) ∧
    (s.phase = .receivedData → s.drives.length ≤ f.drive.toNat →
      exec i s = .next (State.failed .notReady (s.begun f)))

/-- 44_commands.md R272, R275: a vendor geometry command of another family and an unknown opcode are BadCommand, before
any drive check. -/
def Obligations.WrongFamilyAndUnknownAreBadCommand : Prop :=
  ∀ (i : Instr) (op : Byte) (f : Cdb) (s : State),
    i = .wrongDtcGetGeom f ∨ i = .wrongDtcSetGeom f ∨ i = .wrongSt11GetGeom f ∨ i = .wrongSt11SetGeom f ∨
      i = .unknown op f →
    s.phase = .startCommand → exec i s = .next (State.failed .badCommand (s.begun f))

/-- 30_encoding.md R103, R122: byte 5 changes nothing for the commands that decode an address, and for every other
command nothing but the drive field does; for an unknown opcode not the opcode either (44_commands.md R275). -/
def Obligations.UnusedCommandFieldsAreIgnored : Prop :=
  ∀ (f g : Cdb) (op op' : Byte) (s : State), f.drive = g.drive →
    (exec (.testReady f) s = exec (.testReady g) s ∧ exec (.recalibrate f) s = exec (.recalibrate g) s ∧
      exec (.sense f) s = exec (.sense g) s ∧ exec (.specify f) s = exec (.specify g) s ∧
      exec (.readBuffer f) s = exec (.readBuffer g) s ∧ exec (.writeBuffer f) s = exec (.writeBuffer g) s ∧
      exec (.ramDiag f) s = exec (.ramDiag g) s ∧ exec (.driveDiag f) s = exec (.driveDiag g) s ∧
      exec (.ctrlDiag f) s = exec (.ctrlDiag g) s ∧ exec (.dtcGetGeom f) s = exec (.dtcGetGeom g) s ∧
      exec (.dtcSetGeom f) s = exec (.dtcSetGeom g) s ∧ exec (.st11GetGeom f) s = exec (.st11GetGeom g) s ∧
      exec (.st11SetGeom f) s = exec (.st11SetGeom g) s ∧
      exec (.wrongDtcGetGeom f) s = exec (.wrongDtcGetGeom g) s ∧
      exec (.wrongDtcSetGeom f) s = exec (.wrongDtcSetGeom g) s ∧
      exec (.wrongSt11GetGeom f) s = exec (.wrongSt11GetGeom g) s ∧
      exec (.wrongSt11SetGeom f) s = exec (.wrongSt11SetGeom g) s ∧
      exec (.unknown op f) s = exec (.unknown op' g) s) ∧
    (f.head = g.head → f.sector = g.sector → f.cyl = g.cyl → f.count = g.count →
      exec (.read f) s = exec (.read g) s ∧ exec (.readLong f) s = exec (.readLong g) s ∧
      exec (.write f) s = exec (.write g) s ∧ exec (.writeLong f) s = exec (.writeLong g) s ∧
      exec (.verify f) s = exec (.verify g) s ∧ exec (.seek f) s = exec (.seek g) s ∧
      exec (.formatTrack f) s = exec (.formatTrack g) s ∧ exec (.formatBadTrack f) s = exec (.formatBadTrack g) s ∧
      exec (.formatDrive f) s = exec (.formatDrive g) s)

/-! ## Rules of the whole machine -/

/-- 10_state.md R56, 43_transfer_engine.md R232: no instruction but WRITE and WRITE_LONG (in ReceivedData) and the FORMAT
commands (in StartCommand) changes a byte of an image. -/
def Obligations.OnlyStoresAndFormatsChangeImages : Prop :=
  ∀ (i : Instr) (s t : State), exec i s = .next t →
    storesToImage i = false ∨ (s.phase ≠ .startCommand ∧ s.phase ≠ .receivedData) →
    ∀ d k, State.imageByte d k t = State.imageByte d k s

/-- 10_state.md R35, 20_memory.md R95: the command buffer changes only by a port-0 write in ReceiveCommand. -/
def Obligations.CommandBlockIsLatched : Prop :=
  ∀ (i : Instr) (s t : State), exec i s = .next t →
    t.command = s.command ∨ (s.phase = .receiveCommand ∧ ∃ v, i = .dataWrite v)

/-- 00_scope.md R9, 10_state.md R52, R53, R57: parameters, drive slots, presence, physical geometry and the jumper byte
are fixed for the life of the instance. -/
def Obligations.ConfigurationNeverChanges : Prop :=
  ∀ (s t : State), s.attached = true → step s = .next t →
    t.params = s.params ∧ t.switches = s.switches ∧
    t.drives.map (fun d => (d.present, d.phys)) = s.drives.map (fun d => (d.present, d.phys))

/-- 10_state.md R59, 60_exceptions.md R311, R312, R314: the event log only grows, and the interrupt is raised by a
completion with IRQ_ENA set, on IRQ_LINE, and by nothing else: no access and no step that was in CompletionByte already,
no completion with IRQ_ENA clear. That the event carries the line is the model's form of the call (log 19). -/
def Obligations.LogGrowsAndInterruptMeansCompletion : Prop :=
  ∀ (i : Instr) (s t : State), exec i s = .next t →
    ∃ new : List Event, t.log = s.log ++ new ∧
      (∀ line, Event.irqRaised line ∈ new ↔
        line = s.params.irqLine ∧ s.irqDmaMask.getLsbD 1 = true ∧ s.phase ≠ .completionByte ∧
          t.phase = .completionByte) ∧
      (s.phase ≠ .completionByte → t.phase = .completionByte →
        t.status = if s.irqDmaMask.getLsbD 1 then 0x2F else 0x0F)

/-- 41_state_machine.md R183, 60_exceptions.md R302: `errorCode` changes only by a completion, to a code some rule raises
(the completion byte's bit 1 set) or, by SENSE, to 0. -/
def Obligations.ErrorCodeChangesOnlyAtCompletion : Prop :=
  ∀ (i : Instr) (s t : State), exec i s = .next t → t.errorCode ≠ s.errorCode →
    t.phase = .completionByte ∧
    ((∃ e ∈ raisedErrors, t.errorCode = s.params.errCodes.of e ∧ t.completionByte &&& 0x02 = 0x02) ∨
      ((∃ f, i = .sense f) ∧ s.phase = .sentData ∧ t.errorCode = 0))

/-- 41_state_machine.md R185: in a state that meets the invariant, the step of the command in the command buffer finds
its handler. -/
def Obligations.HandlerIsAlwaysFound : Prop :=
  ∀ (s t : State), s.Inv →
    (s.phase = .startCommand ∨ s.phase = .sentData ∨ s.phase = .receivedData ∨ s.phase = .done) →
    exec s.current s = .next t → Event.violation .stepNoHandler ∉ t.log.drop s.log.length

/-- 10_state.md R62: after every step from a state that meets the invariant the IRQ bit means an unread completion byte
and no pending step. -/
def Obligations.InterruptBitMeansUnreadCompletion : Prop :=
  ∀ (s t : State), s.Inv → step s = .next t → t.status &&& 0x20 ≠ 0 → t.phase = .completionByte ∧ t.pending = none

/-- 20_memory.md R83, 70_reset_and_hazards.md R340: while no configured geometry has more blocks than its image, a step
never leaves the image's contract. -/
def Obligations.NoMarkWithinThePhysicalGeometry : Prop :=
  ∀ (s t : State), s.Inv → s.fits → step s = .next t → t.fault = false

/-- The reset state meets the invariant (10_state.md R60; its launch arguments are log 2). -/
def Obligations.ResetMeetsTheInvariant : Prop := State.reset.Inv

/-- 10_state.md R40, R50, R62, R63; 41_state_machine.md R178, R185, R188; 30_encoding.md R105; 60_exceptions.md R302:
every step keeps the invariant. -/
def Obligations.StepKeepsTheInvariant : Prop :=
  ∀ (s t : State), s.Inv → step s = .next t → t.Inv
end

