-- ==== Sys2Proof/Laws/Memory.lean ====
section
/-! SUPPORT. The laws of byte memory: what a read gives after a write or a zeroing, and that both keep the canonical
form. -/

namespace Sys2Proof.Machine

/-- Whether some entry has this address. -/
def Memory.has (m : Memory) (a : Nat) : Prop := ∃ c ∈ m, c.1 = a

theorem Memory.read_of_not_has {m : Memory} {a : Nat} (h : ¬ Memory.has m a) : Memory.read m a = 0#8 := by
  induction m with
  | nil => rfl
  | cons c m ih =>
    obtain ⟨k, b⟩ := c
    have hk : k ≠ a := fun e => h ⟨(k, b), by simp, e⟩
    have hm : ¬ Memory.has m a := fun ⟨c, hc, e⟩ => h ⟨c, by simp [hc], e⟩
    simp [Memory.read, hk, ih hm]

theorem Memory.read_append (m m' : Memory) (a : Nat) :
    (Memory.has m a ∧ Memory.read (m ++ m') a = Memory.read m a) ∨
      (¬ Memory.has m a ∧ Memory.read (m ++ m') a = Memory.read m' a) := by
  induction m with
  | nil => exact .inr ⟨fun ⟨c, hc, _⟩ => by simp at hc, rfl⟩
  | cons c m ih =>
    obtain ⟨k, b⟩ := c
    by_cases hk : k = a
    · exact .inl ⟨⟨(k, b), by simp, hk⟩, by simp [Memory.read, hk]⟩
    · rcases ih with ⟨⟨c, hc, e⟩, h⟩ | ⟨hn, h⟩
      · exact .inl ⟨⟨c, by simp [hc], e⟩, by simp [Memory.read, hk, h]⟩
      · refine .inr ⟨?_, by simp [Memory.read, hk, h]⟩
        rintro ⟨c, hc, e⟩
        rcases List.mem_cons.mp hc with rfl | hc
        · exact hk e
        · exact hn ⟨c, hc, e⟩

theorem Memory.read_filter (m : Memory) (p : Nat → Bool) (a : Nat) :
    Memory.read (m.filter (fun c => p c.1)) a = if p a then Memory.read m a else 0#8 := by
  induction m with
  | nil => simp [Memory.read]
  | cons c m ih =>
    obtain ⟨k, b⟩ := c
    by_cases hk : k = a
    · subst hk
      by_cases hp : p k <;> simp [hp, Memory.read, ih]
    · by_cases hp : p k <;> simp [hp, Memory.read, ih, hk]

theorem Memory.cells_range {base : Nat} {bs : List Byte} {c : Host.Cell} (h : c ∈ Memory.cells base bs) :
    base ≤ c.1 ∧ c.1 < base + bs.length ∧ c.2 ≠ 0#8 := by
  induction bs generalizing base with
  | nil => simp [Memory.cells] at h
  | cons b bs ih =>
    by_cases hb : b = 0#8
    · simp only [Memory.cells, hb, ↓reduceIte] at h
      have := ih h
      simp only [List.length_cons]
      exact ⟨by omega, by omega, this.2.2⟩
    · simp only [Memory.cells, hb, ↓reduceIte, List.mem_cons] at h
      rcases h with rfl | h
      · simp [hb]
      · have := ih h
        simp only [List.length_cons]
        exact ⟨by omega, by omega, this.2.2⟩

theorem Memory.read_cells (base : Nat) (bs : List Byte) (a : Nat) (h : base ≤ a) :
    Memory.read (Memory.cells base bs) a = bs.getD (a - base) 0#8 := by
  induction bs generalizing base with
  | nil => simp [Memory.cells, Memory.read]
  | cons b bs ih =>
    by_cases ha : base = a
    · subst ha
      by_cases hb : b = 0#8
      · have hn : ¬ Memory.has (Memory.cells (base + 1) bs) base := by
          rintro ⟨c, hc, e⟩
          have := (Memory.cells_range hc).1
          omega
        simp [Memory.cells, hb, Memory.read_of_not_has hn]
      · simp [Memory.cells, hb, Memory.read]
    · have e : a - base = (a - (base + 1)) + 1 := by omega
      by_cases hb : b = 0#8
      · simp [Memory.cells, hb, ih (base + 1) (by omega), e]
      · simp [Memory.cells, hb, Memory.read, ha, ih (base + 1) (by omega), e]

/-- A read after a write: the byte written inside the run, the old byte everywhere else. -/
theorem Memory.read_writeBytes (m : Memory) (base : Nat) (bs : List Byte) (a : Nat) :
    Memory.read (Memory.writeBytes m base bs) a =
      if base ≤ a ∧ a < base + bs.length then bs.getD (a - base) 0#8 else Memory.read m a := by
  have lo := Memory.read_filter m (fun k => decide (k < base)) a
  have hi := Memory.read_filter m (fun k => decide (base + bs.length ≤ k)) a
  unfold Memory.writeBytes
  rcases Memory.read_append (m.filter (fun c => decide (c.1 < base)))
      (Memory.cells base bs ++ m.filter (fun c => decide (base + bs.length ≤ c.1))) a with ⟨⟨c, hc, e⟩, h⟩ | ⟨hn, h⟩
  · have hlt : a < base := by
      have := (List.mem_filter.mp hc).2
      simp only [decide_eq_true_eq] at this
      omega
    rw [h, lo]
    simp [hlt, show ¬ base ≤ a by omega]
  · rw [h]
    rcases Memory.read_append (Memory.cells base bs) (m.filter (fun c => decide (base + bs.length ≤ c.1))) a
        with ⟨⟨c, hc, e⟩, h'⟩ | ⟨hn', h'⟩
    · have := Memory.cells_range hc
      rw [h', Memory.read_cells _ _ _ (by omega), if_pos (by omega)]
    · rw [h', hi]
      by_cases hin : base ≤ a ∧ a < base + bs.length
      · have hz := Memory.read_of_not_has hn'
        rw [Memory.read_cells _ _ _ hin.1] at hz
        rw [if_pos hin, hz]
        simp [show ¬ base + bs.length ≤ a by omega]
      · by_cases ha : base + bs.length ≤ a
        · simp [ha, hin]
        · have hlt : a < base := by omega
          have hz := Memory.read_of_not_has hn
          rw [lo] at hz
          simp only [hlt, decide_true, ↓reduceIte] at hz
          rw [if_neg hin, hz]
          simp [ha]

/-- A read after a zeroing. -/
theorem Memory.read_zero (m : Memory) (base n a : Nat) :
    Memory.read (Memory.zero m base n) a = if base ≤ a ∧ a < base + n then 0#8 else Memory.read m a := by
  have h := Memory.read_filter m (fun k => decide (k < base ∨ base + n ≤ k)) a
  unfold Memory.zero
  rw [h]
  by_cases hin : base ≤ a ∧ a < base + n
  · have : ¬ (a < base ∨ base + n ≤ a) := by omega
    simp [hin, this]
  · have : a < base ∨ base + n ≤ a := by omega
    simp [hin, this]

@[simp] theorem Memory.length_readBytes (m : Memory) (base n : Nat) : (Memory.readBytes m base n).length = n := by
  simp [Memory.readBytes]

theorem Memory.getD_readBytes (m : Memory) (base n i : Nat) (h : i < n) :
    (Memory.readBytes m base n).getD i 0#8 = Memory.read m (base + i) := by
  simp [Memory.readBytes, List.getD_eq_getElem?_getD, h]

theorem Memory.cells_sorted (base : Nat) (bs : List Byte) :
    (Memory.cells base bs).Pairwise (fun a b => a.1 < b.1) := by
  induction bs generalizing base with
  | nil => exact List.Pairwise.nil
  | cons b bs ih =>
    by_cases hb : b = 0#8
    · simpa [Memory.cells, hb] using ih (base + 1)
    · simp only [Memory.cells, hb, ↓reduceIte, List.pairwise_cons]
      refine ⟨fun c hc => ?_, ih _⟩
      have := (Memory.cells_range hc).1
      show base < c.1
      omega

/-- A write keeps the canonical form. -/
theorem Memory.wf_writeBytes {m : Memory} (h : Memory.wf m) (base : Nat) (bs : List Byte) :
    Memory.wf (Memory.writeBytes m base bs) := by
  refine ⟨?_, fun c hc => ?_⟩
  · unfold Memory.writeBytes
    rw [List.pairwise_append, List.pairwise_append]
    refine ⟨h.1.filter _, ⟨Memory.cells_sorted base bs, h.1.filter _, ?_⟩, ?_⟩
    · intro a ha b hb
      have h1 := (Memory.cells_range ha).2.1
      have h2 := (List.mem_filter.mp hb).2
      simp only [decide_eq_true_eq] at h2
      omega
    · intro a ha b hb
      have h1 := (List.mem_filter.mp ha).2
      simp only [decide_eq_true_eq] at h1
      rcases List.mem_append.mp hb with hb | hb
      · have := (Memory.cells_range hb).1
        omega
      · have h2 := (List.mem_filter.mp hb).2
        simp only [decide_eq_true_eq] at h2
        omega
  · unfold Memory.writeBytes at hc
    rcases List.mem_append.mp hc with hc | hc
    · exact h.2 c (List.mem_filter.mp hc).1
    · rcases List.mem_append.mp hc with hc | hc
      · exact (Memory.cells_range hc).2.2
      · exact h.2 c (List.mem_filter.mp hc).1

/-- A zeroing keeps the canonical form. -/
theorem Memory.wf_zero {m : Memory} (h : Memory.wf m) (base n : Nat) : Memory.wf (Memory.zero m base n) :=
  ⟨h.1.filter _, fun c hc => h.2 c (List.mem_filter.mp hc).1⟩

/-- A write below a bound keeps the bound. -/
theorem Memory.below_writeBytes {m : Memory} {N : Nat} (h : Memory.below m N) {base : Nat} {bs : List Byte}
    (hb : base + bs.length ≤ N) : Memory.below (Memory.writeBytes m base bs) N := by
  intro c hc
  unfold Memory.writeBytes at hc
  rcases List.mem_append.mp hc with hc | hc
  · exact h c (List.mem_filter.mp hc).1
  · rcases List.mem_append.mp hc with hc | hc
    · have := (Memory.cells_range hc).2.1
      omega
    · exact h c (List.mem_filter.mp hc).1

/-- A zeroing keeps a bound. -/
theorem Memory.below_zero {m : Memory} {N : Nat} (h : Memory.below m N) (base n : Nat) :
    Memory.below (Memory.zero m base n) N := fun c hc => h c (List.mem_filter.mp hc).1

/-- Memory in canonical form is what its reads are: two that read alike are equal. -/
theorem Memory.eq_of_read {m m' : Memory} (h : Memory.wf m) (h' : Memory.wf m')
    (e : ∀ a, Memory.read m a = Memory.read m' a) : m = m' := by
  have mem_iff : ∀ {m : Memory}, Memory.wf m → ∀ k b, ((k, b) ∈ m ↔ (Memory.read m k = b ∧ b ≠ 0#8)) := by
    intro m hm k b
    induction m with
    | nil => simp only [List.not_mem_nil, Memory.read, false_iff]; rintro ⟨rfl, hb⟩; exact hb rfl
    | cons c m ih =>
      obtain ⟨k', b'⟩ := c
      have hs := List.pairwise_cons.mp hm.1
      have ih := ih ⟨hs.2, fun c hc => hm.2 c (by simp [hc])⟩
      have hb' : b' ≠ 0#8 := hm.2 (k', b') (by simp)
      by_cases hk : k' = k
      · subst hk
        have hn : (k', b) ∉ m := fun hmem => absurd (hs.1 _ hmem) (by simp)
        simp only [List.mem_cons, Prod.mk.injEq, true_and, hn, or_false, Memory.read, ↓reduceIte]
        constructor
        · rintro rfl; exact ⟨rfl, hb'⟩
        · rintro ⟨rfl, _⟩; rfl
      · simp [Memory.read, hk, ih, Ne.symm hk]
  have sub : ∀ {m m' : Memory}, Memory.wf m → Memory.wf m' → (∀ a, Memory.read m a = Memory.read m' a) →
      ∀ c ∈ m, c ∈ m' := by
    rintro m m' hm hm' e ⟨k, b⟩ hc
    rw [mem_iff hm] at hc
    rw [mem_iff hm', ← e]
    exact hc
  have nodup : ∀ {m : Memory}, Memory.wf m → m.Nodup := by
    intro m hm
    exact hm.1.imp (fun {a b} hab he => by rw [he] at hab; exact absurd hab (Nat.lt_irrefl _))
  have perm : m.Perm m' := (List.perm_ext_iff_of_nodup (nodup h) (nodup h')).mpr
    (fun c => ⟨sub h h' e c, sub h' h (fun a => (e a).symm) c⟩)
  exact perm.eq_of_pairwise (fun a b _ _ hab hba => absurd hab (Nat.lt_asymm hba)) h.1 h'.1

end Sys2Proof.Machine
end

