-- ==== Sys2Proof/Laws/State.lean ====
section
/-! SUPPORT. One lemma per field per update of State: what each named update leaves in each field. -/

namespace Sys2Proof.Machine


/-! ### event -/

@[simp] theorem event_params (e : Event) (s : State) : (State.event e s).params = s.params := rfl
@[simp] theorem event_attached (e : Event) (s : State) : (State.event e s).attached = s.attached := rfl
@[simp] theorem event_phase (e : Event) (s : State) : (State.event e s).phase = s.phase := rfl
@[simp] theorem event_status (e : Event) (s : State) : (State.event e s).status = s.status := rfl
@[simp] theorem event_command (e : Event) (s : State) : (State.event e s).command = s.command := rfl
@[simp] theorem event_commandPos (e : Event) (s : State) : (State.event e s).commandPos = s.commandPos := rfl
@[simp] theorem event_buffer (e : Event) (s : State) : (State.event e s).buffer = s.buffer := rfl
@[simp] theorem event_bufPos (e : Event) (s : State) : (State.event e s).bufPos = s.bufPos := rfl
@[simp] theorem event_bufCount (e : Event) (s : State) : (State.event e s).bufCount = s.bufCount := rfl
@[simp] theorem event_errorCode (e : Event) (s : State) : (State.event e s).errorCode = s.errorCode := rfl
@[simp] theorem event_completionByte (e : Event) (s : State) : (State.event e s).completionByte = s.completionByte := rfl
@[simp] theorem event_driveSelect (e : Event) (s : State) : (State.event e s).driveSelect = s.driveSelect := rfl
@[simp] theorem event_irqDmaMask (e : Event) (s : State) : (State.event e s).irqDmaMask = s.irqDmaMask := rfl
@[simp] theorem event_pending (e : Event) (s : State) : (State.event e s).pending = s.pending := rfl
@[simp] theorem event_addr (e : Event) (s : State) : (State.event e s).addr = s.addr := rfl
@[simp] theorem event_xferDma (e : Event) (s : State) : (State.event e s).xferDma = s.xferDma := rfl
@[simp] theorem event_stall (e : Event) (s : State) : (State.event e s).stall = s.stall := rfl
@[simp] theorem event_drives (e : Event) (s : State) : (State.event e s).drives = s.drives := rfl
@[simp] theorem event_switches (e : Event) (s : State) : (State.event e s).switches = s.switches := rfl
@[simp] theorem event_log (e : Event) (s : State) : (State.event e s).log = s.log ++ [e] := rfl
@[simp] theorem event_fault (e : Event) (s : State) : (State.event e s).fault = s.fault := rfl
@[simp] theorem event_turns (e : Event) (s : State) : (State.event e s).turns = s.turns := rfl
@[simp] theorem event_dma (e : Event) (s : State) : (State.event e s).dma = s.dma := rfl
@[simp] theorem event_busOut (e : Event) (s : State) : (State.event e s).busOut = s.busOut := rfl
@[simp] theorem event_draws (e : Event) (s : State) : (State.event e s).draws = s.draws := rfl

/-! ### violation -/

@[simp] theorem violation_params (k : Violation) (s : State) : (State.violation k s).params = s.params := rfl
@[simp] theorem violation_attached (k : Violation) (s : State) : (State.violation k s).attached = s.attached := rfl
@[simp] theorem violation_phase (k : Violation) (s : State) : (State.violation k s).phase = s.phase := rfl
@[simp] theorem violation_status (k : Violation) (s : State) : (State.violation k s).status = s.status := rfl
@[simp] theorem violation_command (k : Violation) (s : State) : (State.violation k s).command = s.command := rfl
@[simp] theorem violation_commandPos (k : Violation) (s : State) : (State.violation k s).commandPos = s.commandPos := rfl
@[simp] theorem violation_buffer (k : Violation) (s : State) : (State.violation k s).buffer = s.buffer := rfl
@[simp] theorem violation_bufPos (k : Violation) (s : State) : (State.violation k s).bufPos = s.bufPos := rfl
@[simp] theorem violation_bufCount (k : Violation) (s : State) : (State.violation k s).bufCount = s.bufCount := rfl
@[simp] theorem violation_errorCode (k : Violation) (s : State) : (State.violation k s).errorCode = s.errorCode := rfl
@[simp] theorem violation_completionByte (k : Violation) (s : State) : (State.violation k s).completionByte = s.completionByte := rfl
@[simp] theorem violation_driveSelect (k : Violation) (s : State) : (State.violation k s).driveSelect = s.driveSelect := rfl
@[simp] theorem violation_irqDmaMask (k : Violation) (s : State) : (State.violation k s).irqDmaMask = s.irqDmaMask := rfl
@[simp] theorem violation_pending (k : Violation) (s : State) : (State.violation k s).pending = s.pending := rfl
@[simp] theorem violation_addr (k : Violation) (s : State) : (State.violation k s).addr = s.addr := rfl
@[simp] theorem violation_xferDma (k : Violation) (s : State) : (State.violation k s).xferDma = s.xferDma := rfl
@[simp] theorem violation_stall (k : Violation) (s : State) : (State.violation k s).stall = s.stall := rfl
@[simp] theorem violation_drives (k : Violation) (s : State) : (State.violation k s).drives = s.drives := rfl
@[simp] theorem violation_switches (k : Violation) (s : State) : (State.violation k s).switches = s.switches := rfl
@[simp] theorem violation_log (k : Violation) (s : State) : (State.violation k s).log = s.log ++ [.violation k] := rfl
@[simp] theorem violation_fault (k : Violation) (s : State) : (State.violation k s).fault = s.fault := rfl
@[simp] theorem violation_turns (k : Violation) (s : State) : (State.violation k s).turns = s.turns := rfl
@[simp] theorem violation_dma (k : Violation) (s : State) : (State.violation k s).dma = s.dma := rfl
@[simp] theorem violation_busOut (k : Violation) (s : State) : (State.violation k s).busOut = s.busOut := rfl
@[simp] theorem violation_draws (k : Violation) (s : State) : (State.violation k s).draws = s.draws := rfl

/-! ### arm -/

@[simp] theorem arm_params (d : Delay) (s : State) : (State.arm d s).params = s.params := rfl
@[simp] theorem arm_attached (d : Delay) (s : State) : (State.arm d s).attached = s.attached := rfl
@[simp] theorem arm_phase (d : Delay) (s : State) : (State.arm d s).phase = s.phase := rfl
@[simp] theorem arm_status (d : Delay) (s : State) : (State.arm d s).status = s.status := rfl
@[simp] theorem arm_command (d : Delay) (s : State) : (State.arm d s).command = s.command := rfl
@[simp] theorem arm_commandPos (d : Delay) (s : State) : (State.arm d s).commandPos = s.commandPos := rfl
@[simp] theorem arm_buffer (d : Delay) (s : State) : (State.arm d s).buffer = s.buffer := rfl
@[simp] theorem arm_bufPos (d : Delay) (s : State) : (State.arm d s).bufPos = s.bufPos := rfl
@[simp] theorem arm_bufCount (d : Delay) (s : State) : (State.arm d s).bufCount = s.bufCount := rfl
@[simp] theorem arm_errorCode (d : Delay) (s : State) : (State.arm d s).errorCode = s.errorCode := rfl
@[simp] theorem arm_completionByte (d : Delay) (s : State) : (State.arm d s).completionByte = s.completionByte := rfl
@[simp] theorem arm_driveSelect (d : Delay) (s : State) : (State.arm d s).driveSelect = s.driveSelect := rfl
@[simp] theorem arm_irqDmaMask (d : Delay) (s : State) : (State.arm d s).irqDmaMask = s.irqDmaMask := rfl
@[simp] theorem arm_pending (d : Delay) (s : State) : (State.arm d s).pending = some d := rfl
@[simp] theorem arm_addr (d : Delay) (s : State) : (State.arm d s).addr = s.addr := rfl
@[simp] theorem arm_xferDma (d : Delay) (s : State) : (State.arm d s).xferDma = s.xferDma := rfl
@[simp] theorem arm_stall (d : Delay) (s : State) : (State.arm d s).stall = s.stall := rfl
@[simp] theorem arm_drives (d : Delay) (s : State) : (State.arm d s).drives = s.drives := rfl
@[simp] theorem arm_switches (d : Delay) (s : State) : (State.arm d s).switches = s.switches := rfl
@[simp] theorem arm_log (d : Delay) (s : State) : (State.arm d s).log = s.log := rfl
@[simp] theorem arm_fault (d : Delay) (s : State) : (State.arm d s).fault = s.fault := rfl
@[simp] theorem arm_turns (d : Delay) (s : State) : (State.arm d s).turns = s.turns := rfl
@[simp] theorem arm_dma (d : Delay) (s : State) : (State.arm d s).dma = s.dma := rfl
@[simp] theorem arm_busOut (d : Delay) (s : State) : (State.arm d s).busOut = s.busOut := rfl
@[simp] theorem arm_draws (d : Delay) (s : State) : (State.arm d s).draws = s.draws := rfl

/-! ### onDrive -/

@[simp] theorem onDrive_params (d : Nat) (g : Drive → Drive) (s : State) : (State.onDrive d g s).params = s.params := rfl
@[simp] theorem onDrive_attached (d : Nat) (g : Drive → Drive) (s : State) : (State.onDrive d g s).attached = s.attached := rfl
@[simp] theorem onDrive_phase (d : Nat) (g : Drive → Drive) (s : State) : (State.onDrive d g s).phase = s.phase := rfl
@[simp] theorem onDrive_status (d : Nat) (g : Drive → Drive) (s : State) : (State.onDrive d g s).status = s.status := rfl
@[simp] theorem onDrive_command (d : Nat) (g : Drive → Drive) (s : State) : (State.onDrive d g s).command = s.command := rfl
@[simp] theorem onDrive_commandPos (d : Nat) (g : Drive → Drive) (s : State) : (State.onDrive d g s).commandPos = s.commandPos := rfl
@[simp] theorem onDrive_buffer (d : Nat) (g : Drive → Drive) (s : State) : (State.onDrive d g s).buffer = s.buffer := rfl
@[simp] theorem onDrive_bufPos (d : Nat) (g : Drive → Drive) (s : State) : (State.onDrive d g s).bufPos = s.bufPos := rfl
@[simp] theorem onDrive_bufCount (d : Nat) (g : Drive → Drive) (s : State) : (State.onDrive d g s).bufCount = s.bufCount := rfl
@[simp] theorem onDrive_errorCode (d : Nat) (g : Drive → Drive) (s : State) : (State.onDrive d g s).errorCode = s.errorCode := rfl
@[simp] theorem onDrive_completionByte (d : Nat) (g : Drive → Drive) (s : State) : (State.onDrive d g s).completionByte = s.completionByte := rfl
@[simp] theorem onDrive_driveSelect (d : Nat) (g : Drive → Drive) (s : State) : (State.onDrive d g s).driveSelect = s.driveSelect := rfl
@[simp] theorem onDrive_irqDmaMask (d : Nat) (g : Drive → Drive) (s : State) : (State.onDrive d g s).irqDmaMask = s.irqDmaMask := rfl
@[simp] theorem onDrive_pending (d : Nat) (g : Drive → Drive) (s : State) : (State.onDrive d g s).pending = s.pending := rfl
@[simp] theorem onDrive_addr (d : Nat) (g : Drive → Drive) (s : State) : (State.onDrive d g s).addr = s.addr := rfl
@[simp] theorem onDrive_xferDma (d : Nat) (g : Drive → Drive) (s : State) : (State.onDrive d g s).xferDma = s.xferDma := rfl
@[simp] theorem onDrive_stall (d : Nat) (g : Drive → Drive) (s : State) : (State.onDrive d g s).stall = s.stall := rfl
@[simp] theorem onDrive_drives (d : Nat) (g : Drive → Drive) (s : State) : (State.onDrive d g s).drives = s.drives.modify d g := rfl
@[simp] theorem onDrive_switches (d : Nat) (g : Drive → Drive) (s : State) : (State.onDrive d g s).switches = s.switches := rfl
@[simp] theorem onDrive_log (d : Nat) (g : Drive → Drive) (s : State) : (State.onDrive d g s).log = s.log := rfl
@[simp] theorem onDrive_fault (d : Nat) (g : Drive → Drive) (s : State) : (State.onDrive d g s).fault = s.fault := rfl
@[simp] theorem onDrive_turns (d : Nat) (g : Drive → Drive) (s : State) : (State.onDrive d g s).turns = s.turns := rfl
@[simp] theorem onDrive_dma (d : Nat) (g : Drive → Drive) (s : State) : (State.onDrive d g s).dma = s.dma := rfl
@[simp] theorem onDrive_busOut (d : Nat) (g : Drive → Drive) (s : State) : (State.onDrive d g s).busOut = s.busOut := rfl
@[simp] theorem onDrive_draws (d : Nat) (g : Drive → Drive) (s : State) : (State.onDrive d g s).draws = s.draws := rfl

/-! ### markFault -/

@[simp] theorem markFault_params (s : State) : (State.markFault s).params = s.params := rfl
@[simp] theorem markFault_attached (s : State) : (State.markFault s).attached = s.attached := rfl
@[simp] theorem markFault_phase (s : State) : (State.markFault s).phase = s.phase := rfl
@[simp] theorem markFault_status (s : State) : (State.markFault s).status = s.status := rfl
@[simp] theorem markFault_command (s : State) : (State.markFault s).command = s.command := rfl
@[simp] theorem markFault_commandPos (s : State) : (State.markFault s).commandPos = s.commandPos := rfl
@[simp] theorem markFault_buffer (s : State) : (State.markFault s).buffer = s.buffer := rfl
@[simp] theorem markFault_bufPos (s : State) : (State.markFault s).bufPos = s.bufPos := rfl
@[simp] theorem markFault_bufCount (s : State) : (State.markFault s).bufCount = s.bufCount := rfl
@[simp] theorem markFault_errorCode (s : State) : (State.markFault s).errorCode = s.errorCode := rfl
@[simp] theorem markFault_completionByte (s : State) : (State.markFault s).completionByte = s.completionByte := rfl
@[simp] theorem markFault_driveSelect (s : State) : (State.markFault s).driveSelect = s.driveSelect := rfl
@[simp] theorem markFault_irqDmaMask (s : State) : (State.markFault s).irqDmaMask = s.irqDmaMask := rfl
@[simp] theorem markFault_pending (s : State) : (State.markFault s).pending = s.pending := rfl
@[simp] theorem markFault_addr (s : State) : (State.markFault s).addr = s.addr := rfl
@[simp] theorem markFault_xferDma (s : State) : (State.markFault s).xferDma = s.xferDma := rfl
@[simp] theorem markFault_stall (s : State) : (State.markFault s).stall = s.stall := rfl
@[simp] theorem markFault_drives (s : State) : (State.markFault s).drives = s.drives := rfl
@[simp] theorem markFault_switches (s : State) : (State.markFault s).switches = s.switches := rfl
@[simp] theorem markFault_log (s : State) : (State.markFault s).log = s.log := rfl
@[simp] theorem markFault_fault (s : State) : (State.markFault s).fault = true := rfl
@[simp] theorem markFault_turns (s : State) : (State.markFault s).turns = s.turns := rfl
@[simp] theorem markFault_dma (s : State) : (State.markFault s).dma = s.dma := rfl
@[simp] theorem markFault_busOut (s : State) : (State.markFault s).busOut = s.busOut := rfl
@[simp] theorem markFault_draws (s : State) : (State.markFault s).draws = s.draws := rfl

/-! ### enterSend -/

@[simp] theorem enterSend_params (n : Nat) (s : State) : (State.enterSend n s).params = s.params := rfl
@[simp] theorem enterSend_attached (n : Nat) (s : State) : (State.enterSend n s).attached = s.attached := rfl
@[simp] theorem enterSend_phase (n : Nat) (s : State) : (State.enterSend n s).phase = .sendData := rfl
@[simp] theorem enterSend_status (n : Nat) (s : State) : (State.enterSend n s).status = sendStatus (dmaEnabled s.irqDmaMask) := rfl
@[simp] theorem enterSend_command (n : Nat) (s : State) : (State.enterSend n s).command = s.command := rfl
@[simp] theorem enterSend_commandPos (n : Nat) (s : State) : (State.enterSend n s).commandPos = s.commandPos := rfl
@[simp] theorem enterSend_buffer (n : Nat) (s : State) : (State.enterSend n s).buffer = s.buffer := rfl
@[simp] theorem enterSend_bufPos (n : Nat) (s : State) : (State.enterSend n s).bufPos = 0 := rfl
@[simp] theorem enterSend_bufCount (n : Nat) (s : State) : (State.enterSend n s).bufCount = n := rfl
@[simp] theorem enterSend_errorCode (n : Nat) (s : State) : (State.enterSend n s).errorCode = s.errorCode := rfl
@[simp] theorem enterSend_completionByte (n : Nat) (s : State) : (State.enterSend n s).completionByte = s.completionByte := rfl
@[simp] theorem enterSend_driveSelect (n : Nat) (s : State) : (State.enterSend n s).driveSelect = s.driveSelect := rfl
@[simp] theorem enterSend_irqDmaMask (n : Nat) (s : State) : (State.enterSend n s).irqDmaMask = s.irqDmaMask := rfl
@[simp] theorem enterSend_pending (n : Nat) (s : State) : (State.enterSend n s).pending = if dmaEnabled s.irqDmaMask then some .dma else s.pending := rfl
@[simp] theorem enterSend_addr (n : Nat) (s : State) : (State.enterSend n s).addr = s.addr := rfl
@[simp] theorem enterSend_xferDma (n : Nat) (s : State) : (State.enterSend n s).xferDma = dmaEnabled s.irqDmaMask := rfl
@[simp] theorem enterSend_stall (n : Nat) (s : State) : (State.enterSend n s).stall = 0 := rfl
@[simp] theorem enterSend_drives (n : Nat) (s : State) : (State.enterSend n s).drives = s.drives := rfl
@[simp] theorem enterSend_switches (n : Nat) (s : State) : (State.enterSend n s).switches = s.switches := rfl
@[simp] theorem enterSend_log (n : Nat) (s : State) : (State.enterSend n s).log = s.log := rfl
@[simp] theorem enterSend_fault (n : Nat) (s : State) : (State.enterSend n s).fault = s.fault := rfl
@[simp] theorem enterSend_turns (n : Nat) (s : State) : (State.enterSend n s).turns = s.turns := rfl
@[simp] theorem enterSend_dma (n : Nat) (s : State) : (State.enterSend n s).dma = s.dma := rfl
@[simp] theorem enterSend_busOut (n : Nat) (s : State) : (State.enterSend n s).busOut = s.busOut := rfl
@[simp] theorem enterSend_draws (n : Nat) (s : State) : (State.enterSend n s).draws = s.draws := rfl

/-! ### enterReceive -/

@[simp] theorem enterReceive_params (n : Nat) (s : State) : (State.enterReceive n s).params = s.params := rfl
@[simp] theorem enterReceive_attached (n : Nat) (s : State) : (State.enterReceive n s).attached = s.attached := rfl
@[simp] theorem enterReceive_phase (n : Nat) (s : State) : (State.enterReceive n s).phase = .receiveData := rfl
@[simp] theorem enterReceive_status (n : Nat) (s : State) : (State.enterReceive n s).status = receiveStatus (dmaEnabled s.irqDmaMask) := rfl
@[simp] theorem enterReceive_command (n : Nat) (s : State) : (State.enterReceive n s).command = s.command := rfl
@[simp] theorem enterReceive_commandPos (n : Nat) (s : State) : (State.enterReceive n s).commandPos = s.commandPos := rfl
@[simp] theorem enterReceive_buffer (n : Nat) (s : State) : (State.enterReceive n s).buffer = s.buffer := rfl
@[simp] theorem enterReceive_bufPos (n : Nat) (s : State) : (State.enterReceive n s).bufPos = 0 := rfl
@[simp] theorem enterReceive_bufCount (n : Nat) (s : State) : (State.enterReceive n s).bufCount = n := rfl
@[simp] theorem enterReceive_errorCode (n : Nat) (s : State) : (State.enterReceive n s).errorCode = s.errorCode := rfl
@[simp] theorem enterReceive_completionByte (n : Nat) (s : State) : (State.enterReceive n s).completionByte = s.completionByte := rfl
@[simp] theorem enterReceive_driveSelect (n : Nat) (s : State) : (State.enterReceive n s).driveSelect = s.driveSelect := rfl
@[simp] theorem enterReceive_irqDmaMask (n : Nat) (s : State) : (State.enterReceive n s).irqDmaMask = s.irqDmaMask := rfl
@[simp] theorem enterReceive_pending (n : Nat) (s : State) : (State.enterReceive n s).pending = if dmaEnabled s.irqDmaMask then some .dma else s.pending := rfl
@[simp] theorem enterReceive_addr (n : Nat) (s : State) : (State.enterReceive n s).addr = s.addr := rfl
@[simp] theorem enterReceive_xferDma (n : Nat) (s : State) : (State.enterReceive n s).xferDma = dmaEnabled s.irqDmaMask := rfl
@[simp] theorem enterReceive_stall (n : Nat) (s : State) : (State.enterReceive n s).stall = 0 := rfl
@[simp] theorem enterReceive_drives (n : Nat) (s : State) : (State.enterReceive n s).drives = s.drives := rfl
@[simp] theorem enterReceive_switches (n : Nat) (s : State) : (State.enterReceive n s).switches = s.switches := rfl
@[simp] theorem enterReceive_log (n : Nat) (s : State) : (State.enterReceive n s).log = s.log := rfl
@[simp] theorem enterReceive_fault (n : Nat) (s : State) : (State.enterReceive n s).fault = s.fault := rfl
@[simp] theorem enterReceive_turns (n : Nat) (s : State) : (State.enterReceive n s).turns = s.turns := rfl
@[simp] theorem enterReceive_dma (n : Nat) (s : State) : (State.enterReceive n s).dma = s.dma := rfl
@[simp] theorem enterReceive_busOut (n : Nat) (s : State) : (State.enterReceive n s).busOut = s.busOut := rfl
@[simp] theorem enterReceive_draws (n : Nat) (s : State) : (State.enterReceive n s).draws = s.draws := rfl

/-! ### enterDone -/

@[simp] theorem enterDone_params (d : Delay) (s : State) : (State.enterDone d s).params = s.params := rfl
@[simp] theorem enterDone_attached (d : Delay) (s : State) : (State.enterDone d s).attached = s.attached := rfl
@[simp] theorem enterDone_phase (d : Delay) (s : State) : (State.enterDone d s).phase = .done := rfl
@[simp] theorem enterDone_status (d : Delay) (s : State) : (State.enterDone d s).status = BSY := rfl
@[simp] theorem enterDone_command (d : Delay) (s : State) : (State.enterDone d s).command = s.command := rfl
@[simp] theorem enterDone_commandPos (d : Delay) (s : State) : (State.enterDone d s).commandPos = s.commandPos := rfl
@[simp] theorem enterDone_buffer (d : Delay) (s : State) : (State.enterDone d s).buffer = s.buffer := rfl
@[simp] theorem enterDone_bufPos (d : Delay) (s : State) : (State.enterDone d s).bufPos = s.bufPos := rfl
@[simp] theorem enterDone_bufCount (d : Delay) (s : State) : (State.enterDone d s).bufCount = s.bufCount := rfl
@[simp] theorem enterDone_errorCode (d : Delay) (s : State) : (State.enterDone d s).errorCode = s.errorCode := rfl
@[simp] theorem enterDone_completionByte (d : Delay) (s : State) : (State.enterDone d s).completionByte = s.completionByte := rfl
@[simp] theorem enterDone_driveSelect (d : Delay) (s : State) : (State.enterDone d s).driveSelect = s.driveSelect := rfl
@[simp] theorem enterDone_irqDmaMask (d : Delay) (s : State) : (State.enterDone d s).irqDmaMask = s.irqDmaMask := rfl
@[simp] theorem enterDone_pending (d : Delay) (s : State) : (State.enterDone d s).pending = some d := rfl
@[simp] theorem enterDone_addr (d : Delay) (s : State) : (State.enterDone d s).addr = s.addr := rfl
@[simp] theorem enterDone_xferDma (d : Delay) (s : State) : (State.enterDone d s).xferDma = s.xferDma := rfl
@[simp] theorem enterDone_stall (d : Delay) (s : State) : (State.enterDone d s).stall = s.stall := rfl
@[simp] theorem enterDone_drives (d : Delay) (s : State) : (State.enterDone d s).drives = s.drives := rfl
@[simp] theorem enterDone_switches (d : Delay) (s : State) : (State.enterDone d s).switches = s.switches := rfl
@[simp] theorem enterDone_log (d : Delay) (s : State) : (State.enterDone d s).log = s.log := rfl
@[simp] theorem enterDone_fault (d : Delay) (s : State) : (State.enterDone d s).fault = s.fault := rfl
@[simp] theorem enterDone_turns (d : Delay) (s : State) : (State.enterDone d s).turns = s.turns := rfl
@[simp] theorem enterDone_dma (d : Delay) (s : State) : (State.enterDone d s).dma = s.dma := rfl
@[simp] theorem enterDone_busOut (d : Delay) (s : State) : (State.enterDone d s).busOut = s.busOut := rfl
@[simp] theorem enterDone_draws (d : Delay) (s : State) : (State.enterDone d s).draws = s.draws := rfl

/-! ### enterSent -/

@[simp] theorem enterSent_params (s : State) : (State.enterSent s).params = s.params := rfl
@[simp] theorem enterSent_attached (s : State) : (State.enterSent s).attached = s.attached := rfl
@[simp] theorem enterSent_phase (s : State) : (State.enterSent s).phase = .sentData := rfl
@[simp] theorem enterSent_status (s : State) : (State.enterSent s).status = BSY := rfl
@[simp] theorem enterSent_command (s : State) : (State.enterSent s).command = s.command := rfl
@[simp] theorem enterSent_commandPos (s : State) : (State.enterSent s).commandPos = s.commandPos := rfl
@[simp] theorem enterSent_buffer (s : State) : (State.enterSent s).buffer = s.buffer := rfl
@[simp] theorem enterSent_bufPos (s : State) : (State.enterSent s).bufPos = s.bufPos := rfl
@[simp] theorem enterSent_bufCount (s : State) : (State.enterSent s).bufCount = s.bufCount := rfl
@[simp] theorem enterSent_errorCode (s : State) : (State.enterSent s).errorCode = s.errorCode := rfl
@[simp] theorem enterSent_completionByte (s : State) : (State.enterSent s).completionByte = s.completionByte := rfl
@[simp] theorem enterSent_driveSelect (s : State) : (State.enterSent s).driveSelect = s.driveSelect := rfl
@[simp] theorem enterSent_irqDmaMask (s : State) : (State.enterSent s).irqDmaMask = s.irqDmaMask := rfl
@[simp] theorem enterSent_pending (s : State) : (State.enterSent s).pending = some .step := rfl
@[simp] theorem enterSent_addr (s : State) : (State.enterSent s).addr = s.addr := rfl
@[simp] theorem enterSent_xferDma (s : State) : (State.enterSent s).xferDma = s.xferDma := rfl
@[simp] theorem enterSent_stall (s : State) : (State.enterSent s).stall = s.stall := rfl
@[simp] theorem enterSent_drives (s : State) : (State.enterSent s).drives = s.drives := rfl
@[simp] theorem enterSent_switches (s : State) : (State.enterSent s).switches = s.switches := rfl
@[simp] theorem enterSent_log (s : State) : (State.enterSent s).log = s.log := rfl
@[simp] theorem enterSent_fault (s : State) : (State.enterSent s).fault = s.fault := rfl
@[simp] theorem enterSent_turns (s : State) : (State.enterSent s).turns = s.turns := rfl
@[simp] theorem enterSent_dma (s : State) : (State.enterSent s).dma = s.dma := rfl
@[simp] theorem enterSent_busOut (s : State) : (State.enterSent s).busOut = s.busOut := rfl
@[simp] theorem enterSent_draws (s : State) : (State.enterSent s).draws = s.draws := rfl

/-! ### enterReceived -/

@[simp] theorem enterReceived_params (s : State) : (State.enterReceived s).params = s.params := rfl
@[simp] theorem enterReceived_attached (s : State) : (State.enterReceived s).attached = s.attached := rfl
@[simp] theorem enterReceived_phase (s : State) : (State.enterReceived s).phase = .receivedData := rfl
@[simp] theorem enterReceived_status (s : State) : (State.enterReceived s).status = BSY := rfl
@[simp] theorem enterReceived_command (s : State) : (State.enterReceived s).command = s.command := rfl
@[simp] theorem enterReceived_commandPos (s : State) : (State.enterReceived s).commandPos = s.commandPos := rfl
@[simp] theorem enterReceived_buffer (s : State) : (State.enterReceived s).buffer = s.buffer := rfl
@[simp] theorem enterReceived_bufPos (s : State) : (State.enterReceived s).bufPos = s.bufPos := rfl
@[simp] theorem enterReceived_bufCount (s : State) : (State.enterReceived s).bufCount = s.bufCount := rfl
@[simp] theorem enterReceived_errorCode (s : State) : (State.enterReceived s).errorCode = s.errorCode := rfl
@[simp] theorem enterReceived_completionByte (s : State) : (State.enterReceived s).completionByte = s.completionByte := rfl
@[simp] theorem enterReceived_driveSelect (s : State) : (State.enterReceived s).driveSelect = s.driveSelect := rfl
@[simp] theorem enterReceived_irqDmaMask (s : State) : (State.enterReceived s).irqDmaMask = s.irqDmaMask := rfl
@[simp] theorem enterReceived_pending (s : State) : (State.enterReceived s).pending = some .step := rfl
@[simp] theorem enterReceived_addr (s : State) : (State.enterReceived s).addr = s.addr := rfl
@[simp] theorem enterReceived_xferDma (s : State) : (State.enterReceived s).xferDma = s.xferDma := rfl
@[simp] theorem enterReceived_stall (s : State) : (State.enterReceived s).stall = s.stall := rfl
@[simp] theorem enterReceived_drives (s : State) : (State.enterReceived s).drives = s.drives := rfl
@[simp] theorem enterReceived_switches (s : State) : (State.enterReceived s).switches = s.switches := rfl
@[simp] theorem enterReceived_log (s : State) : (State.enterReceived s).log = s.log := rfl
@[simp] theorem enterReceived_fault (s : State) : (State.enterReceived s).fault = s.fault := rfl
@[simp] theorem enterReceived_turns (s : State) : (State.enterReceived s).turns = s.turns := rfl
@[simp] theorem enterReceived_dma (s : State) : (State.enterReceived s).dma = s.dma := rfl
@[simp] theorem enterReceived_busOut (s : State) : (State.enterReceived s).busOut = s.busOut := rfl
@[simp] theorem enterReceived_draws (s : State) : (State.enterReceived s).draws = s.draws := rfl

/-! ### enterStart -/

@[simp] theorem enterStart_params (s : State) : (State.enterStart s).params = s.params := rfl
@[simp] theorem enterStart_attached (s : State) : (State.enterStart s).attached = s.attached := rfl
@[simp] theorem enterStart_phase (s : State) : (State.enterStart s).phase = .startCommand := rfl
@[simp] theorem enterStart_status (s : State) : (State.enterStart s).status = BSY := rfl
@[simp] theorem enterStart_command (s : State) : (State.enterStart s).command = s.command := rfl
@[simp] theorem enterStart_commandPos (s : State) : (State.enterStart s).commandPos = s.commandPos := rfl
@[simp] theorem enterStart_buffer (s : State) : (State.enterStart s).buffer = s.buffer := rfl
@[simp] theorem enterStart_bufPos (s : State) : (State.enterStart s).bufPos = s.bufPos := rfl
@[simp] theorem enterStart_bufCount (s : State) : (State.enterStart s).bufCount = s.bufCount := rfl
@[simp] theorem enterStart_errorCode (s : State) : (State.enterStart s).errorCode = s.errorCode := rfl
@[simp] theorem enterStart_completionByte (s : State) : (State.enterStart s).completionByte = s.completionByte := rfl
@[simp] theorem enterStart_driveSelect (s : State) : (State.enterStart s).driveSelect = s.driveSelect := rfl
@[simp] theorem enterStart_irqDmaMask (s : State) : (State.enterStart s).irqDmaMask = s.irqDmaMask := rfl
@[simp] theorem enterStart_pending (s : State) : (State.enterStart s).pending = some .cmd := rfl
@[simp] theorem enterStart_addr (s : State) : (State.enterStart s).addr = s.addr := rfl
@[simp] theorem enterStart_xferDma (s : State) : (State.enterStart s).xferDma = s.xferDma := rfl
@[simp] theorem enterStart_stall (s : State) : (State.enterStart s).stall = s.stall := rfl
@[simp] theorem enterStart_drives (s : State) : (State.enterStart s).drives = s.drives := rfl
@[simp] theorem enterStart_switches (s : State) : (State.enterStart s).switches = s.switches := rfl
@[simp] theorem enterStart_log (s : State) : (State.enterStart s).log = s.log := rfl
@[simp] theorem enterStart_fault (s : State) : (State.enterStart s).fault = s.fault := rfl
@[simp] theorem enterStart_turns (s : State) : (State.enterStart s).turns = s.turns := rfl
@[simp] theorem enterStart_dma (s : State) : (State.enterStart s).dma = s.dma := rfl
@[simp] theorem enterStart_busOut (s : State) : (State.enterStart s).busOut = s.busOut := rfl
@[simp] theorem enterStart_draws (s : State) : (State.enterStart s).draws = s.draws := rfl

/-! ### raiseIrq -/

@[simp] theorem raiseIrq_params (s : State) : (State.raiseIrq s).params = s.params := rfl
@[simp] theorem raiseIrq_attached (s : State) : (State.raiseIrq s).attached = s.attached := rfl
@[simp] theorem raiseIrq_phase (s : State) : (State.raiseIrq s).phase = s.phase := rfl
@[simp] theorem raiseIrq_status (s : State) : (State.raiseIrq s).status = s.status := rfl
@[simp] theorem raiseIrq_command (s : State) : (State.raiseIrq s).command = s.command := rfl
@[simp] theorem raiseIrq_commandPos (s : State) : (State.raiseIrq s).commandPos = s.commandPos := rfl
@[simp] theorem raiseIrq_buffer (s : State) : (State.raiseIrq s).buffer = s.buffer := rfl
@[simp] theorem raiseIrq_bufPos (s : State) : (State.raiseIrq s).bufPos = s.bufPos := rfl
@[simp] theorem raiseIrq_bufCount (s : State) : (State.raiseIrq s).bufCount = s.bufCount := rfl
@[simp] theorem raiseIrq_errorCode (s : State) : (State.raiseIrq s).errorCode = s.errorCode := rfl
@[simp] theorem raiseIrq_completionByte (s : State) : (State.raiseIrq s).completionByte = s.completionByte := rfl
@[simp] theorem raiseIrq_driveSelect (s : State) : (State.raiseIrq s).driveSelect = s.driveSelect := rfl
@[simp] theorem raiseIrq_irqDmaMask (s : State) : (State.raiseIrq s).irqDmaMask = s.irqDmaMask := rfl
@[simp] theorem raiseIrq_pending (s : State) : (State.raiseIrq s).pending = s.pending := rfl
@[simp] theorem raiseIrq_addr (s : State) : (State.raiseIrq s).addr = s.addr := rfl
@[simp] theorem raiseIrq_xferDma (s : State) : (State.raiseIrq s).xferDma = s.xferDma := rfl
@[simp] theorem raiseIrq_stall (s : State) : (State.raiseIrq s).stall = s.stall := rfl
@[simp] theorem raiseIrq_drives (s : State) : (State.raiseIrq s).drives = s.drives := rfl
@[simp] theorem raiseIrq_switches (s : State) : (State.raiseIrq s).switches = s.switches := rfl
@[simp] theorem raiseIrq_log (s : State) : (State.raiseIrq s).log = s.log ++ [.irqRaised s.params.irqLine] := rfl
@[simp] theorem raiseIrq_fault (s : State) : (State.raiseIrq s).fault = s.fault := rfl
@[simp] theorem raiseIrq_turns (s : State) : (State.raiseIrq s).turns = s.turns := rfl
@[simp] theorem raiseIrq_dma (s : State) : (State.raiseIrq s).dma = s.dma := rfl
@[simp] theorem raiseIrq_busOut (s : State) : (State.raiseIrq s).busOut = s.busOut := rfl
@[simp] theorem raiseIrq_draws (s : State) : (State.raiseIrq s).draws = s.draws := rfl

/-! ### error -/

@[simp] theorem error_params (e : ErrorName) (s : State) : (State.error e s).params = s.params := rfl
@[simp] theorem error_attached (e : ErrorName) (s : State) : (State.error e s).attached = s.attached := rfl
@[simp] theorem error_phase (e : ErrorName) (s : State) : (State.error e s).phase = s.phase := rfl
@[simp] theorem error_status (e : ErrorName) (s : State) : (State.error e s).status = s.status := rfl
@[simp] theorem error_command (e : ErrorName) (s : State) : (State.error e s).command = s.command := rfl
@[simp] theorem error_commandPos (e : ErrorName) (s : State) : (State.error e s).commandPos = s.commandPos := rfl
@[simp] theorem error_buffer (e : ErrorName) (s : State) : (State.error e s).buffer = s.buffer := rfl
@[simp] theorem error_bufPos (e : ErrorName) (s : State) : (State.error e s).bufPos = s.bufPos := rfl
@[simp] theorem error_bufCount (e : ErrorName) (s : State) : (State.error e s).bufCount = s.bufCount := rfl
@[simp] theorem error_errorCode (e : ErrorName) (s : State) : (State.error e s).errorCode = s.params.errCodes.of e := rfl
@[simp] theorem error_completionByte (e : ErrorName) (s : State) : (State.error e s).completionByte = s.completionByte ||| errorPresent := rfl
@[simp] theorem error_driveSelect (e : ErrorName) (s : State) : (State.error e s).driveSelect = s.driveSelect := rfl
@[simp] theorem error_irqDmaMask (e : ErrorName) (s : State) : (State.error e s).irqDmaMask = s.irqDmaMask := rfl
@[simp] theorem error_pending (e : ErrorName) (s : State) : (State.error e s).pending = s.pending := rfl
@[simp] theorem error_addr (e : ErrorName) (s : State) : (State.error e s).addr = s.addr := rfl
@[simp] theorem error_xferDma (e : ErrorName) (s : State) : (State.error e s).xferDma = s.xferDma := rfl
@[simp] theorem error_stall (e : ErrorName) (s : State) : (State.error e s).stall = s.stall := rfl
@[simp] theorem error_drives (e : ErrorName) (s : State) : (State.error e s).drives = s.drives := rfl
@[simp] theorem error_switches (e : ErrorName) (s : State) : (State.error e s).switches = s.switches := rfl
@[simp] theorem error_log (e : ErrorName) (s : State) : (State.error e s).log = s.log := rfl
@[simp] theorem error_fault (e : ErrorName) (s : State) : (State.error e s).fault = s.fault := rfl
@[simp] theorem error_turns (e : ErrorName) (s : State) : (State.error e s).turns = s.turns := rfl
@[simp] theorem error_dma (e : ErrorName) (s : State) : (State.error e s).dma = s.dma := rfl
@[simp] theorem error_busOut (e : ErrorName) (s : State) : (State.error e s).busOut = s.busOut := rfl
@[simp] theorem error_draws (e : ErrorName) (s : State) : (State.error e s).draws = s.draws := rfl

/-! ### returnCompletion -/

@[simp] theorem returnCompletion_params (s : State) : (State.returnCompletion s).params = s.params := rfl
@[simp] theorem returnCompletion_attached (s : State) : (State.returnCompletion s).attached = s.attached := rfl
@[simp] theorem returnCompletion_phase (s : State) : (State.returnCompletion s).phase = .idle := rfl
@[simp] theorem returnCompletion_status (s : State) : (State.returnCompletion s).status = 0 := rfl
@[simp] theorem returnCompletion_command (s : State) : (State.returnCompletion s).command = s.command := rfl
@[simp] theorem returnCompletion_commandPos (s : State) : (State.returnCompletion s).commandPos = s.commandPos := rfl
@[simp] theorem returnCompletion_buffer (s : State) : (State.returnCompletion s).buffer = s.buffer := rfl
@[simp] theorem returnCompletion_bufPos (s : State) : (State.returnCompletion s).bufPos = s.bufPos := rfl
@[simp] theorem returnCompletion_bufCount (s : State) : (State.returnCompletion s).bufCount = s.bufCount := rfl
@[simp] theorem returnCompletion_errorCode (s : State) : (State.returnCompletion s).errorCode = s.errorCode := rfl
@[simp] theorem returnCompletion_completionByte (s : State) : (State.returnCompletion s).completionByte = s.completionByte := rfl
@[simp] theorem returnCompletion_driveSelect (s : State) : (State.returnCompletion s).driveSelect = s.driveSelect := rfl
@[simp] theorem returnCompletion_irqDmaMask (s : State) : (State.returnCompletion s).irqDmaMask = s.irqDmaMask := rfl
@[simp] theorem returnCompletion_pending (s : State) : (State.returnCompletion s).pending = s.pending := rfl
@[simp] theorem returnCompletion_addr (s : State) : (State.returnCompletion s).addr = s.addr := rfl
@[simp] theorem returnCompletion_xferDma (s : State) : (State.returnCompletion s).xferDma = s.xferDma := rfl
@[simp] theorem returnCompletion_stall (s : State) : (State.returnCompletion s).stall = s.stall := rfl
@[simp] theorem returnCompletion_drives (s : State) : (State.returnCompletion s).drives = s.drives := rfl
@[simp] theorem returnCompletion_switches (s : State) : (State.returnCompletion s).switches = s.switches := rfl
@[simp] theorem returnCompletion_log (s : State) : (State.returnCompletion s).log = s.log := rfl
@[simp] theorem returnCompletion_fault (s : State) : (State.returnCompletion s).fault = s.fault := rfl
@[simp] theorem returnCompletion_turns (s : State) : (State.returnCompletion s).turns = s.turns := rfl
@[simp] theorem returnCompletion_dma (s : State) : (State.returnCompletion s).dma = s.dma := rfl
@[simp] theorem returnCompletion_busOut (s : State) : (State.returnCompletion s).busOut = s.completionByte := rfl
@[simp] theorem returnCompletion_draws (s : State) : (State.returnCompletion s).draws = s.draws := rfl

/-! ### prologue -/

@[simp] theorem prologue_params (f : Cdb) (s : State) : (State.prologue f s).params = s.params := rfl
@[simp] theorem prologue_attached (f : Cdb) (s : State) : (State.prologue f s).attached = s.attached := rfl
@[simp] theorem prologue_phase (f : Cdb) (s : State) : (State.prologue f s).phase = s.phase := rfl
@[simp] theorem prologue_status (f : Cdb) (s : State) : (State.prologue f s).status = s.status := rfl
@[simp] theorem prologue_command (f : Cdb) (s : State) : (State.prologue f s).command = s.command := rfl
@[simp] theorem prologue_commandPos (f : Cdb) (s : State) : (State.prologue f s).commandPos = s.commandPos := rfl
@[simp] theorem prologue_buffer (f : Cdb) (s : State) : (State.prologue f s).buffer = s.buffer := rfl
@[simp] theorem prologue_bufPos (f : Cdb) (s : State) : (State.prologue f s).bufPos = s.bufPos := rfl
@[simp] theorem prologue_bufCount (f : Cdb) (s : State) : (State.prologue f s).bufCount = s.bufCount := rfl
@[simp] theorem prologue_errorCode (f : Cdb) (s : State) : (State.prologue f s).errorCode = s.errorCode := rfl
@[simp] theorem prologue_completionByte (f : Cdb) (s : State) : (State.prologue f s).completionByte = f.drive.zeroExtend 8 <<< 5 := rfl
@[simp] theorem prologue_driveSelect (f : Cdb) (s : State) : (State.prologue f s).driveSelect = f.drive := rfl
@[simp] theorem prologue_irqDmaMask (f : Cdb) (s : State) : (State.prologue f s).irqDmaMask = s.irqDmaMask := rfl
@[simp] theorem prologue_pending (f : Cdb) (s : State) : (State.prologue f s).pending = s.pending := rfl
@[simp] theorem prologue_addr (f : Cdb) (s : State) : (State.prologue f s).addr = s.addr := rfl
@[simp] theorem prologue_xferDma (f : Cdb) (s : State) : (State.prologue f s).xferDma = s.xferDma := rfl
@[simp] theorem prologue_stall (f : Cdb) (s : State) : (State.prologue f s).stall = s.stall := rfl
@[simp] theorem prologue_drives (f : Cdb) (s : State) : (State.prologue f s).drives = s.drives := rfl
@[simp] theorem prologue_switches (f : Cdb) (s : State) : (State.prologue f s).switches = s.switches := rfl
@[simp] theorem prologue_log (f : Cdb) (s : State) : (State.prologue f s).log = s.log := rfl
@[simp] theorem prologue_fault (f : Cdb) (s : State) : (State.prologue f s).fault = s.fault := rfl
@[simp] theorem prologue_turns (f : Cdb) (s : State) : (State.prologue f s).turns = s.turns := rfl
@[simp] theorem prologue_dma (f : Cdb) (s : State) : (State.prologue f s).dma = s.dma := rfl
@[simp] theorem prologue_busOut (f : Cdb) (s : State) : (State.prologue f s).busOut = s.busOut := rfl
@[simp] theorem prologue_draws (f : Cdb) (s : State) : (State.prologue f s).draws = s.draws := rfl

/-! ### seekTo -/

@[simp] theorem seekTo_params (d : Nat) (c : BitVec 16) (s : State) : (State.seekTo d c s).params = s.params := rfl
@[simp] theorem seekTo_attached (d : Nat) (c : BitVec 16) (s : State) : (State.seekTo d c s).attached = s.attached := rfl
@[simp] theorem seekTo_phase (d : Nat) (c : BitVec 16) (s : State) : (State.seekTo d c s).phase = s.phase := rfl
@[simp] theorem seekTo_status (d : Nat) (c : BitVec 16) (s : State) : (State.seekTo d c s).status = s.status := rfl
@[simp] theorem seekTo_command (d : Nat) (c : BitVec 16) (s : State) : (State.seekTo d c s).command = s.command := rfl
@[simp] theorem seekTo_commandPos (d : Nat) (c : BitVec 16) (s : State) : (State.seekTo d c s).commandPos = s.commandPos := rfl
@[simp] theorem seekTo_buffer (d : Nat) (c : BitVec 16) (s : State) : (State.seekTo d c s).buffer = s.buffer := rfl
@[simp] theorem seekTo_bufPos (d : Nat) (c : BitVec 16) (s : State) : (State.seekTo d c s).bufPos = s.bufPos := rfl
@[simp] theorem seekTo_bufCount (d : Nat) (c : BitVec 16) (s : State) : (State.seekTo d c s).bufCount = s.bufCount := rfl
@[simp] theorem seekTo_errorCode (d : Nat) (c : BitVec 16) (s : State) : (State.seekTo d c s).errorCode = s.errorCode := rfl
@[simp] theorem seekTo_completionByte (d : Nat) (c : BitVec 16) (s : State) : (State.seekTo d c s).completionByte = s.completionByte := rfl
@[simp] theorem seekTo_driveSelect (d : Nat) (c : BitVec 16) (s : State) : (State.seekTo d c s).driveSelect = s.driveSelect := rfl
@[simp] theorem seekTo_irqDmaMask (d : Nat) (c : BitVec 16) (s : State) : (State.seekTo d c s).irqDmaMask = s.irqDmaMask := rfl
@[simp] theorem seekTo_pending (d : Nat) (c : BitVec 16) (s : State) : (State.seekTo d c s).pending = s.pending := rfl
@[simp] theorem seekTo_addr (d : Nat) (c : BitVec 16) (s : State) : (State.seekTo d c s).addr = s.addr := rfl
@[simp] theorem seekTo_xferDma (d : Nat) (c : BitVec 16) (s : State) : (State.seekTo d c s).xferDma = s.xferDma := rfl
@[simp] theorem seekTo_stall (d : Nat) (c : BitVec 16) (s : State) : (State.seekTo d c s).stall = s.stall := rfl
@[simp] theorem seekTo_drives (d : Nat) (c : BitVec 16) (s : State) : (State.seekTo d c s).drives = s.drives.modify d (fun dr => { dr with currentCylinder := c }) := rfl
@[simp] theorem seekTo_switches (d : Nat) (c : BitVec 16) (s : State) : (State.seekTo d c s).switches = s.switches := rfl
@[simp] theorem seekTo_log (d : Nat) (c : BitVec 16) (s : State) : (State.seekTo d c s).log = s.log := rfl
@[simp] theorem seekTo_fault (d : Nat) (c : BitVec 16) (s : State) : (State.seekTo d c s).fault = s.fault := rfl
@[simp] theorem seekTo_turns (d : Nat) (c : BitVec 16) (s : State) : (State.seekTo d c s).turns = s.turns := rfl
@[simp] theorem seekTo_dma (d : Nat) (c : BitVec 16) (s : State) : (State.seekTo d c s).dma = s.dma := rfl
@[simp] theorem seekTo_busOut (d : Nat) (c : BitVec 16) (s : State) : (State.seekTo d c s).busOut = s.busOut := rfl
@[simp] theorem seekTo_draws (d : Nat) (c : BitVec 16) (s : State) : (State.seekTo d c s).draws = s.draws := rfl

/-! ### setLba -/

@[simp] theorem setLba_params (lba : Nat) (s : State) : (State.setLba lba s).params = s.params := rfl
@[simp] theorem setLba_attached (lba : Nat) (s : State) : (State.setLba lba s).attached = s.attached := rfl
@[simp] theorem setLba_phase (lba : Nat) (s : State) : (State.setLba lba s).phase = s.phase := rfl
@[simp] theorem setLba_status (lba : Nat) (s : State) : (State.setLba lba s).status = s.status := rfl
@[simp] theorem setLba_command (lba : Nat) (s : State) : (State.setLba lba s).command = s.command := rfl
@[simp] theorem setLba_commandPos (lba : Nat) (s : State) : (State.setLba lba s).commandPos = s.commandPos := rfl
@[simp] theorem setLba_buffer (lba : Nat) (s : State) : (State.setLba lba s).buffer = s.buffer := rfl
@[simp] theorem setLba_bufPos (lba : Nat) (s : State) : (State.setLba lba s).bufPos = s.bufPos := rfl
@[simp] theorem setLba_bufCount (lba : Nat) (s : State) : (State.setLba lba s).bufCount = s.bufCount := rfl
@[simp] theorem setLba_errorCode (lba : Nat) (s : State) : (State.setLba lba s).errorCode = s.errorCode := rfl
@[simp] theorem setLba_completionByte (lba : Nat) (s : State) : (State.setLba lba s).completionByte = s.completionByte := rfl
@[simp] theorem setLba_driveSelect (lba : Nat) (s : State) : (State.setLba lba s).driveSelect = s.driveSelect := rfl
@[simp] theorem setLba_irqDmaMask (lba : Nat) (s : State) : (State.setLba lba s).irqDmaMask = s.irqDmaMask := rfl
@[simp] theorem setLba_pending (lba : Nat) (s : State) : (State.setLba lba s).pending = s.pending := rfl
@[simp] theorem setLba_addr (lba : Nat) (s : State) : (State.setLba lba s).addr = { s.addr with lba := BitVec.ofNat 32 lba } := rfl
@[simp] theorem setLba_xferDma (lba : Nat) (s : State) : (State.setLba lba s).xferDma = s.xferDma := rfl
@[simp] theorem setLba_stall (lba : Nat) (s : State) : (State.setLba lba s).stall = s.stall := rfl
@[simp] theorem setLba_drives (lba : Nat) (s : State) : (State.setLba lba s).drives = s.drives := rfl
@[simp] theorem setLba_switches (lba : Nat) (s : State) : (State.setLba lba s).switches = s.switches := rfl
@[simp] theorem setLba_log (lba : Nat) (s : State) : (State.setLba lba s).log = s.log := rfl
@[simp] theorem setLba_fault (lba : Nat) (s : State) : (State.setLba lba s).fault = s.fault := rfl
@[simp] theorem setLba_turns (lba : Nat) (s : State) : (State.setLba lba s).turns = s.turns := rfl
@[simp] theorem setLba_dma (lba : Nat) (s : State) : (State.setLba lba s).dma = s.dma := rfl
@[simp] theorem setLba_busOut (lba : Nat) (s : State) : (State.setLba lba s).busOut = s.busOut := rfl
@[simp] theorem setLba_draws (lba : Nat) (s : State) : (State.setLba lba s).draws = s.draws := rfl

/-! ### countDown -/

@[simp] theorem countDown_params (s : State) : (State.countDown s).params = s.params := rfl
@[simp] theorem countDown_attached (s : State) : (State.countDown s).attached = s.attached := rfl
@[simp] theorem countDown_phase (s : State) : (State.countDown s).phase = s.phase := rfl
@[simp] theorem countDown_status (s : State) : (State.countDown s).status = s.status := rfl
@[simp] theorem countDown_command (s : State) : (State.countDown s).command = s.command := rfl
@[simp] theorem countDown_commandPos (s : State) : (State.countDown s).commandPos = s.commandPos := rfl
@[simp] theorem countDown_buffer (s : State) : (State.countDown s).buffer = s.buffer := rfl
@[simp] theorem countDown_bufPos (s : State) : (State.countDown s).bufPos = s.bufPos := rfl
@[simp] theorem countDown_bufCount (s : State) : (State.countDown s).bufCount = s.bufCount := rfl
@[simp] theorem countDown_errorCode (s : State) : (State.countDown s).errorCode = s.errorCode := rfl
@[simp] theorem countDown_completionByte (s : State) : (State.countDown s).completionByte = s.completionByte := rfl
@[simp] theorem countDown_driveSelect (s : State) : (State.countDown s).driveSelect = s.driveSelect := rfl
@[simp] theorem countDown_irqDmaMask (s : State) : (State.countDown s).irqDmaMask = s.irqDmaMask := rfl
@[simp] theorem countDown_pending (s : State) : (State.countDown s).pending = s.pending := rfl
@[simp] theorem countDown_addr (s : State) : (State.countDown s).addr = { s.addr with count := s.addr.count - 1 } := rfl
@[simp] theorem countDown_xferDma (s : State) : (State.countDown s).xferDma = s.xferDma := rfl
@[simp] theorem countDown_stall (s : State) : (State.countDown s).stall = s.stall := rfl
@[simp] theorem countDown_drives (s : State) : (State.countDown s).drives = s.drives := rfl
@[simp] theorem countDown_switches (s : State) : (State.countDown s).switches = s.switches := rfl
@[simp] theorem countDown_log (s : State) : (State.countDown s).log = s.log := rfl
@[simp] theorem countDown_fault (s : State) : (State.countDown s).fault = s.fault := rfl
@[simp] theorem countDown_turns (s : State) : (State.countDown s).turns = s.turns := rfl
@[simp] theorem countDown_dma (s : State) : (State.countDown s).dma = s.dma := rfl
@[simp] theorem countDown_busOut (s : State) : (State.countDown s).busOut = s.busOut := rfl
@[simp] theorem countDown_draws (s : State) : (State.countDown s).draws = s.draws := rfl

/-! ### clearIrq -/

@[simp] theorem clearIrq_params (s : State) : (State.clearIrq s).params = s.params := rfl
@[simp] theorem clearIrq_attached (s : State) : (State.clearIrq s).attached = s.attached := rfl
@[simp] theorem clearIrq_phase (s : State) : (State.clearIrq s).phase = s.phase := rfl
@[simp] theorem clearIrq_status (s : State) : (State.clearIrq s).status = s.status &&& ~~~IRQ := rfl
@[simp] theorem clearIrq_command (s : State) : (State.clearIrq s).command = s.command := rfl
@[simp] theorem clearIrq_commandPos (s : State) : (State.clearIrq s).commandPos = s.commandPos := rfl
@[simp] theorem clearIrq_buffer (s : State) : (State.clearIrq s).buffer = s.buffer := rfl
@[simp] theorem clearIrq_bufPos (s : State) : (State.clearIrq s).bufPos = s.bufPos := rfl
@[simp] theorem clearIrq_bufCount (s : State) : (State.clearIrq s).bufCount = s.bufCount := rfl
@[simp] theorem clearIrq_errorCode (s : State) : (State.clearIrq s).errorCode = s.errorCode := rfl
@[simp] theorem clearIrq_completionByte (s : State) : (State.clearIrq s).completionByte = s.completionByte := rfl
@[simp] theorem clearIrq_driveSelect (s : State) : (State.clearIrq s).driveSelect = s.driveSelect := rfl
@[simp] theorem clearIrq_irqDmaMask (s : State) : (State.clearIrq s).irqDmaMask = s.irqDmaMask := rfl
@[simp] theorem clearIrq_pending (s : State) : (State.clearIrq s).pending = s.pending := rfl
@[simp] theorem clearIrq_addr (s : State) : (State.clearIrq s).addr = s.addr := rfl
@[simp] theorem clearIrq_xferDma (s : State) : (State.clearIrq s).xferDma = s.xferDma := rfl
@[simp] theorem clearIrq_stall (s : State) : (State.clearIrq s).stall = s.stall := rfl
@[simp] theorem clearIrq_drives (s : State) : (State.clearIrq s).drives = s.drives := rfl
@[simp] theorem clearIrq_switches (s : State) : (State.clearIrq s).switches = s.switches := rfl
@[simp] theorem clearIrq_log (s : State) : (State.clearIrq s).log = s.log := rfl
@[simp] theorem clearIrq_fault (s : State) : (State.clearIrq s).fault = s.fault := rfl
@[simp] theorem clearIrq_turns (s : State) : (State.clearIrq s).turns = s.turns := rfl
@[simp] theorem clearIrq_dma (s : State) : (State.clearIrq s).dma = s.dma := rfl
@[simp] theorem clearIrq_busOut (s : State) : (State.clearIrq s).busOut = s.busOut := rfl
@[simp] theorem clearIrq_draws (s : State) : (State.clearIrq s).draws = s.draws := rfl

/-! ### fillEcc -/

@[simp] theorem fillEcc_params (s : State) : (State.fillEcc s).params = s.params := rfl
@[simp] theorem fillEcc_attached (s : State) : (State.fillEcc s).attached = s.attached := rfl
@[simp] theorem fillEcc_phase (s : State) : (State.fillEcc s).phase = s.phase := rfl
@[simp] theorem fillEcc_status (s : State) : (State.fillEcc s).status = s.status := rfl
@[simp] theorem fillEcc_command (s : State) : (State.fillEcc s).command = s.command := rfl
@[simp] theorem fillEcc_commandPos (s : State) : (State.fillEcc s).commandPos = s.commandPos := rfl
@[simp] theorem fillEcc_buffer (s : State) : (State.fillEcc s).buffer = Memory.writeBytes s.buffer 512 s.params.eccFill.toList := rfl
@[simp] theorem fillEcc_bufPos (s : State) : (State.fillEcc s).bufPos = s.bufPos := rfl
@[simp] theorem fillEcc_bufCount (s : State) : (State.fillEcc s).bufCount = s.bufCount := rfl
@[simp] theorem fillEcc_errorCode (s : State) : (State.fillEcc s).errorCode = s.errorCode := rfl
@[simp] theorem fillEcc_completionByte (s : State) : (State.fillEcc s).completionByte = s.completionByte := rfl
@[simp] theorem fillEcc_driveSelect (s : State) : (State.fillEcc s).driveSelect = s.driveSelect := rfl
@[simp] theorem fillEcc_irqDmaMask (s : State) : (State.fillEcc s).irqDmaMask = s.irqDmaMask := rfl
@[simp] theorem fillEcc_pending (s : State) : (State.fillEcc s).pending = s.pending := rfl
@[simp] theorem fillEcc_addr (s : State) : (State.fillEcc s).addr = s.addr := rfl
@[simp] theorem fillEcc_xferDma (s : State) : (State.fillEcc s).xferDma = s.xferDma := rfl
@[simp] theorem fillEcc_stall (s : State) : (State.fillEcc s).stall = s.stall := rfl
@[simp] theorem fillEcc_drives (s : State) : (State.fillEcc s).drives = s.drives := rfl
@[simp] theorem fillEcc_switches (s : State) : (State.fillEcc s).switches = s.switches := rfl
@[simp] theorem fillEcc_log (s : State) : (State.fillEcc s).log = s.log := rfl
@[simp] theorem fillEcc_fault (s : State) : (State.fillEcc s).fault = s.fault := rfl
@[simp] theorem fillEcc_turns (s : State) : (State.fillEcc s).turns = s.turns := rfl
@[simp] theorem fillEcc_dma (s : State) : (State.fillEcc s).dma = s.dma := rfl
@[simp] theorem fillEcc_busOut (s : State) : (State.fillEcc s).busOut = s.busOut := rfl
@[simp] theorem fillEcc_draws (s : State) : (State.fillEcc s).draws = s.draws := rfl

/-! ### drawDma -/

@[simp] theorem drawDma_params (s : State) : (State.drawDma s).params = s.params := rfl
@[simp] theorem drawDma_attached (s : State) : (State.drawDma s).attached = s.attached := rfl
@[simp] theorem drawDma_phase (s : State) : (State.drawDma s).phase = s.phase := rfl
@[simp] theorem drawDma_status (s : State) : (State.drawDma s).status = s.status := rfl
@[simp] theorem drawDma_command (s : State) : (State.drawDma s).command = s.command := rfl
@[simp] theorem drawDma_commandPos (s : State) : (State.drawDma s).commandPos = s.commandPos := rfl
@[simp] theorem drawDma_buffer (s : State) : (State.drawDma s).buffer = s.buffer := rfl
@[simp] theorem drawDma_bufPos (s : State) : (State.drawDma s).bufPos = s.bufPos := rfl
@[simp] theorem drawDma_bufCount (s : State) : (State.drawDma s).bufCount = s.bufCount := rfl
@[simp] theorem drawDma_errorCode (s : State) : (State.drawDma s).errorCode = s.errorCode := rfl
@[simp] theorem drawDma_completionByte (s : State) : (State.drawDma s).completionByte = s.completionByte := rfl
@[simp] theorem drawDma_driveSelect (s : State) : (State.drawDma s).driveSelect = s.driveSelect := rfl
@[simp] theorem drawDma_irqDmaMask (s : State) : (State.drawDma s).irqDmaMask = s.irqDmaMask := rfl
@[simp] theorem drawDma_pending (s : State) : (State.drawDma s).pending = s.pending := rfl
@[simp] theorem drawDma_addr (s : State) : (State.drawDma s).addr = s.addr := rfl
@[simp] theorem drawDma_xferDma (s : State) : (State.drawDma s).xferDma = s.xferDma := rfl
@[simp] theorem drawDma_stall (s : State) : (State.drawDma s).stall = s.stall := rfl
@[simp] theorem drawDma_drives (s : State) : (State.drawDma s).drives = s.drives := rfl
@[simp] theorem drawDma_switches (s : State) : (State.drawDma s).switches = s.switches := rfl
@[simp] theorem drawDma_log (s : State) : (State.drawDma s).log = s.log := rfl
@[simp] theorem drawDma_fault (s : State) : (State.drawDma s).fault = s.fault := rfl
@[simp] theorem drawDma_turns (s : State) : (State.drawDma s).turns = s.turns := rfl
@[simp] theorem drawDma_dma (s : State) : (State.drawDma s).dma = { read := Config.dmaRead s.draws, write := Config.dmaWrite s.draws } := rfl
@[simp] theorem drawDma_busOut (s : State) : (State.drawDma s).busOut = s.busOut := rfl
@[simp] theorem drawDma_draws (s : State) : (State.drawDma s).draws = s.draws + 1 := rfl

/-! ### detach -/

@[simp] theorem detach_params (s : State) : (State.detach s).params = s.params := rfl
@[simp] theorem detach_attached (s : State) : (State.detach s).attached = false := rfl
@[simp] theorem detach_phase (s : State) : (State.detach s).phase = s.phase := rfl
@[simp] theorem detach_status (s : State) : (State.detach s).status = s.status := rfl
@[simp] theorem detach_command (s : State) : (State.detach s).command = s.command := rfl
@[simp] theorem detach_commandPos (s : State) : (State.detach s).commandPos = s.commandPos := rfl
@[simp] theorem detach_buffer (s : State) : (State.detach s).buffer = s.buffer := rfl
@[simp] theorem detach_bufPos (s : State) : (State.detach s).bufPos = s.bufPos := rfl
@[simp] theorem detach_bufCount (s : State) : (State.detach s).bufCount = s.bufCount := rfl
@[simp] theorem detach_errorCode (s : State) : (State.detach s).errorCode = s.errorCode := rfl
@[simp] theorem detach_completionByte (s : State) : (State.detach s).completionByte = s.completionByte := rfl
@[simp] theorem detach_driveSelect (s : State) : (State.detach s).driveSelect = s.driveSelect := rfl
@[simp] theorem detach_irqDmaMask (s : State) : (State.detach s).irqDmaMask = s.irqDmaMask := rfl
@[simp] theorem detach_pending (s : State) : (State.detach s).pending = none := rfl
@[simp] theorem detach_addr (s : State) : (State.detach s).addr = s.addr := rfl
@[simp] theorem detach_xferDma (s : State) : (State.detach s).xferDma = s.xferDma := rfl
@[simp] theorem detach_stall (s : State) : (State.detach s).stall = s.stall := rfl
@[simp] theorem detach_drives (s : State) : (State.detach s).drives = s.drives := rfl
@[simp] theorem detach_switches (s : State) : (State.detach s).switches = s.switches := rfl
@[simp] theorem detach_log (s : State) : (State.detach s).log = s.log := rfl
@[simp] theorem detach_fault (s : State) : (State.detach s).fault = s.fault := rfl
@[simp] theorem detach_turns (s : State) : (State.detach s).turns = s.turns := rfl
@[simp] theorem detach_dma (s : State) : (State.detach s).dma = s.dma := rfl
@[simp] theorem detach_busOut (s : State) : (State.detach s).busOut = s.busOut := rfl
@[simp] theorem detach_draws (s : State) : (State.detach s).draws = s.draws := rfl

/-! ### complete and fail -/

@[simp] theorem complete_params (s : State) :
    (State.complete s).params = s.params := by
  by_cases h : irqEnabled s.irqDmaMask <;> simp [State.complete, h]
@[simp] theorem complete_attached (s : State) :
    (State.complete s).attached = s.attached := by
  by_cases h : irqEnabled s.irqDmaMask <;> simp [State.complete, h]
@[simp] theorem complete_phase (s : State) :
    (State.complete s).phase = .completionByte := by
  by_cases h : irqEnabled s.irqDmaMask <;> simp [State.complete, h]
@[simp] theorem complete_status (s : State) :
    (State.complete s).status = completeStatus (irqEnabled s.irqDmaMask) := by
  by_cases h : irqEnabled s.irqDmaMask <;> simp [State.complete, h]
@[simp] theorem complete_command (s : State) :
    (State.complete s).command = s.command := by
  by_cases h : irqEnabled s.irqDmaMask <;> simp [State.complete, h]
@[simp] theorem complete_commandPos (s : State) :
    (State.complete s).commandPos = s.commandPos := by
  by_cases h : irqEnabled s.irqDmaMask <;> simp [State.complete, h]
@[simp] theorem complete_buffer (s : State) :
    (State.complete s).buffer = s.buffer := by
  by_cases h : irqEnabled s.irqDmaMask <;> simp [State.complete, h]
@[simp] theorem complete_bufPos (s : State) :
    (State.complete s).bufPos = s.bufPos := by
  by_cases h : irqEnabled s.irqDmaMask <;> simp [State.complete, h]
@[simp] theorem complete_bufCount (s : State) :
    (State.complete s).bufCount = s.bufCount := by
  by_cases h : irqEnabled s.irqDmaMask <;> simp [State.complete, h]
@[simp] theorem complete_errorCode (s : State) :
    (State.complete s).errorCode = s.errorCode := by
  by_cases h : irqEnabled s.irqDmaMask <;> simp [State.complete, h]
@[simp] theorem complete_completionByte (s : State) :
    (State.complete s).completionByte = s.completionByte := by
  by_cases h : irqEnabled s.irqDmaMask <;> simp [State.complete, h]
@[simp] theorem complete_driveSelect (s : State) :
    (State.complete s).driveSelect = s.driveSelect := by
  by_cases h : irqEnabled s.irqDmaMask <;> simp [State.complete, h]
@[simp] theorem complete_irqDmaMask (s : State) :
    (State.complete s).irqDmaMask = s.irqDmaMask := by
  by_cases h : irqEnabled s.irqDmaMask <;> simp [State.complete, h]
@[simp] theorem complete_pending (s : State) :
    (State.complete s).pending = s.pending := by
  by_cases h : irqEnabled s.irqDmaMask <;> simp [State.complete, h]
@[simp] theorem complete_addr (s : State) :
    (State.complete s).addr = s.addr := by
  by_cases h : irqEnabled s.irqDmaMask <;> simp [State.complete, h]
@[simp] theorem complete_xferDma (s : State) :
    (State.complete s).xferDma = s.xferDma := by
  by_cases h : irqEnabled s.irqDmaMask <;> simp [State.complete, h]
@[simp] theorem complete_stall (s : State) :
    (State.complete s).stall = s.stall := by
  by_cases h : irqEnabled s.irqDmaMask <;> simp [State.complete, h]
@[simp] theorem complete_drives (s : State) :
    (State.complete s).drives = s.drives := by
  by_cases h : irqEnabled s.irqDmaMask <;> simp [State.complete, h]
@[simp] theorem complete_switches (s : State) :
    (State.complete s).switches = s.switches := by
  by_cases h : irqEnabled s.irqDmaMask <;> simp [State.complete, h]
@[simp] theorem complete_log (s : State) :
    (State.complete s).log = if irqEnabled s.irqDmaMask then s.log ++ [.irqRaised s.params.irqLine] else s.log := by
  by_cases h : irqEnabled s.irqDmaMask <;> simp [State.complete, h]
@[simp] theorem complete_fault (s : State) :
    (State.complete s).fault = s.fault := by
  by_cases h : irqEnabled s.irqDmaMask <;> simp [State.complete, h]
@[simp] theorem complete_turns (s : State) :
    (State.complete s).turns = s.turns := by
  by_cases h : irqEnabled s.irqDmaMask <;> simp [State.complete, h]
@[simp] theorem complete_dma (s : State) :
    (State.complete s).dma = s.dma := by
  by_cases h : irqEnabled s.irqDmaMask <;> simp [State.complete, h]
@[simp] theorem complete_busOut (s : State) :
    (State.complete s).busOut = s.busOut := by
  by_cases h : irqEnabled s.irqDmaMask <;> simp [State.complete, h]
@[simp] theorem complete_draws (s : State) :
    (State.complete s).draws = s.draws := by
  by_cases h : irqEnabled s.irqDmaMask <;> simp [State.complete, h]
@[simp] theorem fail_params (e : ErrorName) (s : State) :
    (State.fail e s).params = s.params := by
  simp [State.fail]
@[simp] theorem fail_attached (e : ErrorName) (s : State) :
    (State.fail e s).attached = s.attached := by
  simp [State.fail]
@[simp] theorem fail_phase (e : ErrorName) (s : State) :
    (State.fail e s).phase = .completionByte := by
  simp [State.fail]
@[simp] theorem fail_status (e : ErrorName) (s : State) :
    (State.fail e s).status = completeStatus (irqEnabled s.irqDmaMask) := by
  simp [State.fail]
@[simp] theorem fail_command (e : ErrorName) (s : State) :
    (State.fail e s).command = s.command := by
  simp [State.fail]
@[simp] theorem fail_commandPos (e : ErrorName) (s : State) :
    (State.fail e s).commandPos = s.commandPos := by
  simp [State.fail]
@[simp] theorem fail_buffer (e : ErrorName) (s : State) :
    (State.fail e s).buffer = s.buffer := by
  simp [State.fail]
@[simp] theorem fail_bufPos (e : ErrorName) (s : State) :
    (State.fail e s).bufPos = s.bufPos := by
  simp [State.fail]
@[simp] theorem fail_bufCount (e : ErrorName) (s : State) :
    (State.fail e s).bufCount = s.bufCount := by
  simp [State.fail]
@[simp] theorem fail_errorCode (e : ErrorName) (s : State) :
    (State.fail e s).errorCode = s.params.errCodes.of e := by
  simp [State.fail]
@[simp] theorem fail_completionByte (e : ErrorName) (s : State) :
    (State.fail e s).completionByte = s.completionByte ||| errorPresent := by
  simp [State.fail]
@[simp] theorem fail_driveSelect (e : ErrorName) (s : State) :
    (State.fail e s).driveSelect = s.driveSelect := by
  simp [State.fail]
@[simp] theorem fail_irqDmaMask (e : ErrorName) (s : State) :
    (State.fail e s).irqDmaMask = s.irqDmaMask := by
  simp [State.fail]
@[simp] theorem fail_pending (e : ErrorName) (s : State) :
    (State.fail e s).pending = s.pending := by
  simp [State.fail]
@[simp] theorem fail_addr (e : ErrorName) (s : State) :
    (State.fail e s).addr = s.addr := by
  simp [State.fail]
@[simp] theorem fail_xferDma (e : ErrorName) (s : State) :
    (State.fail e s).xferDma = s.xferDma := by
  simp [State.fail]
@[simp] theorem fail_stall (e : ErrorName) (s : State) :
    (State.fail e s).stall = s.stall := by
  simp [State.fail]
@[simp] theorem fail_drives (e : ErrorName) (s : State) :
    (State.fail e s).drives = s.drives := by
  simp [State.fail]
@[simp] theorem fail_switches (e : ErrorName) (s : State) :
    (State.fail e s).switches = s.switches := by
  simp [State.fail]
@[simp] theorem fail_log (e : ErrorName) (s : State) :
    (State.fail e s).log = if irqEnabled s.irqDmaMask then s.log ++ [.irqRaised s.params.irqLine] else s.log := by
  simp [State.fail]; rfl
@[simp] theorem fail_fault (e : ErrorName) (s : State) :
    (State.fail e s).fault = s.fault := by
  simp [State.fail]
@[simp] theorem fail_turns (e : ErrorName) (s : State) :
    (State.fail e s).turns = s.turns := by
  simp [State.fail]
@[simp] theorem fail_dma (e : ErrorName) (s : State) :
    (State.fail e s).dma = s.dma := by
  simp [State.fail]
@[simp] theorem fail_busOut (e : ErrorName) (s : State) :
    (State.fail e s).busOut = s.busOut := by
  simp [State.fail]
@[simp] theorem fail_draws (e : ErrorName) (s : State) :
    (State.fail e s).draws = s.draws := by
  simp [State.fail]

end Sys2Proof.Machine
end

