-- ==== Sys2Proof/Laws/Results.lean ====
section
/-! SUPPORT. The shared operations in the spec's numbers: each operation of Machine/Ops.lean equals its description in
Safety.lean, so that a proof never unfolds a mask or a status constant. -/

namespace Sys2Proof.Machine

theorem dmaEnabled_eq (m : Byte) : dmaEnabled m = m.getLsbD 0 := by
  revert m; decide

theorem irqEnabled_eq (m : Byte) : irqEnabled m = m.getLsbD 1 := by
  revert m; decide

theorem sendStatus_eq (b : Bool) : sendStatus b = if b then 0x1A#8 else 0x0B#8 := by
  cases b <;> rfl

theorem receiveStatus_eq (b : Bool) : receiveStatus b = if b then 0x18#8 else 0x09#8 := by
  cases b <;> rfl

theorem completeStatus_eq (b : Bool) : completeStatus b = if b then 0x2F#8 else 0x0F#8 := by
  cases b <;> rfl

theorem prologue_eq_begun (f : Cdb) (s : State) : s.prologue f = s.begun f := rfl

/-- Everything `Complete()` does (41_state_machine.md R180). -/
theorem complete_eq_completed (s : State) : s.complete = s.completed := by
  simp only [State.complete, State.completed, irqEnabled_eq, completeStatus_eq]
  split <;> rfl

/-- Everything an error that completes the command does (R181, R182). -/
theorem fail_eq_failed (e : ErrorName) (s : State) : s.fail e = s.failed e := by
  simp only [State.fail, complete_eq_completed]
  rfl

/-- Everything `EnterSend(n)` does (R175). -/
theorem enterSend_eq_sending (n : Nat) (s : State) : s.enterSend n = s.sending n := by
  simp only [State.enterSend, State.sending, dmaEnabled_eq, sendStatus_eq]
  rfl

/-- Everything `EnterReceive(n)` does (R176). -/
theorem enterReceive_eq_receiving (n : Nat) (s : State) : s.enterReceive n = s.receiving n := by
  simp only [State.enterReceive, State.receiving, dmaEnabled_eq, receiveStatus_eq]
  rfl

theorem enterDone_eq_waiting (d : Delay) (s : State) : s.enterDone d = s.waiting d := rfl

theorem begun_d (f : Cdb) (s : State) : (s.begun f).d = f.drive.toNat := rfl

theorem driveOk_iff (d : Nat) (s : State) : s.driveOk d = true ↔ ∃ dr, s.hasDrive d dr := by
  unfold State.driveOk State.hasDrive
  cases s.drives[d]? <;> simp

theorem driveOk_false_iff (d : Nat) (s : State) : s.driveOk d = false ↔ s.lacksDrive d := by
  unfold State.driveOk State.lacksDrive
  cases s.drives[d]? <;> simp

/-- A slot holds one drive. -/
theorem hasDrive_unique {d : Nat} {s : State} {dr dr' : Drive} (h : s.hasDrive d dr) (h' : s.hasDrive d dr') :
    dr = dr' := by
  have e := h.1.symm.trans h'.1
  injection e

theorem hasDrive_not_lacksDrive {d : Nat} {s : State} {dr : Drive} (h : s.hasDrive d dr) (h' : s.lacksDrive d) :
    False := by
  have e := h' dr h.1
  rw [h.2] at e
  cases e

/-- The two ways a completion shows itself (R180). -/
theorem completed_cases (s : State) :
    (s.irqDmaMask.getLsbD 1 = true ∧
      s.completed =
        { s with phase := .completionByte, status := 0x2F, log := s.log ++ [.irqRaised s.params.irqLine] }) ∨
    (s.irqDmaMask.getLsbD 1 = false ∧ s.completed = { s with phase := .completionByte, status := 0x0F }) := by
  unfold State.completed
  cases s.irqDmaMask.getLsbD 1
  · exact .inr ⟨rfl, by simp⟩
  · exact .inl ⟨rfl, by simp⟩

end Sys2Proof.Machine
end

