-- ==== Sys2Proof/Laws/Address.lean ====
section
/-! SUPPORT. What the address operations do, each said once by its cases: decodeCHS, translate, nextSector and the
sub-steps built on them, and the image collaborator's calls. -/

namespace Sys2Proof.Machine

theorem addressOf_eq_addressed (f : Cdb) (s : State) :
    { s with addr := addressOf s.params f s.addr } = s.addressed f := by
  simp [addressOf, State.addressed]

@[simp] theorem seekTo_eq_seeked (d : Nat) (c : BitVec 16) (s : State) : s.seekTo d c = s.seeked d c := rfl

/-- A slot of the drives after one was changed. -/
theorem getElem?_onDrive (d : Nat) (g : Drive → Drive) (s : State) (k : Nat) :
    (s.onDrive d g).drives[k]? = (s.drives[k]?).map (fun dr => if d = k then g dr else dr) := by
  simp [State.onDrive, List.getElem?_modify]

theorem getElem?_seeked (d : Nat) (c : BitVec 16) (s : State) (k : Nat) :
    (s.seeked d c).drives[k]? =
      (s.drives[k]?).map (fun dr => if d = k then { dr with currentCylinder := c } else dr) := by
  simp [State.seeked, List.getElem?_modify]

/-- The two answers of decodeCHS on a slot that exists (42_chs_translator.md R200, R201). -/
theorem decodeChs_of_slot {d : Nat} {f : Cdb} {s : State} {dr : Drive} (h : s.drives[d]? = some dr) :
    ((s.addressed f).addr.cyl.toNat < dr.cfg.cylinders.toNat ∧
      s.decodeChs d f = (true, (s.addressed f).seeked d (s.addressed f).addr.cyl)) ∨
    (dr.cfg.cylinders.toNat ≤ (s.addressed f).addr.cyl.toNat ∧
      s.decodeChs d f = (false, (s.addressed f).seeked d (lastCylinder dr.cfg))) := by
  have e : s.decodeChs d f =
      if (s.addressed f).addr.cyl.toNat < dr.cfg.cylinders.toNat then
        (true, (s.addressed f).seeked d (s.addressed f).addr.cyl)
      else (false, (s.addressed f).seeked d (lastCylinder dr.cfg)) := by
    unfold State.decodeChs
    rw [addressOf_eq_addressed, h]
    rfl
  by_cases hc : (s.addressed f).addr.cyl.toNat < dr.cfg.cylinders.toNat
  · exact .inl ⟨hc, by rw [e, if_pos hc]⟩
  · exact .inr ⟨by omega, by rw [e, if_neg hc]⟩

/-- RequireDrive (44_commands.md R240). -/
theorem requireDrive_cases (s : State) :
    (s.lacksDrive s.d ∧ s.requireDrive = .error (s.failed .notReady)) ∨
    (∃ dr, s.hasDrive s.d dr ∧ s.requireDrive = .ok s) := by
  unfold State.requireDrive
  cases h : s.driveOk s.d
  · exact .inl ⟨(driveOk_false_iff _ _).mp h, by simp [fail_eq_failed]⟩
  · obtain ⟨dr, hd⟩ := (driveOk_iff _ _).mp h
    exact .inr ⟨dr, hd, by simp⟩

/-- SetupAddress (44_commands.md R241). -/
theorem setupAddress_cases (e : ErrorName) (f : Cdb) (s : State) :
    (s.lacksDrive s.d ∧ s.setupAddress e f = .error (s.failed .notReady)) ∨
    (∃ dr, s.hasDrive s.d dr ∧
      (((s.addressed f).addr.cyl.toNat < dr.cfg.cylinders.toNat ∧
        s.setupAddress e f = .ok ((s.addressed f).seeked s.d (s.addressed f).addr.cyl)) ∨
      (dr.cfg.cylinders.toNat ≤ (s.addressed f).addr.cyl.toNat ∧
        s.setupAddress e f = .error (((s.addressed f).seeked s.d (lastCylinder dr.cfg)).failed e)))) := by
  unfold State.setupAddress
  rcases requireDrive_cases s with ⟨hl, hr⟩ | ⟨dr, hd, hr⟩
  · exact .inl ⟨hl, by rw [hr]⟩
  · refine .inr ⟨dr, hd, ?_⟩
    rcases decodeChs_of_slot (f := f) hd.1 with ⟨hc, h⟩ | ⟨hc, h⟩
    · exact .inl ⟨hc, by simp only [hr, h]⟩
    · exact .inr ⟨hc, by simp only [hr, h, fail_eq_failed]⟩

/-- When translate answers a block, and which (42_chs_translator.md R203). -/
theorem translate_ok_iff {d : Nat} {c : BitVec 16} {h sct : Byte} {s : State} {n : Nat} :
    s.translate d c h sct = .ok n ↔
      ∃ dr, s.hasDrive d dr ∧ dr.currentCylinder = c ∧ h.toNat < dr.cfg.heads.toNat ∧
        sct.toNat < dr.cfg.spt.toNat ∧ n = dr.cfg.lba c.toNat h.toNat sct.toNat := by
  unfold State.translate State.hasDrive Geometry.lba
  cases hd : s.drives[d]? with
  | none => simp
  | some dr =>
    by_cases hp : dr.present
    · by_cases hc : dr.currentCylinder = c
      · by_cases hh : dr.cfg.heads.toNat ≤ h.toNat
        · simp [hp, hc, hh]
        · by_cases hs : dr.cfg.spt.toNat ≤ sct.toNat
          · simp [hp, hc, hh, hs]
          · simp only [hp, Bool.true_eq_false, ↓reduceIte, hc, ne_eq, not_true_eq_false, hh, hs,
              Except.ok.injEq, Option.some.injEq]
            constructor
            · rintro rfl; exact ⟨dr, ⟨rfl, hp⟩, hc, by omega, by omega, rfl⟩
            · rintro ⟨dr', ⟨rfl, _⟩, _, _, _, rfl⟩; rfl
      · simp [hp, hc]
    · simp [hp]

/-- Every error of translate is NotReady or IllegalAddress, and which tells a missing drive (R203, R204). -/
theorem translate_error {d : Nat} {c : BitVec 16} {h sct : Byte} {s : State} {e : ErrorName}
    (he : s.translate d c h sct = .error e) :
    (e = .notReady ∧ s.lacksDrive d) ∨ (e = .illegalAddress ∧ ∃ dr, s.hasDrive d dr ∧
      (dr.currentCylinder ≠ c ∨ dr.cfg.heads.toNat ≤ h.toNat ∨ dr.cfg.spt.toNat ≤ sct.toNat)) := by
  unfold State.translate at he
  unfold State.hasDrive State.lacksDrive
  cases hd : s.drives[d]? with
  | none => simp only [hd] at he; cases he; exact .inl ⟨rfl, by simp⟩
  | some dr =>
    simp only [hd] at he
    split at he
    · rename_i hp; cases he; exact .inl ⟨rfl, by simp [hp]⟩
    · rename_i hp
      have hp : dr.present = true := by simpa using hp
      split at he
      · rename_i hc; cases he; exact .inr ⟨rfl, dr, ⟨rfl, hp⟩, .inl hc⟩
      · split at he
        · rename_i hh; cases he; exact .inr ⟨rfl, dr, ⟨rfl, hp⟩, .inr (.inl hh)⟩
        · split at he
          · rename_i hs; cases he; exact .inr ⟨rfl, dr, ⟨rfl, hp⟩, .inr (.inr hs)⟩
          · cases he

/-- The translation sub-step: the block address, or the command fails (44_commands.md R252, R277). -/
theorem locate_cases (h sct : Byte) (s : State) :
    (∃ dr, s.hasDrive s.d dr ∧ dr.currentCylinder = s.addr.cyl ∧ h.toNat < dr.cfg.heads.toNat ∧
      sct.toNat < dr.cfg.spt.toNat ∧
      s.locate h sct = .ok (s.setLba (dr.cfg.lba s.addr.cyl.toNat h.toNat sct.toNat))) ∨
    (s.locate h sct = .error (s.failed .notReady) ∧ s.lacksDrive s.d) ∨
    (s.locate h sct = .error (s.failed .illegalAddress) ∧ ∃ dr, s.hasDrive s.d dr ∧
      (dr.currentCylinder ≠ s.addr.cyl ∨ dr.cfg.heads.toNat ≤ h.toNat ∨ dr.cfg.spt.toNat ≤ sct.toNat)) := by
  unfold State.locate
  cases ht : s.translate s.d s.addr.cyl h sct with
  | ok n =>
    obtain ⟨dr, hd, hc, hh, hs, rfl⟩ := translate_ok_iff.mp ht
    exact .inl ⟨dr, hd, hc, hh, hs, rfl⟩
  | error e =>
    rcases translate_error ht with ⟨rfl, hl⟩ | ⟨rfl, hx⟩
    · exact .inr (.inl ⟨by simp [fail_eq_failed], hl⟩)
    · exact .inr (.inr ⟨by simp [fail_eq_failed], hx⟩)

/-- A block address on a geometry lies in its blocks, and fits `addr.lba` (42_chs_translator.md R205). -/
theorem lba_lt_blocks {g : Geometry} {c h s : Nat} (hc : c < g.cylinders.toNat) (hh : h < g.heads.toNat)
    (hs : s < g.spt.toNat) : g.lba c h s < g.blocks := by
  unfold Geometry.lba Geometry.blocks
  have h1 : c * g.heads.toNat + h < g.cylinders.toNat * g.heads.toNat := by nlinarith
  nlinarith

theorem blocks_lt (g : Geometry) : g.blocks < 2 ^ 32 := by
  unfold Geometry.blocks
  have h1 := g.cylinders.isLt
  have h2 := g.heads.isLt
  have h3 := g.spt.isLt
  have h4 : g.cylinders.toNat * g.heads.toNat ≤ 65535 * 255 := Nat.mul_le_mul (by omega) (by omega)
  have h5 : g.cylinders.toNat * g.heads.toNat * g.spt.toNat ≤ 65535 * 255 * 255 := Nat.mul_le_mul h4 (by omega)
  omega

theorem toNat_lba {g : Geometry} {c h s : Nat} (hc : c < g.cylinders.toNat) (hh : h < g.heads.toNat)
    (hs : s < g.spt.toNat) : (BitVec.ofNat 32 (g.lba c h s)).toNat = g.lba c h s := by
  have := lba_lt_blocks hc hh hs
  have := blocks_lt g
  simp only [BitVec.toNat_ofNat]
  omega

/-- The clamped cylinder (42_chs_translator.md R201). -/
theorem toNat_lastCylinder (g : Geometry) : (lastCylinder g).toNat = g.cylinders.toNat - 1 := by
  unfold lastCylinder
  by_cases h : g.cylinders = 0
  · simp [h]
  · rw [if_neg h]
    have : g.cylinders.toNat ≠ 0 := fun e => h (BitVec.eq_of_toNat_eq (by simpa using e))
    rw [BitVec.toNat_sub_of_le]
    · simp
    · simp [BitVec.le_def]; omega

/-- nextSector keeps a cylinder in range in range, and count and lba as they are (42_chs_translator.md R206, R207). -/
theorem advance_cyl_lt {g : Geometry} {a : Address} (h : a.cyl.toNat < g.cylinders.toNat) :
    (advance g a).cyl.toNat < g.cylinders.toNat := by
  unfold advance
  dsimp only
  split
  · exact h
  · split
    · exact h
    · dsimp only
      split
      · assumption
      · rw [toNat_lastCylinder]; omega

@[simp] theorem advance_count (g : Geometry) (a : Address) : (advance g a).count = a.count := by
  unfold advance; dsimp only; split <;> [rfl; skip]; split <;> rfl

@[simp] theorem advance_lba (g : Geometry) (a : Address) : (advance g a).lba = a.lba := by
  unfold advance; dsimp only; split <;> [rfl; skip]; split <;> rfl

/-- nextSector stays inside the tracks and heads of a geometry that has any (42_chs_translator.md R210). -/
theorem advance_in_range {g : Geometry} {a : Address} (hs : a.sector.toNat < g.spt.toNat)
    (hh : a.head.toNat < g.heads.toNat) :
    (advance g a).sector.toNat < g.spt.toNat ∧ (advance g a).head.toNat < g.heads.toNat := by
  unfold advance
  dsimp only
  split
  · exact ⟨by assumption, hh⟩
  · split
    · exact ⟨by simp; omega, by assumption⟩
    · exact ⟨by simp; omega, by simp; omega⟩

/-- nextSector on a slot that exists (R206, R208). -/
theorem nextSector_of_slot {d : Nat} {s : State} {dr : Drive} (h : s.drives[d]? = some dr) :
    s.nextSector d = State.seeked d (advance dr.cfg s.addr).cyl { s with addr := advance dr.cfg s.addr } := by
  unfold State.nextSector
  simp only [h, seekTo_eq_seeked]

/-! ## The image collaborator (20_memory.md R80 to R83) -/

theorem imageHas_iff (d lba n : Nat) (s : State) :
    s.imageHas d lba n = true ↔ ∃ dr, s.hasDrive d dr ∧ lba + n ≤ dr.phys.blocks := by
  unfold State.imageHas State.hasDrive
  cases s.drives[d]? <;> simp

/-- ImageRead into the buffer: 512 bytes of it are the block's, the others stay; or the mark is set. -/
theorem imageToBuffer_cases (d lba : Nat) (s : State) :
    (s.imageHas d lba 1 = true ∧ ∃ m, s.imageToBuffer d lba = .ok { s with buffer := m } ∧
      (Memory.wf s.buffer → Memory.wf m) ∧ (∀ N, 512 ≤ N → Memory.below s.buffer N → Memory.below m N) ∧
      ∀ a, Memory.read m a = if a < 512 then s.imageByte d (lba * 512 + a) else Memory.read s.buffer a) ∨
    (s.imageHas d lba 1 = false ∧ s.imageToBuffer d lba = .error s.markFault) := by
  unfold State.imageToBuffer
  cases h : s.imageHas d lba 1
  · exact .inr ⟨rfl, by simp⟩
  · refine .inl ⟨rfl, _, if_pos rfl, fun hw => Memory.wf_writeBytes hw _ _, fun N hN hb =>
      Memory.below_writeBytes hb (by simpa using hN), fun a => ?_⟩
    rw [Memory.read_writeBytes]
    by_cases ha : a < 512
    · simp [ha, List.getD_eq_getElem?_getD]
    · simp [ha]

/-- A byte of an image after a change of one drive's image. -/
theorem imageByte_onDrive_image (d : Nat) (g : Memory → Memory) (s : State) (k a : Nat) :
    State.imageByte k a (s.onDrive d (fun dr => { dr with image := g dr.image })) =
      if d = k ∧ k < s.drives.length then
        Memory.read (g ((s.drives[k]?.map Drive.image).getD [])) a
      else s.imageByte k a := by
  unfold State.imageByte
  rw [getElem?_onDrive]
  by_cases hk : k < s.drives.length
  · by_cases hd : d = k <;> simp [hk, hd]
  · simp [hk]

/-- ImageWrite from the buffer: the block holds the buffer's first 512 bytes, every other byte of every image stays,
nothing else of a drive changes, the event is logged; or the mark is set. -/
theorem bufferToImage_cases (d lba : Nat) (s : State) :
    (s.imageHas d lba 1 = true ∧ ∃ ds, s.bufferToImage d lba =
        .ok { s with drives := ds, log := s.log ++ [.imageWritten d lba] } ∧
      ds = s.drives.modify d (fun dr =>
        { dr with image := Memory.writeBytes dr.image (lba * 512) (Memory.readBytes s.buffer 0 512) }) ∧
      ∀ k a, State.imageByte k a { s with drives := ds } =
        if k = d ∧ lba * 512 ≤ a ∧ a < lba * 512 + 512 then Memory.read s.buffer (a - lba * 512)
        else s.imageByte k a) ∨
    (s.imageHas d lba 1 = false ∧ s.bufferToImage d lba = .error s.markFault) := by
  unfold State.bufferToImage
  cases h : s.imageHas d lba 1
  · exact .inr ⟨rfl, by simp⟩
  · refine .inl ⟨rfl, _, if_pos rfl, rfl, fun k a => ?_⟩
    have e := imageByte_onDrive_image d
      (fun m => Memory.writeBytes m (lba * 512) (Memory.readBytes s.buffer 0 512)) s k a
    refine e.trans ?_
    obtain ⟨dr, hd, _⟩ := (imageHas_iff _ _ _ _).mp h
    by_cases hk : d = k
    · subst hk
      have hlt : d < s.drives.length := (List.getElem?_eq_some_iff.mp hd.1).1
      rw [if_pos ⟨rfl, hlt⟩, Memory.read_writeBytes]
      simp only [Memory.length_readBytes, true_and]
      by_cases ha : lba * 512 ≤ a ∧ a < lba * 512 + 512
      · rw [if_pos ha, if_pos ha, Memory.getD_readBytes _ _ _ _ (by omega), Nat.zero_add]
      · rw [if_neg ha, if_neg ha]
        simp [State.imageByte, hd.1]
    · rw [if_neg (fun x => hk x.1), if_neg (fun x => hk x.1.symm)]

/-- ImageZero: the blocks hold zeros, every other byte of every image stays, nothing else of a drive changes, the event
is logged; or the mark is set. -/
theorem imageZero_cases (d lba n : Nat) (s : State) :
    (n = 0 ∧ s.imageZero d lba n = .ok s) ∨
    (n ≠ 0 ∧ s.imageHas d lba n = true ∧ ∃ ds, s.imageZero d lba n =
        .ok { s with drives := ds, log := s.log ++ [.imageZeroed d lba n] } ∧
      ds = s.drives.modify d (fun dr => { dr with image := Memory.zero dr.image (lba * 512) (n * 512) }) ∧
      ∀ k a, State.imageByte k a { s with drives := ds } =
        if k = d ∧ lba * 512 ≤ a ∧ a < lba * 512 + n * 512 then 0#8 else s.imageByte k a) ∨
    (n ≠ 0 ∧ s.imageHas d lba n = false ∧ s.imageZero d lba n = .error s.markFault) := by
  unfold State.imageZero
  by_cases hn : n = 0
  · exact .inl ⟨hn, if_pos hn⟩
  · cases h : s.imageHas d lba n
    · exact .inr (.inr ⟨hn, rfl, by simp [hn]⟩)
    · refine .inr (.inl ⟨hn, rfl, _, by rw [if_neg hn]; exact if_pos rfl, rfl, fun k a => ?_⟩)
      have e := imageByte_onDrive_image d (fun m => Memory.zero m (lba * 512) (n * 512)) s k a
      refine e.trans ?_
      obtain ⟨dr, hd, _⟩ := (imageHas_iff _ _ _ _).mp h
      by_cases hk : d = k
      · subst hk
        have hlt : d < s.drives.length := (List.getElem?_eq_some_iff.mp hd.1).1
        rw [if_pos ⟨rfl, hlt⟩, Memory.read_zero]
        by_cases ha : lba * 512 ≤ a ∧ a < lba * 512 + n * 512
        · rw [if_pos ha, if_pos ⟨rfl, ha⟩]
        · rw [if_neg ha, if_neg (fun x => ha x.2)]
          simp [State.imageByte, hd.1]
      · rw [if_neg (fun x => hk x.1), if_neg (fun x => hk x.1.symm)]

/-! ## From a valid address -/

/-- A drive that has seeked differs in its cylinder only. -/
theorem hasDrive_seeked {s : State} {d : Nat} {c : BitVec 16} {dr : Drive} (h : s.hasDrive d dr) :
    (s.seeked d c).hasDrive d { dr with currentCylinder := c } := by
  refine ⟨?_, h.2⟩
  rw [getElem?_seeked, h.1]
  simp

/-- `SetupAddress` of a cylinder in range (R241, R201). -/
theorem setupAddress_inRange {e : ErrorName} {f : Cdb} {s : State} {dr : Drive} (h : s.hasDrive s.d dr)
    (hc : (s.addressed f).addr.cyl.toNat < dr.cfg.cylinders.toNat) :
    s.setupAddress e f = .ok ((s.addressed f).seeked s.d (s.addressed f).addr.cyl) := by
  rcases setupAddress_cases e f s with ⟨hl, _⟩ | ⟨dr', hd, ⟨_, h1⟩ | ⟨h2, _⟩⟩
  · exact (hasDrive_not_lacksDrive h hl).elim
  · exact h1
  · obtain rfl := hasDrive_unique h hd
    omega

/-- The translation of a valid address (R203). -/
theorem locate_valid {s : State} {dr : Drive} {h sct : Byte} (hd : s.hasDrive s.d dr)
    (hc : dr.currentCylinder = s.addr.cyl) (hh : h.toNat < dr.cfg.heads.toNat) (hs : sct.toNat < dr.cfg.spt.toNat) :
    s.locate h sct = .ok (s.setLba (dr.cfg.lba s.addr.cyl.toNat h.toNat sct.toNat)) := by
  simp only [State.locate, translate_ok_iff.mpr ⟨dr, hd, hc, hh, hs, rfl⟩]

/-- Everything `openSector` does to a valid address (R252). -/
theorem openSector_valid {f : Cdb} {s : State} {dr : Drive} (hd : s.hasDrive s.d dr)
    (hc : (s.addressed f).addr.cyl.toNat < dr.cfg.cylinders.toNat)
    (hh : (s.addressed f).addr.head.toNat < dr.cfg.heads.toNat)
    (hs : (s.addressed f).addr.sector.toNat < dr.cfg.spt.toNat) :
    let a := (s.addressed f).addr
    s.openSector f = .ok
      { (s.addressed f).seeked s.d a.cyl with
        addr := { a with lba := BitVec.ofNat 32 (dr.cfg.lba a.cyl.toNat a.head.toNat a.sector.toNat) } } := by
  unfold State.openSector
  rw [setupAddress_inRange hd hc]
  exact locate_valid (s := (s.addressed f).seeked s.d (s.addressed f).addr.cyl)
    (dr := { dr with currentCylinder := (s.addressed f).addr.cyl })
    (hasDrive_seeked (s := s.addressed f) hd) rfl hh hs

/-- Everything `openTrack` does to a valid address (R247). -/
theorem openTrack_valid {f : Cdb} {s : State} {dr : Drive} (hd : s.hasDrive s.d dr)
    (hc : (s.addressed f).addr.cyl.toNat < dr.cfg.cylinders.toNat)
    (hh : (s.addressed f).addr.head.toNat < dr.cfg.heads.toNat) (hs : 0 < dr.cfg.spt.toNat) :
    let a := (s.addressed f).addr
    s.openTrack f = .ok
      { (s.addressed f).seeked s.d a.cyl with
        addr := { a with lba := BitVec.ofNat 32 (dr.cfg.lba a.cyl.toNat a.head.toNat 0) } } := by
  unfold State.openTrack
  rw [setupAddress_inRange hd hc]
  exact locate_valid (s := (s.addressed f).seeked s.d (s.addressed f).addr.cyl) (sct := 0)
    (dr := { dr with currentCylinder := (s.addressed f).addr.cyl })
    (hasDrive_seeked (s := s.addressed f) hd) rfl hh hs

end Sys2Proof.Machine
end

