-- ==== Sys2Proof/Laws/Encoding.lean ====
section
/-! SUPPORT. The fields of a command block and its bytes are one another's inverse. -/

namespace Sys2Proof

theorem extract_append_high {n m : Nat} (x : BitVec n) (y : BitVec m) : (x ++ y).extractLsb' m n = x := by
  ext i hi
  simp [BitVec.getLsbD_append, hi]

theorem extract_append_low {n m : Nat} (x : BitVec n) (y : BitVec m) : (x ++ y).extractLsb' 0 m = y := by
  ext i hi
  simp [BitVec.getLsbD_append, hi]

theorem append_extract {n m : Nat} (x : BitVec (n + m)) : x.extractLsb' m n ++ x.extractLsb' 0 m = x := by
  ext i hi
  simp only [BitVec.getElem_append, BitVec.getElem_extractLsb']
  split
  · simp [BitVec.getLsbD_eq_getElem, hi]
  · rw [show m + (i - m) = i by omega]; simp [BitVec.getLsbD_eq_getElem, hi]

/-- Reading back the fields that were written. -/
theorem Cdb.ofBytes_toBytes (f : Cdb) :
    Cdb.ofBytes (f.drive ++ f.head) (f.cyl.extractLsb' 8 2 ++ f.sector) (f.cyl.extractLsb' 0 8) f.count f.control
      = f := by
  obtain ⟨drive, head, sector, cyl, count, control⟩ := f
  have h1 := extract_append_high drive head
  have h2 := extract_append_low drive head
  have h3 := extract_append_low (cyl.extractLsb' 8 2) sector
  have h4 := extract_append_high (cyl.extractLsb' 8 2) sector
  have h5 := append_extract (n := 2) (m := 8) cyl
  simp only [Cdb.ofBytes, Cdb.mk.injEq, and_true]
  exact ⟨h1, h2, h3, (congrArg (· ++ cyl.extractLsb' 0 8) h4).trans h5⟩

/-- Writing back the fields that were read. -/
theorem Cdb.toBytes_ofBytes (b1 b2 b3 b4 b5 : Byte) : (Cdb.ofBytes b1 b2 b3 b4 b5).toBytes = [b1, b2, b3, b4, b5] := by
  have h1 := append_extract (n := 3) (m := 5) b1
  have h2 := append_extract (n := 2) (m := 6) b2
  have h3 := extract_append_high (b2.extractLsb' 6 2) b3
  have h4 := extract_append_low (b2.extractLsb' 6 2) b3
  simp only [Cdb.ofBytes, Cdb.toBytes, List.cons.injEq, and_true]
  exact ⟨h1, (congrArg (· ++ b2.extractLsb' 0 6) h3).trans h2, h4⟩

end Sys2Proof
end

