-- ==== Sys2Proof/Laws/Steps.lean ====
section
/-! SUPPORT. What a scheduled step, a DMA byte step and a step of the machine can do, each said once by its cases. -/

namespace Sys2Proof.Machine

/-! ## The scheduled step (41_state_machine.md R171 to R173, R185) -/

theorem scheduledStep_idle {f : Cdb} {h : Handlers} {s : State}
    (hp : s.phase = .idle ∨ s.phase = .receiveCommand ∨ s.phase = .completionByte) :
    scheduledStep f h s = .next (s.violation .stepNoHandler) := by
  rcases hp with hp | hp | hp <;> simp [scheduledStep, hp]

theorem scheduledStep_polled {f : Cdb} {h : Handlers} {s : State} (hp : s.phase = .sendData ∨ s.phase = .receiveData)
    (hx : s.xferDma = false) : scheduledStep f h s = .next (s.violation .stepNoHandler) := by
  rcases hp with hp | hp <;> simp [scheduledStep, hp, hx]

theorem scheduledStep_dmaSend {f : Cdb} {h : Handlers} {s : State} (hp : s.phase = .sendData)
    (hx : s.xferDma = true) : scheduledStep f h s = dmaSend (s.begun f) := by
  simp [scheduledStep, hp, hx, prologue_eq_begun]

theorem scheduledStep_dmaReceive {f : Cdb} {h : Handlers} {s : State} (hp : s.phase = .receiveData)
    (hx : s.xferDma = true) : scheduledStep f h s = dmaReceive (s.begun f) := by
  simp [scheduledStep, hp, hx, prologue_eq_begun]

theorem scheduledStep_start {f : Cdb} {h : Handlers} {s : State} (hp : s.phase = .startCommand) :
    scheduledStep f h s = .next (h.start (s.begun f)) := by
  simp [scheduledStep, hp, prologue_eq_begun]

theorem scheduledStep_sent {f : Cdb} {h : Handlers} {s : State} (hp : s.phase = .sentData) :
    scheduledStep f h s = .next (runHandler h.sent (s.begun f)) := by
  simp [scheduledStep, hp, prologue_eq_begun]

theorem scheduledStep_received {f : Cdb} {h : Handlers} {s : State} (hp : s.phase = .receivedData) :
    scheduledStep f h s = .next (runHandler h.received (s.begun f)) := by
  simp [scheduledStep, hp, prologue_eq_begun]

theorem scheduledStep_done {f : Cdb} {h : Handlers} {s : State} (hp : s.phase = .done) :
    scheduledStep f h s = .next (runHandler h.done (s.begun f)) := by
  simp [scheduledStep, hp, prologue_eq_begun]

/-- Every command is a scheduled step with a row of handlers, filled exactly where the table of 41_state_machine.md
R179 fills it. -/
theorem exec_command {i : Instr} {f : Cdb} (hf : i.fields? = some f) :
    ∃ h : Handlers, (∀ s, exec i s = scheduledStep f h s) ∧ h.sent.isSome = (sendLength i).isSome ∧
      h.received.isSome = (receiveLength i).isSome ∧ h.done.isSome = hasDone i := by
  cases i <;> simp only [Instr.fields?, reduceCtorEq] at hf <;> cases hf <;>
    exact ⟨_, fun _ => rfl, rfl, rfl, rfl⟩

/-! ## The DMA byte steps (43_transfer_engine.md R224 to R229) -/

/-- A NoData answer: one more stall, or the budget is spent and the command fails. -/
theorem dmaStall_cases (s : State) :
    (s.stall + 1 < s.params.retryBudget ∧
      s.dmaStall = { s with stall := s.stall + 1, status := s.status ||| 0x0F, pending := some .stall }) ∨
    (s.params.retryBudget ≤ s.stall + 1 ∧ s.dmaStall = State.failed .noRecovery { s with stall := s.stall + 1 }) := by
  unfold State.dmaStall
  by_cases h : s.params.retryBudget ≤ s.stall + 1
  · exact .inr ⟨h, by simp only [h, ↓reduceIte, fail_eq_failed]⟩
  · exact .inl ⟨by omega, by simp only [h, ↓reduceIte]; rfl⟩

theorem dmaSend_cases {s : State} (hb : s.bufPos < s.params.bufSize) :
    (s.dma.write = .ack ∧ s.bufPos + 1 = s.bufCount ∧ dmaSend s = .next
      { s with
        bufPos := s.bufPos + 1, stall := 0, phase := .sentData, status := 0x08, pending := some .step
        log := s.log ++ [.dmaOut s.params.dmaChannel (Memory.read s.buffer s.bufPos)] }) ∨
    (s.dma.write = .ack ∧ s.bufPos + 1 ≠ s.bufCount ∧ dmaSend s = .next
      { s with
        bufPos := s.bufPos + 1, stall := 0, status := 0x1A, pending := some .dma
        log := s.log ++ [.dmaOut s.params.dmaChannel (Memory.read s.buffer s.bufPos)] }) ∨
    (s.dma.write = .noData ∧ dmaSend s = .next (s.event (.dmaNoData s.params.dmaChannel)).dmaStall) := by
  unfold dmaSend
  cases hw : s.dma.write
  · by_cases hl : s.bufPos + 1 = s.bufCount
    · exact .inl ⟨rfl, hl, by simp [hb, hl]; rfl⟩
    · exact .inr (.inl ⟨rfl, hl, by simp [hb, hl]; rfl⟩)
  · exact .inr (.inr ⟨rfl, by simp [hb]⟩)

theorem dmaReceive_cases {s : State} (hb : s.bufPos < s.params.bufSize) :
    (∃ b, s.dma.read = .byte b ∧ s.bufPos + 1 = s.bufCount ∧ dmaReceive s = .next
      { s with
        buffer := Memory.writeBytes s.buffer s.bufPos [b]
        bufPos := s.bufPos + 1, stall := 0, phase := .receivedData, status := 0x08, pending := some .step
        log := s.log ++ [.dmaIn s.params.dmaChannel b] }) ∨
    (∃ b, s.dma.read = .byte b ∧ s.bufPos + 1 ≠ s.bufCount ∧ dmaReceive s = .next
      { s with
        buffer := Memory.writeBytes s.buffer s.bufPos [b]
        bufPos := s.bufPos + 1, stall := 0, status := 0x18, pending := some .dma
        log := s.log ++ [.dmaIn s.params.dmaChannel b] }) ∨
    (s.dma.read = .noData ∧ dmaReceive s = .next (s.event (.dmaNoData s.params.dmaChannel)).dmaStall) := by
  unfold dmaReceive
  cases hr : s.dma.read with
  | byte b =>
    by_cases hl : s.bufPos + 1 = s.bufCount
    · exact .inl ⟨b, rfl, hl, by simp [hb, hl]; rfl⟩
    · exact .inr (.inl ⟨b, rfl, hl, by simp [hb, hl]; rfl⟩)
  | noData => exact .inr (.inr ⟨rfl, rfl⟩)

/-! ## The machine's step -/

/-- The command buffer always holds a command, with the fields of its bytes. -/
theorem fields_current (s : State) :
    s.current.fields? =
      some (Cdb.ofBytes s.command[1] s.command[2] s.command[3] s.command[4] s.command[5]) := by
  unfold State.current decodeCommand decodeFields
  cases opClass s.params s.command[0] with
  | command c => rcases c with _ | _ | _ | _ | _ | _ | _ | _ | _ | _ | _ | _ | _ | _ | _ | _ | _ | _ | v <;> [rfl;
      rfl; rfl; rfl; rfl; rfl; rfl; rfl; rfl; rfl; rfl; rfl; rfl; rfl; rfl; rfl; rfl; rfl; (cases v <;> rfl)]
  | wrongFamily v => cases v <;> rfl
  | unknown => rfl

/-- A bus access decodes to a port access. -/
theorem fields_decodeAccess {a : Access} {i : Instr} (h : decodeAccess a = .ok i) : i.fields? = none := by
  unfold decodeAccess at h
  split at h
  · split at h <;> cases h <;> rfl
  · cases h

/-- With both positions inside their buffers every instruction has a next state (log 13). -/
theorem exec_next (i : Instr) (s : State) (hc : s.phase = .receiveCommand → s.commandPos < 6)
    (hb : s.phase = .sendData ∨ s.phase = .receiveData → s.bufPos < s.params.bufSize) : ∃ t, exec i s = .next t := by
  cases hf : i.fields? with
  | some f =>
    obtain ⟨h, he, _⟩ := exec_command hf
    rw [he]
    unfold scheduledStep
    split
    all_goals first | exact ⟨_, rfl⟩ | skip
    · rename_i hp
      rw [prologue_eq_begun]
      split
      · rcases dmaSend_cases (s := s.begun f) (hb (.inl hp)) with ⟨_, _, e⟩ | ⟨_, _, e⟩ | ⟨_, e⟩ <;> exact ⟨_, e⟩
      · exact ⟨_, rfl⟩
    · rename_i hp
      rw [prologue_eq_begun]
      split
      · rcases dmaReceive_cases (s := s.begun f) (hb (.inr hp)) with ⟨_, _, _, e⟩ | ⟨_, _, _, e⟩ | ⟨_, e⟩ <;>
          exact ⟨_, e⟩
      · exact ⟨_, rfl⟩
  | none =>
    cases i <;> simp only [Instr.fields?, reduceCtorEq] at hf
    case dataWrite v =>
      show ∃ t, execDataWrite v s = .next t
      unfold execDataWrite writeCommandByte writeDataByte
      split <;> simp_all
    case dataRead =>
      show ∃ t, execDataRead s = .next t
      unfold execDataRead readDataByte
      split <;> simp_all [State.clearIrq]
    all_goals exact ⟨_, rfl⟩

/-- Everything a step that answers a next state can have been. -/
theorem step_cases {s t : State} (h : step s = .next t) :
    s.fault = false ∧ s.configOk = true ∧
    ((s.attached = true ∧ s.turns = [] ∧ s.pending = none ∧ t = s) ∨
     (s.attached = true ∧ s.turns = [] ∧ s.pending.isSome ∧
        exec s.current { s.drawDma with pending := none } = .next t) ∨
     (s.attached = true ∧ ∃ a rest i, s.turns = .host a :: rest ∧ decodeAccess a = .ok i ∧
        exec i { s with turns := rest } = .next t) ∨
     (s.attached = true ∧ ∃ dma rest, s.turns = .fire dma :: rest ∧ s.pending.isSome ∧
        exec s.current { s with turns := rest, dma := dma, pending := none } = .next t) ∨
     (s.attached = true ∧ ∃ dma rest, s.turns = .fire dma :: rest ∧ s.pending = none ∧ t = { s with turns := rest }) ∨
     (s.attached = true ∧ ∃ rest, s.turns = .detach :: rest ∧
        t = { s with turns := rest, attached := false, pending := none }) ∨
     (s.attached = false ∧ s.turns = [] ∧ t = s) ∨
     (s.attached = false ∧ ∃ rest, s.turns = .attach :: rest ∧ t = { s.reattach with turns := rest })) := by
  unfold step fetch at h
  have hf : s.fault = false := by
    cases hf : s.fault <;> simp [hf] at h ⊢
  have hc : s.configOk = true := by
    cases hc : s.configOk <;> simp [hf, hc] at h ⊢
  refine ⟨hf, hc, ?_⟩
  rcases Bool.eq_false_or_eq_true s.attached with ha | ha
  · simp only [hf, hc, ha, Bool.false_eq_true, ↓reduceIte] at h
    unfold fetchAttached at h
    rcases ht : s.turns with _ | ⟨turn, rest⟩
    · rcases hp : s.pending with _ | d
      · simp only [ht, hp] at h
        cases h; exact .inl ⟨ha, rfl, rfl, rfl⟩
      · simp only [ht, hp] at h
        exact .inr (.inl ⟨ha, rfl, rfl, h⟩)
    · rcases turn with a | dma | _ | _
      · simp only [ht] at h
        rcases hd : decodeAccess a with e | i
        · simp [hd] at h
        · simp only [hd] at h; exact .inr (.inr (.inl ⟨ha, a, rest, i, rfl, hd, h⟩))
      · rcases hp : s.pending with _ | d
        · simp only [ht, hp] at h
          cases h
          exact .inr (.inr (.inr (.inr (.inl ⟨ha, dma, rest, rfl, rfl, by simp⟩))))
        · simp only [ht, hp] at h
          exact .inr (.inr (.inr (.inl ⟨ha, dma, rest, rfl, rfl, h⟩)))
      · simp only [ht] at h
        cases h
        exact .inr (.inr (.inr (.inr (.inr (.inl ⟨ha, rest, rfl, rfl⟩)))))
      · simp [ht] at h
  · simp only [hf, hc, ha, Bool.false_eq_true, ↓reduceIte] at h
    unfold fetchDetached at h
    rcases ht : s.turns with _ | ⟨turn, rest⟩
    · simp only [ht] at h
      cases h; exact .inr (.inr (.inr (.inr (.inr (.inr (.inl ⟨ha, rfl, rfl⟩))))))
    · rcases turn with a | dma | _ | _ <;> simp only [ht, reduceCtorEq, Host.Outcome.next.injEq] at h
      exact .inr (.inr (.inr (.inr (.inr (.inr (.inr ⟨ha, rest, rfl, h.symm⟩))))))

end Sys2Proof.Machine
end

