-- ==== Sys2Proof/Laws/Handlers.lean ====
section
/-! SUPPORT. What a handler of a command can do, said once for all of them: what it may change before it ends
(`Worked`), and how it may end (`Ended`). The address, the buffer, the drives' cylinders and images and the log are all
a handler changes before its last phase entry, but for SENSE's clearing of the stored error and the storing of a
configured geometry. -/

namespace Sys2Proof.Machine

/-- The sector a data phase is about lies in the configured disk of the present drive `s.d`. -/
def State.onTarget (s : State) : Prop :=
  ∃ dr, s.hasDrive s.d dr ∧ s.addr.cyl.toNat < dr.cfg.cylinders.toNat ∧ s.addr.lba.toNat < dr.cfg.blocks

/-- The handler begins a command, or goes on with a sector whose cylinder lies in the configured disk of a present
drive. -/
def State.begins (s : State) : Prop :=
  s.phase = .startCommand ∨ ∃ dr, s.hasDrive s.d dr ∧ s.addr.cyl.toNat < dr.cfg.cylinders.toNat

/-- What a handler that began at `s` may have changed at `u`. -/
structure Worked (s u : State) : Prop where
  rest : u = { s with addr := u.addr, buffer := u.buffer, drives := u.drives, log := u.log }
  log : ∃ new, u.log = s.log ++ new ∧
    ∀ e ∈ new, (∃ d lba, e = .imageWritten d lba) ∨ ∃ d lba n, e = .imageZeroed d lba n
  fixed : u.drives.map (fun d => (d.present, d.phys, d.cfg)) = s.drives.map (fun d => (d.present, d.phys, d.cfg))
  buffer : ∀ N, 516 ≤ N → Memory.wf s.buffer → Memory.below s.buffer N → Memory.wf u.buffer ∧ Memory.below u.buffer N
  images : (∀ d ∈ s.drives, Memory.wf d.image ∧ Memory.below d.image (d.phys.blocks * 512)) →
    ∀ d ∈ u.drives, Memory.wf d.image ∧ Memory.below d.image (d.phys.blocks * 512)

/-- How the handler of `i` that began at `s` may end. A mark is set only by a call whose blocks are not all in the
image, though they are in the configured disk, or the sector is the one being written. -/
inductive Ended (i : Instr) (s : State) : State → Prop where
  | complete (u : State) (w : Worked s u) : Ended i s u.completed
  | cleared (hi : ∃ f, i = .sense f) (hp : s.phase = .sentData) : Ended i s (State.completed { s with errorCode := 0 })
  | configure (g : Geometry → Geometry) :
      Ended i s (State.completed (s.onDrive s.d (fun dr => { dr with cfg := g dr.cfg })))
  | fail (e : ErrorName) (u : State) (he : e ∈ raisedErrors) (w : Worked s u) : Ended i s (u.failed e)
  | send (n : Nat) (u : State) (hn : sendLength i = some n) (w : Worked s u)
      (ht : movesSectors i = true → s.begins → u.onTarget) : Ended i s (u.sending n)
  | receive (n : Nat) (u : State) (hn : receiveLength i = some n) (w : Worked s u)
      (ht : movesSectors i = true → s.begins → u.onTarget) : Ended i s (u.receiving n)
  | wait (d : Delay) (u : State) (hd : hasDone i = true) (w : Worked s u) : Ended i s (u.waiting d)
  | mark (u : State) (w : Worked s u) (lba n : Nat) (hm : u.imageHas u.d lba n = false)
      (hin : (movesSectors i = true → s.begins) → (∃ dr, u.hasDrive u.d dr ∧ lba + n ≤ dr.cfg.blocks) ∨
        (u = s ∧ movesSectors i = true ∧ s.phase = .receivedData ∧ lba = s.addr.lba.toNat ∧ n = 1))
      (ht : (movesSectors i = true → s.begins) → u.onTarget ∨ u = s) : Ended i s u.markFault

/-! ## What one sub-step may change -/

theorem Worked.refl (s : State) : Worked s s :=
  ⟨rfl, ⟨[], by simp⟩, rfl, fun _ _ h h' => ⟨h, h'⟩, fun h => h⟩

theorem Worked.trans {s u v : State} (h : Worked s u) (h' : Worked u v) : Worked s v := by
  refine ⟨?_, ?_, h'.fixed.trans h.fixed, fun N hN hw hb => ?_, fun hi => h'.images (h.images hi)⟩
  · have e := h'.rest
    rw [h.rest] at e
    exact e
  · obtain ⟨l, e, hl⟩ := h.log
    obtain ⟨l', e', hl'⟩ := h'.log
    refine ⟨l ++ l', by rw [e', e, List.append_assoc], fun x hx => ?_⟩
    rcases List.mem_append.mp hx with hx | hx
    · exact hl x hx
    · exact hl' x hx
  · obtain ⟨a, b⟩ := h.buffer N hN hw hb
    exact h'.buffer N hN a b

theorem worked_addr (s : State) (a : Address) : Worked s { s with addr := a } :=
  ⟨rfl, ⟨[], by simp⟩, rfl, fun _ _ h h' => ⟨h, h'⟩, fun h => h⟩

theorem worked_buffer (s : State) (m : Memory)
    (h : ∀ N, 516 ≤ N → Memory.wf s.buffer → Memory.below s.buffer N → Memory.wf m ∧ Memory.below m N) :
    Worked s { s with buffer := m } :=
  ⟨rfl, ⟨[], by simp⟩, rfl, h, fun h => h⟩

/-- Changing a drive but for its presence, its geometries and its image's form. -/
theorem worked_onDrive (s : State) (d : Nat) (g : Drive → Drive) (hp : ∀ x, (g x).present = x.present)
    (hg : ∀ x, (g x).phys = x.phys) (hc : ∀ x, (g x).cfg = x.cfg)
    (hi : ∀ x ∈ s.drives, Memory.wf x.image ∧ Memory.below x.image (x.phys.blocks * 512) → s.drives[d]? = some x →
      Memory.wf (g x).image ∧ Memory.below (g x).image (x.phys.blocks * 512)) :
    Worked s (s.onDrive d g) := by
  refine ⟨rfl, ⟨[], by simp⟩, ?_, fun _ _ h h' => ⟨h, h'⟩, fun h x hx => ?_⟩
  · apply List.ext_getElem?
    intro k
    simp only [List.getElem?_map, getElem?_onDrive]
    cases s.drives[k]? with
    | none => rfl
    | some x => by_cases hk : d = k <;> simp [hk, hp, hg, hc]
  · obtain ⟨k, hk⟩ := List.mem_iff_getElem?.mp hx
    rw [getElem?_onDrive] at hk
    cases hs : s.drives[k]? with
    | none => simp [hs] at hk
    | some y =>
      have hy : y ∈ s.drives := List.mem_iff_getElem?.mpr ⟨k, hs⟩
      simp only [hs, Option.map_some, Option.some.injEq] at hk
      by_cases hdk : d = k
      · rw [if_pos hdk] at hk
        subst hk
        rw [hg]
        exact hi y hy (h y hy) (by rw [hdk]; exact hs)
      · rw [if_neg hdk] at hk
        subst hk
        exact h y hy

theorem worked_seeked (s : State) (d : Nat) (x : BitVec 16) : Worked s (s.seeked d x) :=
  worked_onDrive s d _ (fun _ => rfl) (fun _ => rfl) (fun _ => rfl) (fun _ _ h _ => h)

theorem worked_setLba (s : State) (lba : Nat) : Worked s (s.setLba lba) := worked_addr s _

theorem worked_countDown (s : State) : Worked s s.countDown := worked_addr s _

theorem worked_nextSector (d : Nat) (s : State) : Worked s (s.nextSector d) := by
  cases h : s.drives[d]? with
  | none => simp only [State.nextSector, h]; exact .refl s
  | some x => rw [nextSector_of_slot h]; exact (worked_addr s _).trans (worked_seeked _ _ _)

theorem worked_log (s : State) (e : Event)
    (he : (∃ d lba, e = .imageWritten d lba) ∨ ∃ d lba n, e = .imageZeroed d lba n) : Worked s (s.event e) :=
  ⟨rfl, ⟨[e], rfl, fun x hx => by rw [List.mem_singleton.mp hx]; exact he⟩, rfl, fun _ _ h h' => ⟨h, h'⟩, fun h => h⟩

/-! ## The sub-steps of the handlers -/

/-- SetupAddress leaves a present drive at an addressed cylinder in range, or ends the command. -/
theorem setupAddress_ended {i : Instr} {e : ErrorName} (he : e ∈ raisedErrors) (f : Cdb) (s : State) :
    (∃ t, s.setupAddress e f = .error t ∧ Ended i s t) ∨
    (∃ u dr, s.setupAddress e f = .ok u ∧ Worked s u ∧ u.hasDrive u.d dr ∧ dr.currentCylinder = u.addr.cyl ∧
      u.addr.cyl.toNat < dr.cfg.cylinders.toNat) := by
  rcases setupAddress_cases e f s with ⟨_, h⟩ | ⟨dr, hd, ⟨hc, h⟩ | ⟨_, h⟩⟩
  · exact .inl ⟨_, h, .fail _ _ (by decide) (.refl s)⟩
  · refine .inr ⟨_, { dr with currentCylinder := (s.addressed f).addr.cyl }, h, (worked_addr s _).trans (worked_seeked _ _ _),
      ⟨?_, hd.2⟩, rfl, hc⟩
    show ((s.addressed f).seeked s.d _).drives[s.d]? = _
    rw [getElem?_seeked]
    show (s.drives[s.d]?).map _ = _
    rw [hd.1]
    simp
  · exact .inl ⟨_, h, .fail _ _ he ((worked_addr s _).trans (worked_seeked _ _ _))⟩

/-- The translation leaves the block's address, in the configured disk, or ends the command. -/
theorem locate_ended {i : Instr} {s u : State} (w : Worked s u) {dr : Drive} (hd : u.hasDrive u.d dr)
    (hc : u.addr.cyl.toNat < dr.cfg.cylinders.toNat) (h sct : Byte) :
    (∃ t, u.locate h sct = .error t ∧ Ended i s t) ∨
    (∃ v, u.locate h sct = .ok v ∧ Worked s v ∧ v.hasDrive v.d dr ∧ v.addr.cyl.toNat < dr.cfg.cylinders.toNat ∧
      h.toNat < dr.cfg.heads.toNat ∧ sct.toNat < dr.cfg.spt.toNat ∧
      v.addr.lba.toNat = dr.cfg.lba v.addr.cyl.toNat h.toNat sct.toNat) := by
  rcases locate_cases h sct u with ⟨dr', hd', _, hh, hs, e⟩ | ⟨e, _⟩ | ⟨e, _⟩
  · have : dr' = dr := by
      have := hd'.1.symm.trans hd.1
      injection this
    subst this
    exact .inr ⟨_, e, w.trans (worked_addr u _), hd, hc, hh, hs, toNat_lba hc hh hs⟩
  · exact .inl ⟨_, e, .fail _ _ (by decide) w⟩
  · exact .inl ⟨_, e, .fail _ _ (by decide) w⟩

/-- SectorAdvance ends the command, or leaves the next sector's address, in the configured disk if the address before
was. -/
theorem sectorAdvance_ended {i : Instr} {s u : State} (w : Worked s u) :
    (∃ t, u.sectorAdvance = .error t ∧ Ended i s t) ∨
    (∃ v, u.sectorAdvance = .ok v ∧ Worked s v ∧
      ((∃ dr, u.hasDrive u.d dr ∧ u.addr.cyl.toNat < dr.cfg.cylinders.toNat) → v.onTarget)) := by
  have wc : Worked s u.countDown := w.trans (worked_addr u _)
  unfold State.sectorAdvance
  by_cases h0 : u.countDown.addr.count = 0
  · simp only [h0, ↓reduceIte]
    exact .inl ⟨_, rfl, by rw [complete_eq_completed]; exact .complete _ wc⟩
  · simp only [h0, ↓reduceIte]
    obtain ⟨v, hvd⟩ : ∃ v, u.countDown.nextSector u.countDown.d = v := ⟨_, rfl⟩
    rw [hvd]
    have wv : Worked s v := hvd ▸ wc.trans (worked_nextSector _ _)
    have hv : ∀ dr, u.hasDrive u.d dr → u.addr.cyl.toNat < dr.cfg.cylinders.toNat →
        v.addr.cyl.toNat < dr.cfg.cylinders.toNat ∧
        ∀ k : Nat, (v.drives[k]?).map Drive.cfg = (u.drives[k]?).map Drive.cfg := by
      intro dr hd hc
      have hd1 : u.countDown.drives[u.countDown.d]? = some dr := hd.1
      rw [← hvd, nextSector_of_slot hd1]
      refine ⟨advance_cyl_lt (a := u.countDown.addr) hc, fun k => ?_⟩
      rw [getElem?_seeked]
      show ((u.drives[k]?).map _).map _ = _
      cases u.drives[k]? <;> simp
      split <;> rfl
    rcases locate_cases v.addr.head v.addr.sector v with ⟨x, hx, _, hh, hsct, e⟩ | ⟨e, _⟩ | ⟨e, _⟩
    · refine .inr ⟨_, e, wv.trans (worked_addr v _), fun ⟨dr, hd, hc⟩ => ?_⟩
      obtain ⟨hcv, hcfg⟩ := hv dr hd hc
      have hvd : v.d = u.d := by
        have h1 := congrArg State.driveSelect wv.rest
        have h2 := congrArg State.driveSelect w.rest
        exact congrArg BitVec.toNat (h1.trans h2.symm)
      have hc2 := hcfg v.d
      rw [hx.1, hvd, hd.1] at hc2
      have hc3 : x.cfg = dr.cfg := by simpa using hc2
      rw [← hc3] at hcv
      exact ⟨x, hx, hcv, by
        show (BitVec.ofNat 32 _).toNat < _
        rw [toNat_lba hcv hh hsct]
        exact lba_lt_blocks hcv hh hsct⟩
    · exact .inl ⟨_, e, .fail _ _ (by decide) wv⟩
    · exact .inl ⟨_, e, .fail _ _ (by decide) wv⟩

/-- The end of a handler that sends a sector. -/
theorem sendSector_ended {i : Instr} {n : Nat} {g : State → State}
    (hg : n = 512 ∧ g = sendBlock ∨ n = 516 ∧ g = sendLongBlock) (hn : sendLength i = some n)
    (hm : movesSectors i = true) {s u : State} (w : Worked s u) (ht : s.begins → u.onTarget) : Ended i s (g u) := by
  rcases imageToBuffer_cases u.d u.addr.lba.toNat u with ⟨_, m, e, hw, hbl, _⟩ | ⟨h, e⟩
  · have wm : Worked u { u with buffer := m } :=
      worked_buffer u m (fun N hN h1 h2 => ⟨hw h1, hbl N (by omega) h2⟩)
    rcases hg with ⟨rfl, rfl⟩ | ⟨rfl, rfl⟩
    · simp only [sendBlock, e, andThen, enterSend_eq_sending]
      exact .send _ _ hn (w.trans wm) (fun _ h => ht h)
    · simp only [sendLongBlock, e, andThen, enterSend_eq_sending]
      refine .send _ _ hn ((w.trans wm).trans (worked_buffer _ _ (fun N hN h1 h2 => ?_))) (fun _ h => ht h)
      exact ⟨Memory.wf_writeBytes h1 _ _, Memory.below_writeBytes h2 (by simpa using hN)⟩
  · have hin : s.begins → (∃ dr, u.hasDrive u.d dr ∧ u.addr.lba.toNat + 1 ≤ dr.cfg.blocks) :=
      fun hb => (ht hb).elim (fun dr hx => ⟨dr, hx.1, hx.2.2⟩)
    rcases hg with ⟨_, rfl⟩ | ⟨_, rfl⟩
    all_goals
      simp only [sendBlock, sendLongBlock, e, andThen]
      exact .mark u w _ _ h (fun hb => .inl (hin (hb hm))) (fun hb => .inl (ht (hb hm)))

/-- The handlers that store a sector. -/
theorem storeBlock_ended {i : Instr} {n : Nat} (hn : receiveLength i = some n) (hm : movesSectors i = true) {s : State}
    (hp : s.phase = .receivedData) : Ended i s (storeBlock n s) := by
  unfold storeBlock
  rcases bufferToImage_cases s.d s.addr.lba.toNat s with ⟨hi, ds, e, he, _⟩ | ⟨h, e⟩
  · simp only [e, andThen]
    obtain ⟨dr, hd, hb⟩ := (imageHas_iff _ _ _ _).mp hi
    have w1 : Worked s (s.onDrive s.d (fun x =>
        { x with image := Memory.writeBytes x.image (s.addr.lba.toNat * 512) (Memory.readBytes s.buffer 0 512) })) := by
      refine worked_onDrive s s.d _ (fun _ => rfl) (fun _ => rfl) (fun _ => rfl) (fun x _ h hx => ?_)
      have : x = dr := by
        have := hx.symm.trans hd.1
        injection this
      subst this
      exact ⟨Memory.wf_writeBytes h.1 _ _, Memory.below_writeBytes h.2 (by simp; omega)⟩
    have w : Worked s { s with drives := ds, log := s.log ++ [.imageWritten s.d s.addr.lba.toNat] } := by
      rw [he]
      exact w1.trans (worked_log _ _ (.inl ⟨_, _, rfl⟩))
    have hd2 : State.hasDrive s.d
        { dr with image := Memory.writeBytes dr.image (s.addr.lba.toNat * 512) (Memory.readBytes s.buffer 0 512) }
        { s with drives := ds, log := s.log ++ [.imageWritten s.d s.addr.lba.toNat] } := by
      refine ⟨?_, hd.2⟩
      show ds[s.d]? = _
      rw [he, List.getElem?_modify, hd.1]
      simp
    rcases sectorAdvance_ended (i := i) w with ⟨t, e2, h⟩ | ⟨v, e2, wv, hv⟩
    · rw [e2]; exact h
    · rw [e2]
      simp only [enterReceive_eq_receiving]
      refine .receive _ _ hn wv (fun _ hb => hv ?_)
      rcases hb with hb | ⟨x, hx, hc⟩
      · rw [hp] at hb; cases hb
      · have : x = dr := by
          have := hx.1.symm.trans hd.1
          injection this
        subst this
        exact ⟨_, hd2, hc⟩
  · rw [e]
    exact .mark s (.refl s) _ _ h (fun _ => .inr ⟨rfl, hm, hp, rfl, rfl⟩) (fun _ => .inr rfl)

/-- The end of a FORMAT command's first handler. -/
theorem zeroFrom_ended {i : Instr} {n : Nat} (hi : hasDone i = true) {s u : State} (w : Worked s u) {dr : Drive}
    (hd : u.hasDrive u.d dr) (hc : u.addr.cyl.toNat < dr.cfg.cylinders.toNat)
    (hb : u.addr.lba.toNat + n ≤ dr.cfg.blocks) : Ended i s (zeroFrom n u) := by
  unfold zeroFrom
  rcases imageZero_cases u.d u.addr.lba.toNat n u with ⟨_, e⟩ | ⟨_, _, ds, e, he, _⟩ | ⟨hn, h, e⟩
  · rw [e]
    exact .wait (.format n) u hi w
  · rw [e]
    show Ended i s (State.waiting (.format n) { u with drives := ds, log := u.log ++ [.imageZeroed u.d u.addr.lba.toNat n] })
    refine .wait _ _ hi (w.trans ?_)
    rw [he]
    exact (worked_onDrive u u.d (fun x => { x with image := Memory.zero x.image (u.addr.lba.toNat * 512) (n * 512) })
      (fun _ => rfl) (fun _ => rfl) (fun _ => rfl) (fun x _ h _ =>
        ⟨Memory.wf_zero h.1 _ _, Memory.below_zero h.2 _ _⟩)).trans (worked_log _ _ (.inr ⟨_, _, _, rfl⟩))
  · rw [e]
    exact .mark u w _ _ h (fun _ => .inl ⟨dr, hd, hb⟩) (fun _ => .inl ⟨dr, hd, hc, by omega⟩)

/-- VERIFY's loop: a completion or an error. -/
theorem verifyLoop_ended {i : Instr} {s : State} (n : Nat) (u : State) (w : Worked s u) : Ended i s (verifyLoop n u) := by
  induction n generalizing u with
  | zero => unfold verifyLoop; rw [complete_eq_completed]; exact .complete _ w
  | succ n ih =>
    unfold verifyLoop
    rcases locate_cases u.addr.head u.addr.sector u with ⟨_, _, _, _, _, e⟩ | ⟨e, _⟩ | ⟨e, _⟩
    · rw [e]
      have wn (lba d : Nat) : Worked s ((u.setLba lba).nextSector d).countDown :=
        ((w.trans (worked_setLba u lba)).trans (worked_nextSector d _)).trans (worked_countDown _)
      simp only
      split
      · rw [complete_eq_completed]; exact .complete _ (wn _ _)
      · exact ih _ (wn _ _)
    · rw [e]; exact .fail _ _ (by decide) w
    · rw [e]; exact .fail _ _ (by decide) w

/-- SetupAddress followed by the rest of a handler. -/
theorem setupAddress_then {i : Instr} {e : ErrorName} (he : e ∈ raisedErrors) (f : Cdb) (s : State) (g : State → State)
    (h : ∀ u dr, Worked s u → u.hasDrive u.d dr → u.addr.cyl.toNat < dr.cfg.cylinders.toNat → Ended i s (g u)) :
    Ended i s (andThen (s.setupAddress e f) g) := by
  rcases setupAddress_ended (i := i) he f s with ⟨t, e1, h1⟩ | ⟨u, dr, e1, w, hd, _, hc⟩
  · rw [e1]; exact h1
  · rw [e1]; exact h u dr w hd hc

/-- The addressed sector's block, then the rest of a handler. -/
theorem openSector_then {i : Instr} (f : Cdb) (s : State) (g : State → State)
    (h : ∀ u, Worked s u → u.onTarget → Ended i s (g u)) : Ended i s (andThen (s.openSector f) g) := by
  unfold State.openSector
  rcases setupAddress_ended (i := i) (e := .illegalAddress) (by decide) f s with ⟨t, e1, h1⟩ | ⟨u, dr, e1, w, hd, _, hc⟩
  · simp only [e1]; exact h1
  · simp only [e1]
    rcases locate_ended (i := i) w hd hc u.addr.head u.addr.sector with ⟨t, e, h2⟩ | ⟨v, e, wv, hdv, hcv, hh, hs, hl⟩
    · rw [e]; exact h2
    · rw [e]; exact h v wv ⟨dr, hdv, hcv, by rw [hl]; exact lba_lt_blocks hcv hh hs⟩

/-- The addressed track's first block, then the rest of a handler. -/
theorem openTrack_then {i : Instr} (f : Cdb) (s : State) (g : State → State)
    (h : ∀ u dr, Worked s u → u.hasDrive u.d dr → u.addr.cyl.toNat < dr.cfg.cylinders.toNat →
      u.addr.lba.toNat + dr.cfg.spt.toNat ≤ dr.cfg.blocks → Ended i s (g u)) : Ended i s (andThen (s.openTrack f) g) := by
  unfold State.openTrack
  rcases setupAddress_ended (i := i) (e := .illegalAddress) (by decide) f s with ⟨t, e1, h1⟩ | ⟨u, dr, e1, w, hd, _, hc⟩
  · simp only [e1]; exact h1
  · simp only [e1]
    rcases locate_ended (i := i) w hd hc u.addr.head 0 with ⟨t, e, h2⟩ | ⟨v, e, wv, hdv, hcv, hh, hs, hl⟩
    · rw [e]; exact h2
    · rw [e]
      refine h v dr wv hdv hcv ?_
      rw [hl]
      have h1 : v.addr.cyl.toNat * dr.cfg.heads.toNat + u.addr.head.toNat + 1 ≤
          dr.cfg.cylinders.toNat * dr.cfg.heads.toNat := by nlinarith
      unfold Geometry.lba Geometry.blocks
      show (v.addr.cyl.toNat * dr.cfg.heads.toNat + u.addr.head.toNat) * dr.cfg.spt.toNat + 0 + _ ≤ _
      nlinarith [Nat.mul_le_mul_right dr.cfg.spt.toNat h1]

/-- SectorAdvance, then the next sector sent. -/
theorem sectorAdvance_then_send {i : Instr} {n : Nat} {g : State → State}
    (hg : n = 512 ∧ g = sendBlock ∨ n = 516 ∧ g = sendLongBlock) (hn : sendLength i = some n)
    (hm : movesSectors i = true) {s : State} (hp : s.phase = .sentData) : Ended i s (andThen s.sectorAdvance g) := by
  rcases sectorAdvance_ended (i := i) (.refl s) with ⟨t, e, h⟩ | ⟨v, e, wv, hv⟩
  · rw [e]; exact h
  · rw [e]
    refine sendSector_ended hg hn hm wv (fun hb => hv ?_)
    rcases hb with hb | hb
    · rw [hp] at hb; cases hb
    · exact hb

/-- Storing a geometry. -/
theorem configure_ended {i : Instr} (g : Geometry → Geometry) (s : State) : Ended i s (s.configure g) := by
  unfold State.configure
  split
  · rw [complete_eq_completed]; exact .configure g
  · rw [fail_eq_failed]; exact .fail _ _ (by decide) (.refl s)

/-- Sending a parameter block. -/
theorem sendBytes_ended {i : Instr} (bs : List Byte) (hl : bs.length ≤ 516) (hn : sendLength i = some bs.length)
    (hm : movesSectors i = false) (s : State) : Ended i s (s.sendBytes bs) := by
  unfold State.sendBytes
  rw [enterSend_eq_sending]
  refine .send _ _ hn (worked_buffer _ _ (fun N hN h1 h2 => ?_)) (fun h _ => by rw [hm] at h; cases h)
  exact ⟨Memory.wf_writeBytes h1 _ _, Memory.below_writeBytes h2 (by omega)⟩

theorem receive_ended {i : Instr} {n : Nat} (hn : receiveLength i = some n) (hm : movesSectors i = false) (s : State) :
    Ended i s (s.enterReceive n) := by
  rw [enterReceive_eq_receiving]
  exact .receive _ _ hn (.refl s) (fun h _ => by rw [hm] at h; cases h)

theorem complete_ended {i : Instr} (s : State) : Ended i s s.complete := by
  rw [complete_eq_completed]; exact .complete _ (.refl s)

theorem fail_ended {i : Instr} {e : ErrorName} (he : e ∈ raisedErrors) (s : State) : Ended i s (s.fail e) := by
  rw [fail_eq_failed]; exact .fail _ _ he (.refl s)

/-! ## Every handler of every command (44_commands.md) -/

/-- A handler that is there ends in one of the ways of `Ended`. -/
theorem handler_ended {i : Instr} {f : Cdb} (hf : i.fields? = some f) {s : State} (hp : s.phase = .startCommand ∨
      (s.phase = .sentData ∧ (sendLength i).isSome) ∨ (s.phase = .receivedData ∧ (receiveLength i).isSome) ∨
      (s.phase = .done ∧ hasDone i = true)) :
    ∃ t, exec i s = .next t ∧ Ended i (s.begun f) t := by
  rcases hp with hp | ⟨hp, hl⟩ | ⟨hp, hl⟩ | ⟨hp, hl⟩
  · cases i <;> simp only [Instr.fields?, reduceCtorEq, Option.some.injEq] at hf <;> subst hf <;>
      refine ⟨_, scheduledStep_start hp, ?_⟩
    case testReady =>
      show Ended _ _ (testReadyStart _)
      unfold testReadyStart
      split
      · exact complete_ended _
      · exact fail_ended (e := .notReady) (by decide) _
    case recalibrate =>
      show Ended _ _ (recalibrateStart _)
      unfold recalibrateStart
      rcases requireDrive_cases (s.begun _) with ⟨_, h⟩ | ⟨_, _, h⟩
      · rw [h]; exact .fail _ _ (by decide) (.refl _)
      · rw [h]; exact .wait .recal (s.begun _) rfl (.refl _)
    case sense => exact sendBytes_ended _ (by simp [senseBlock]) rfl rfl _
    case verify => exact setupAddress_then (by decide) _ _ _ (fun u _ w _ _ => verifyLoop_ended _ u w)
    case seek =>
      exact setupAddress_then (by decide) _ _ _
        (fun u _ w _ _ => by rw [complete_eq_completed]; exact .complete _ w)
    case formatTrack => exact openTrack_then _ _ _ (fun u dr w hd hc hb => zeroFrom_ended rfl w hd hc (by
      simp only [State.cfgOf, hd.1]; exact hb))
    case formatBadTrack => exact openTrack_then _ _ _ (fun u dr w hd hc hb => zeroFrom_ended rfl w hd hc (by
      simp only [State.cfgOf, hd.1]; exact hb))
    case formatDrive => exact openTrack_then _ _ _ (fun u dr w hd hc hb => zeroFrom_ended rfl w hd hc (by
      simp only [State.cfgOf, hd.1]; omega))
    case read => exact openSector_then _ _ _ (fun u w ht => sendSector_ended (.inl ⟨rfl, rfl⟩) rfl rfl w (fun _ => ht))
    case readLong => exact openSector_then _ _ _ (fun u w ht => sendSector_ended (.inr ⟨rfl, rfl⟩) rfl rfl w (fun _ => ht))
    case write =>
      exact openSector_then _ _ _ (fun u w ht => by
        rw [enterReceive_eq_receiving]; exact .receive _ _ rfl w (fun _ _ => ht))
    case writeLong =>
      exact openSector_then _ _ _ (fun u w ht => by
        rw [enterReceive_eq_receiving]; exact .receive _ _ rfl w (fun _ _ => ht))
    case specify => exact receive_ended rfl rfl _
    case writeBuffer => exact receive_ended rfl rfl _
    case dtcSetGeom => exact receive_ended rfl rfl _
    case st11SetGeom => exact receive_ended rfl rfl _
    case readBuffer =>
      show Ended _ _ (State.enterSend 512 _)
      rw [enterSend_eq_sending]
      exact .send _ _ rfl (.refl _) (fun h _ => by cases h)
    case dtcGetGeom =>
      show Ended _ _ (getGeomStart _ _)
      unfold getGeomStart
      split
      · exact sendBytes_ended _ (by simp [geomBlock]) (by simp [geomBlock, sendLength]) rfl _
      · exact fail_ended (by decide) _
    case st11GetGeom =>
      show Ended _ _ (getGeomStart _ _)
      unfold getGeomStart
      split
      · exact sendBytes_ended _ (by simp [geomBlock]) (by simp [geomBlock, sendLength]) rfl _
      · exact fail_ended (by decide) _
    case ramDiag => exact complete_ended _
    case driveDiag => exact complete_ended _
    case ctrlDiag => exact complete_ended _
    case wrongDtcGetGeom => exact fail_ended (by decide) _
    case wrongDtcSetGeom => exact fail_ended (by decide) _
    case wrongSt11GetGeom => exact fail_ended (by decide) _
    case wrongSt11SetGeom => exact fail_ended (by decide) _
    case unknown => exact fail_ended (by decide) _
  · cases i <;> simp only [sendLength, Option.isSome_none, Bool.false_eq_true] at hl <;>
      simp only [Instr.fields?, Option.some.injEq] at hf <;> subst hf <;> refine ⟨_, scheduledStep_sent hp, ?_⟩
    case sense =>
      show Ended _ _ (State.complete _)
      rw [complete_eq_completed]
      exact .cleared ⟨_, rfl⟩ hp
    case read => exact sectorAdvance_then_send (.inl ⟨rfl, rfl⟩) rfl rfl hp
    case readLong => exact sectorAdvance_then_send (.inr ⟨rfl, rfl⟩) rfl rfl hp
    case readBuffer => exact complete_ended _
    case st11GetGeom => exact complete_ended _
    case dtcGetGeom => exact complete_ended _
  · cases i <;> simp only [receiveLength, Option.isSome_none, Bool.false_eq_true] at hl <;>
      simp only [Instr.fields?, Option.some.injEq] at hf <;> subst hf <;> refine ⟨_, scheduledStep_received hp, ?_⟩
    case write => exact storeBlock_ended rfl rfl hp
    case writeLong => exact storeBlock_ended rfl rfl hp
    case specify =>
      show Ended _ _ (specifyReceived _)
      unfold specifyReceived
      exact configure_ended _ _
    case writeBuffer => exact complete_ended _
    case st11SetGeom => exact configure_ended _ _
    case dtcSetGeom => exact configure_ended _ _
  · cases i <;> simp only [hasDone, Bool.false_eq_true] at hl <;>
      simp only [Instr.fields?, Option.some.injEq] at hf <;> subst hf <;> refine ⟨_, scheduledStep_done hp, ?_⟩
    case recalibrate =>
      show Ended _ _ (recalibrateDone _)
      unfold recalibrateDone
      rw [complete_eq_completed]
      exact .complete _ (worked_seeked _ _ _)
    case formatTrack => exact complete_ended _
    case formatBadTrack => exact complete_ended _
    case formatDrive => exact complete_ended _

end Sys2Proof.Machine
end

