-- ==== Sys2Proof/Laws/PerInstr.lean ====
section
/-! SUPPORT. Facts about every instruction as syntax, one lemma per constructor. -/

/-- A command is encoded as a command block of six bytes, a port access as a bus access of eight bits
(30_encoding.md R100, R101, R120; 20_memory.md R72). -/
def Sys2Proof.Laws.EncodedShape.Statement (i : Sys2Proof.Instr) : Prop :=
  ∀ p : Sys2Proof.Params,
    match Sys2Proof.encode p i with
    | .cdb bytes => i.fields?.isSome = true ∧ bytes.length = 6
    | .bus a => i.fields? = none ∧ a.width = 8

theorem Sys2Proof.Laws.EncodedShape.testReady (f : Sys2Proof.Cdb) :
    Sys2Proof.Laws.EncodedShape.Statement (.testReady f) := fun _ => ⟨rfl, rfl⟩

theorem Sys2Proof.Laws.EncodedShape.recalibrate (f : Sys2Proof.Cdb) :
    Sys2Proof.Laws.EncodedShape.Statement (.recalibrate f) := fun _ => ⟨rfl, rfl⟩

theorem Sys2Proof.Laws.EncodedShape.sense (f : Sys2Proof.Cdb) :
    Sys2Proof.Laws.EncodedShape.Statement (.sense f) := fun _ => ⟨rfl, rfl⟩

theorem Sys2Proof.Laws.EncodedShape.formatDrive (f : Sys2Proof.Cdb) :
    Sys2Proof.Laws.EncodedShape.Statement (.formatDrive f) := fun _ => ⟨rfl, rfl⟩

theorem Sys2Proof.Laws.EncodedShape.verify (f : Sys2Proof.Cdb) :
    Sys2Proof.Laws.EncodedShape.Statement (.verify f) := fun _ => ⟨rfl, rfl⟩

theorem Sys2Proof.Laws.EncodedShape.formatTrack (f : Sys2Proof.Cdb) :
    Sys2Proof.Laws.EncodedShape.Statement (.formatTrack f) := fun _ => ⟨rfl, rfl⟩

theorem Sys2Proof.Laws.EncodedShape.formatBadTrack (f : Sys2Proof.Cdb) :
    Sys2Proof.Laws.EncodedShape.Statement (.formatBadTrack f) := fun _ => ⟨rfl, rfl⟩

theorem Sys2Proof.Laws.EncodedShape.read (f : Sys2Proof.Cdb) :
    Sys2Proof.Laws.EncodedShape.Statement (.read f) := fun _ => ⟨rfl, rfl⟩

theorem Sys2Proof.Laws.EncodedShape.write (f : Sys2Proof.Cdb) :
    Sys2Proof.Laws.EncodedShape.Statement (.write f) := fun _ => ⟨rfl, rfl⟩

theorem Sys2Proof.Laws.EncodedShape.seek (f : Sys2Proof.Cdb) :
    Sys2Proof.Laws.EncodedShape.Statement (.seek f) := fun _ => ⟨rfl, rfl⟩

theorem Sys2Proof.Laws.EncodedShape.specify (f : Sys2Proof.Cdb) :
    Sys2Proof.Laws.EncodedShape.Statement (.specify f) := fun _ => ⟨rfl, rfl⟩

theorem Sys2Proof.Laws.EncodedShape.readBuffer (f : Sys2Proof.Cdb) :
    Sys2Proof.Laws.EncodedShape.Statement (.readBuffer f) := fun _ => ⟨rfl, rfl⟩

theorem Sys2Proof.Laws.EncodedShape.writeBuffer (f : Sys2Proof.Cdb) :
    Sys2Proof.Laws.EncodedShape.Statement (.writeBuffer f) := fun _ => ⟨rfl, rfl⟩

theorem Sys2Proof.Laws.EncodedShape.ramDiag (f : Sys2Proof.Cdb) :
    Sys2Proof.Laws.EncodedShape.Statement (.ramDiag f) := fun _ => ⟨rfl, rfl⟩

theorem Sys2Proof.Laws.EncodedShape.driveDiag (f : Sys2Proof.Cdb) :
    Sys2Proof.Laws.EncodedShape.Statement (.driveDiag f) := fun _ => ⟨rfl, rfl⟩

theorem Sys2Proof.Laws.EncodedShape.ctrlDiag (f : Sys2Proof.Cdb) :
    Sys2Proof.Laws.EncodedShape.Statement (.ctrlDiag f) := fun _ => ⟨rfl, rfl⟩

theorem Sys2Proof.Laws.EncodedShape.readLong (f : Sys2Proof.Cdb) :
    Sys2Proof.Laws.EncodedShape.Statement (.readLong f) := fun _ => ⟨rfl, rfl⟩

theorem Sys2Proof.Laws.EncodedShape.writeLong (f : Sys2Proof.Cdb) :
    Sys2Proof.Laws.EncodedShape.Statement (.writeLong f) := fun _ => ⟨rfl, rfl⟩

theorem Sys2Proof.Laws.EncodedShape.st11GetGeom (f : Sys2Proof.Cdb) :
    Sys2Proof.Laws.EncodedShape.Statement (.st11GetGeom f) := fun _ => ⟨rfl, rfl⟩

theorem Sys2Proof.Laws.EncodedShape.st11SetGeom (f : Sys2Proof.Cdb) :
    Sys2Proof.Laws.EncodedShape.Statement (.st11SetGeom f) := fun _ => ⟨rfl, rfl⟩

theorem Sys2Proof.Laws.EncodedShape.dtcSetGeom (f : Sys2Proof.Cdb) :
    Sys2Proof.Laws.EncodedShape.Statement (.dtcSetGeom f) := fun _ => ⟨rfl, rfl⟩

theorem Sys2Proof.Laws.EncodedShape.dtcGetGeom (f : Sys2Proof.Cdb) :
    Sys2Proof.Laws.EncodedShape.Statement (.dtcGetGeom f) := fun _ => ⟨rfl, rfl⟩

theorem Sys2Proof.Laws.EncodedShape.wrongDtcGetGeom (f : Sys2Proof.Cdb) :
    Sys2Proof.Laws.EncodedShape.Statement (.wrongDtcGetGeom f) := fun _ => ⟨rfl, rfl⟩

theorem Sys2Proof.Laws.EncodedShape.wrongDtcSetGeom (f : Sys2Proof.Cdb) :
    Sys2Proof.Laws.EncodedShape.Statement (.wrongDtcSetGeom f) := fun _ => ⟨rfl, rfl⟩

theorem Sys2Proof.Laws.EncodedShape.wrongSt11GetGeom (f : Sys2Proof.Cdb) :
    Sys2Proof.Laws.EncodedShape.Statement (.wrongSt11GetGeom f) := fun _ => ⟨rfl, rfl⟩

theorem Sys2Proof.Laws.EncodedShape.wrongSt11SetGeom (f : Sys2Proof.Cdb) :
    Sys2Proof.Laws.EncodedShape.Statement (.wrongSt11SetGeom f) := fun _ => ⟨rfl, rfl⟩

theorem Sys2Proof.Laws.EncodedShape.unknown (op : Sys2Proof.Byte) (f : Sys2Proof.Cdb) :
    Sys2Proof.Laws.EncodedShape.Statement (.unknown op f) := fun _ => ⟨rfl, rfl⟩

theorem Sys2Proof.Laws.EncodedShape.dataWrite (v : Sys2Proof.Byte) :
    Sys2Proof.Laws.EncodedShape.Statement (.dataWrite v) := fun _ => ⟨rfl, rfl⟩

theorem Sys2Proof.Laws.EncodedShape.dataRead :
    Sys2Proof.Laws.EncodedShape.Statement .dataRead := fun _ => ⟨rfl, rfl⟩

theorem Sys2Proof.Laws.EncodedShape.resetWrite (v : Sys2Proof.Byte) :
    Sys2Proof.Laws.EncodedShape.Statement (.resetWrite v) := fun _ => ⟨rfl, rfl⟩

theorem Sys2Proof.Laws.EncodedShape.statusRead :
    Sys2Proof.Laws.EncodedShape.Statement .statusRead := fun _ => ⟨rfl, rfl⟩

theorem Sys2Proof.Laws.EncodedShape.selectWrite (v : Sys2Proof.Byte) :
    Sys2Proof.Laws.EncodedShape.Statement (.selectWrite v) := fun _ => ⟨rfl, rfl⟩

theorem Sys2Proof.Laws.EncodedShape.switchRead :
    Sys2Proof.Laws.EncodedShape.Statement .switchRead := fun _ => ⟨rfl, rfl⟩

theorem Sys2Proof.Laws.EncodedShape.maskWrite (v : Sys2Proof.Byte) :
    Sys2Proof.Laws.EncodedShape.Statement (.maskWrite v) := fun _ => ⟨rfl, rfl⟩

theorem Sys2Proof.Laws.EncodedShape.maskRead :
    Sys2Proof.Laws.EncodedShape.Statement .maskRead := fun _ => ⟨rfl, rfl⟩
end

