-- ==== Sys2Proof/Tests/Slice0.lean ====
section
/-! SUPPORT. The model's own tests: each check of WellFormed refuses an ill-formed term, each constructor's decoding
on words written out from the encoding tables, single steps against the vectors of 95_test_vectors.md, and a witness
for the hypotheses of each statement. -/

namespace Sys2Proof.Tests

open Sys2Proof Sys2Proof.Machine

/-! ## The well-formedness checks (30_encoding.md R108 to R111) -/

/-- A command block of zeros. -/
def zeros : Cdb := { drive := 0, head := 0, sector := 0, cyl := 0, count := 0, control := 0 }

theorem test_wellFormed_vendor_rows_need_their_family :
    WellFormed (.ofFamily .xebec) (.dtcGetGeom zeros) = false ∧ WellFormed (.ofFamily .st11) (.dtcSetGeom zeros) = false ∧
    WellFormed (.ofFamily .xebec) (.st11GetGeom zeros) = false ∧
    WellFormed (.ofFamily .dtc) (.st11SetGeom zeros) = false := by decide

theorem test_wellFormed_wrongFamily_rows_need_another_family :
    WellFormed (.ofFamily .dtc) (.wrongDtcGetGeom zeros) = false ∧
    WellFormed (.ofFamily .dtc) (.wrongDtcSetGeom zeros) = false ∧
    WellFormed (.ofFamily .st11) (.wrongSt11GetGeom zeros) = false ∧
    WellFormed (.ofFamily .st11) (.wrongSt11SetGeom zeros) = false := by decide

theorem test_wellFormed_unknown_needs_an_unlisted_opcode :
    WellFormed (.ofFamily .xebec) (.unknown 0x08 zeros) = false ∧
    WellFormed (.ofFamily .xebec) (.unknown 0xFF zeros) = false ∧
    WellFormed (.ofFamily .xebec) (.unknown 0x55 zeros) = true := by decide

/-! ## Decoding: the bytes are written out from 30_encoding.md R101 and R108 -/

/-- Drive 5 (101), head 19 (10011), sector 37 (100101), cylinder 0x2C7 (10 1100 0111), count 0xA9, control 0x5B: bytes
1 to 5 are 10110011, 10100101, 11000111, 10101001, 01011011. -/
def mixed : Cdb := { drive := 5, head := 19, sector := 37, cyl := 0x2C7, count := 0xA9, control := 0x5B }

/-- The command with this opcode and the fields of `mixed`. -/
def mixedCode (op : Byte) : Code := .cdb [op, 0xB3, 0xA5, 0xC7, 0xA9, 0x5B]

theorem test_decode_common_commands :
    decode (.ofFamily .xebec) (mixedCode 0x00) = .ok (.testReady mixed) ∧
    decode (.ofFamily .xebec) (mixedCode 0x01) = .ok (.recalibrate mixed) ∧
    decode (.ofFamily .dtc) (mixedCode 0x03) = .ok (.sense mixed) ∧
    decode (.ofFamily .st11) (mixedCode 0x04) = .ok (.formatDrive mixed) ∧
    decode (.ofFamily .wd1002a) (mixedCode 0x05) = .ok (.verify mixed) ∧
    decode (.ofFamily .xebec) (mixedCode 0x06) = .ok (.formatTrack mixed) ∧
    decode (.ofFamily .xebec) (mixedCode 0x07) = .ok (.formatBadTrack mixed) ∧
    decode (.ofFamily .xebec) (mixedCode 0x08) = .ok (.read mixed) ∧
    decode (.ofFamily .xebec) (mixedCode 0x0A) = .ok (.write mixed) := by decide

theorem test_decode_common_commands_above :
    decode (.ofFamily .xebec) (mixedCode 0x0B) = .ok (.seek mixed) ∧
    decode (.ofFamily .xebec) (mixedCode 0x0C) = .ok (.specify mixed) ∧
    decode (.ofFamily .xebec) (mixedCode 0x0E) = .ok (.readBuffer mixed) ∧
    decode (.ofFamily .xebec) (mixedCode 0x0F) = .ok (.writeBuffer mixed) ∧
    decode (.ofFamily .xebec) (mixedCode 0xE0) = .ok (.ramDiag mixed) ∧
    decode (.ofFamily .xebec) (mixedCode 0xE3) = .ok (.driveDiag mixed) ∧
    decode (.ofFamily .xebec) (mixedCode 0xE4) = .ok (.ctrlDiag mixed) ∧
    decode (.ofFamily .xebec) (mixedCode 0xE5) = .ok (.readLong mixed) ∧
    decode (.ofFamily .xebec) (mixedCode 0xE6) = .ok (.writeLong mixed) := by decide

theorem test_decode_vendor_commands :
    decode (.ofFamily .dtc) (mixedCode 0xFF) = .ok (.dtcGetGeom mixed) ∧
    decode (.ofFamily .dtc) (mixedCode 0xFE) = .ok (.dtcSetGeom mixed) ∧
    decode (.ofFamily .st11) (mixedCode 0xF8) = .ok (.st11GetGeom mixed) ∧
    decode (.ofFamily .st11) (mixedCode 0xFA) = .ok (.st11SetGeom mixed) := by decide

theorem test_decode_wrongFamily_and_unknown :
    decode (.ofFamily .wd1002a) (mixedCode 0xFF) = .ok (.wrongDtcGetGeom mixed) ∧
    decode (.ofFamily .xebec) (mixedCode 0xFE) = .ok (.wrongDtcSetGeom mixed) ∧
    decode (.ofFamily .dtc) (mixedCode 0xF8) = .ok (.wrongSt11GetGeom mixed) ∧
    decode (.ofFamily .dtc) (mixedCode 0xFA) = .ok (.wrongSt11SetGeom mixed) ∧
    decode (.ofFamily .xebec) (mixedCode 0x02) = .ok (.unknown 0x02 mixed) ∧
    decode (.ofFamily .xebec) (mixedCode 0x09) = .ok (.unknown 0x09 mixed) := by decide

/-- An 8-bit bus access. -/
def bus (addr : BitVec 16) (write : Bool) (data : Byte) : Access := { addr, write, width := 8, data }

theorem test_decode_port_accesses :
    decodeAccess (bus 0x320 true 0x5A) = .ok (.dataWrite 0x5A) ∧ decodeAccess (bus 0x320 false 0) = .ok .dataRead ∧
    decodeAccess (bus 0x321 true 0x5A) = .ok (.resetWrite 0x5A) ∧ decodeAccess (bus 0x321 false 0) = .ok .statusRead ∧
    decodeAccess (bus 0x322 true 0x5A) = .ok (.selectWrite 0x5A) ∧ decodeAccess (bus 0x322 false 0) = .ok .switchRead ∧
    decodeAccess (bus 0x323 true 0x5A) = .ok (.maskWrite 0x5A) ∧ decodeAccess (bus 0x323 false 0) = .ok .maskRead := by
  decide

theorem test_decode_refuses_by_name :
    decode (.ofFamily .xebec) (.cdb [0x08, 0, 0, 0, 0]) = .error .commandLength ∧
    decode (.ofFamily .xebec) (.cdb [0x08, 0, 0, 0, 0, 0, 0]) = .error .commandLength ∧
    decode (.ofFamily .xebec) (.bus { addr := 0x320, write := false, width := 16, data := 0 }) = .error .accessWidth := by
  decide

/-- A word of the opcode table as the table numbers its bits. -/
theorem test_decodeTableWord :
    decodeTableWord 8 0x08 = some (.read zeros) ∧ decodeTableWord 8 0xFF = some (.wrongDtcGetGeom zeros) ∧
    decodeTableWord 16 0x200B = some (.seek { zeros with drive := 1 }) := by decide

/-! ## Single steps (95_test_vectors.md) -/

/-- Whether a step answers a next state, and of it `P` holds. -/
def gives (o : Host.Outcome State Fault Refusal) (P : State → Bool) : Bool :=
  match o with
  | .next t => P t
  | .fault _ => false
  | .refused _ => false

/-- The step of the machine that runs this command block. -/
def issue (s : State) (b : Vector Byte 6) : Host.Outcome State Fault Refusal := step (s.withCommand b)

/-- The same command's later step, in the phase given. -/
def resume (s : State) (p : Phase) (b : Vector Byte 6) : Host.Outcome State Fault Refusal :=
  step { s.withCommand b with phase := p }

/-- Completed, with this completion byte and this stored error. -/
def ended (completion error : Byte) (t : State) : Bool :=
  t.phase == .completionByte && t.status == 0x0F && t.completionByte == completion && t.errorCode == error

/-- The drive of slot `d` stands at cylinder `x`. -/
def standsAt (d : Nat) (x : BitVec 16) (t : State) : Bool := (t.drives[d]?).map Drive.currentCylinder == some x

/-- The address register holds cylinder, head, sector. -/
def addrIs (x : BitVec 16) (h s : Byte) (t : State) : Bool :=
  t.addr.cyl == x && t.addr.head == h && t.addr.sector == s

/-- The common start state with this image in drive 0. -/
def withImage (m : Memory) : State :=
  State.attach (.ofFamily .xebec) [{ present := true, phys := ⟨306, 4, 17⟩, image := m }, ⟨false, ⟨0, 0, 0⟩, []⟩]
    (Vector.replicate 6 0) []

/-- The common start state of another family. -/
def ofFamily (f : Family) : State := State.attach (.ofFamily f) State.commonDrives (Vector.replicate 6 0) []

/-- The common start state at this address. -/
def atAddress (cyl : BitVec 16) (head sector count : Byte) (lba : BitVec 32) : State :=
  { State.reset with addr := { cyl, head, sector, count, lba } }

/-- 2.3, TEST_READY of drives 0, 1 and 2 of the common start state. -/
theorem test_testReady_by_presence :
    gives (issue .reset #v[0x00, 0x00, 0, 0, 0, 0]) (ended 0x00 0x00) ∧
    gives (issue .reset #v[0x00, 0x20, 0, 0, 0, 0]) (ended 0x22 0x04) ∧
    gives (issue .reset #v[0x00, 0x40, 0, 0, 0, 0]) (ended 0x42 0x04) := by decide

/-- V30, V31 -/
theorem test_recalibrate_waits_or_fails :
    gives (issue .reset #v[0x01, 0x00, 0, 0, 0, 0])
      (fun t => t.phase == .done && t.status == 0x08 && t.pending == some .recal) ∧
    gives (issue .reset #v[0x01, 0x20, 0, 0, 0, 0]) (ended 0x22 0x04) := by decide

/-- S5: cylinder 0 for XEBEC, 1 for ST11. -/
theorem test_recalibrate_rewinds :
    gives (resume (State.reset.seekTo 0 200) .done #v[0x01, 0x00, 0, 0, 0, 0])
      (fun t => ended 0x00 0x00 t && standsAt 0 0 t) ∧
    gives (resume ((ofFamily .st11).seekTo 0 200) .done #v[0x01, 0x00, 0, 0, 0, 0])
      (fun t => ended 0x00 0x00 t && standsAt 0 1 t) := by decide

/-- V32, V33: the blocks 02 00 40 90 and 02 00 40 31. -/
theorem test_sense_block :
    gives (issue { atAddress 400 0 0 0 0 with errorCode := 0x02 } #v[0x03, 0x00, 0, 0, 0, 0])
      (fun t => t.status == 0x0B && t.bufCount == 4 && Memory.readBytes t.buffer 0 4 == [0x02, 0x00, 0x40, 0x90]) ∧
    gives (issue { ofFamily .st11 with errorCode := 0x02, addr := ⟨306, 0, 0, 0, 0⟩ } #v[0x03, 0x00, 0, 0, 0, 0])
      (fun t => Memory.readBytes t.buffer 0 4 == [0x02, 0x00, 0x40, 0x31]) := by decide

/-- 2.3: SENSE of drive 7 completes, the error cleared. -/
theorem test_sense_clears_the_error :
    gives (resume { State.reset with errorCode := 0x1F } .sentData #v[0x03, 0xE0, 0, 0, 0, 0]) (ended 0xE0 0x00) := by
  decide

/-- V37 -/
theorem test_formatDrive_zeroes_to_the_end :
    gives (issue .reset #v[0x04, 0x00, 0x40, 0x31, 0, 0])
      (fun t => t.phase == .done && t.status == 0x08 && t.log == [.imageZeroed 0 20740 68] &&
        t.pending == some (.format 68)) := by decide

/-- V39: count 0 is 256 sectors; the last one checked is block 255 (10_state.md R48). -/
theorem test_verify_count_zero :
    gives (issue .reset #v[0x05, 0x00, 0x00, 0x00, 0x00, 0])
      (fun t => ended 0x00 0x00 t && addrIs 3 3 1 t && standsAt 0 3 t && t.addr.lba == 255) := by
  set_option maxRecDepth 20000 in decide

/-- V41: saturation on the last cylinder; the last sector checked is (305,0,0), block 20740 (10_state.md R48). -/
theorem test_verify_saturates :
    gives (issue .reset #v[0x05, 0x03, 0x4F, 0x31, 0x03, 0])
      (fun t => ended 0x00 0x00 t && addrIs 305 0 1 t && standsAt 0 305 t && t.addr.lba == 20740) := by decide

/-- V34: blocks 102 to 118 are zeroed; byte 511 of block 101 and byte 0 of block 119 stay. -/
theorem test_formatTrack_zeroes_the_track :
    gives (issue (withImage [(52223, 0xA1), (52224, 0xA2), (60927, 0xA3), (60928, 0xA4)])
        #v[0x06, 0x02, 0x00, 0x01, 0, 0])
      (fun t => t.log == [.imageZeroed 0 102 17] &&
        (t.drives[0]?).map Drive.image == some [(52223, 0xA1), (60928, 0xA4)]) := by decide

/-- V35 -/
theorem test_formatTrack_bad_head :
    gives (issue .reset #v[0x06, 0x04, 0x00, 0x01, 0, 0]) (fun t => ended 0x02 0x12 t && t.log == []) := by decide

/-- As V34 (44_commands.md R248). -/
theorem test_formatBadTrack_zeroes_the_track :
    gives (issue .reset #v[0x07, 0x02, 0x00, 0x01, 0, 0])
      (fun t => t.phase == .done && t.log == [.imageZeroed 0 102 17]) := by decide

/-- V42: block 16, whose first byte is 0xC3 and last 0x3C, goes to the buffer. -/
theorem test_read_sends_the_block :
    gives (issue (withImage [(8192, 0xC3), (8703, 0x3C), (8704, 0x55)]) #v[0x08, 0x00, 0x10, 0x00, 0x02, 0])
      (fun t => t.phase == .sendData && t.status == 0x0B && t.bufCount == 512 && t.addr.lba == 16 &&
        t.buffer == [(0, 0xC3), (511, 0x3C)]) := by
  set_option maxRecDepth 20000 in decide

/-- V44: after (305,3,16) comes (305,0,0), block 20740. -/
theorem test_read_saturates :
    gives (resume ((atAddress 305 3 16 2 20807).seekTo 0 305) .sentData #v[0x08, 0x03, 0x50, 0x31, 0x02, 0])
      (fun t => t.phase == .sendData && addrIs 305 0 0 t && t.addr.count == 1 && t.addr.lba == 20740) := by decide

/-- V47: the sector goes to block 67, the next is (1,0,0), block 68, and the drive steps. -/
theorem test_write_stores_and_goes_on :
    gives (resume { atAddress 0 3 16 2 67 with buffer := [(0, 0xA5), (511, 0x5A), (512, 0x77)] } .receivedData
        #v[0x0A, 0x03, 0x10, 0x00, 0x02, 0])
      (fun t => t.phase == .receiveData && t.status == 0x09 && addrIs 1 0 0 t && t.addr.lba == 68 && standsAt 0 1 t &&
        t.log == [.imageWritten 0 67] && (t.drives[0]?).map Drive.image == some [(34304, 0xA5), (34815, 0x5A)]) := by
  set_option maxRecDepth 20000 in decide

/-- S9, its first step: a DMA-driven host-to-controller phase. -/
theorem test_write_asks_by_dma :
    gives (issue { State.reset with irqDmaMask := 0x01 } #v[0x0A, 0x00, 0x00, 0x00, 0x01, 0x00])
      (fun t => t.phase == .receiveData && t.status == 0x18 && t.xferDma && t.pending == some .dma) := by decide

/-- S8 -/
theorem test_seek_out_of_range_clamps :
    gives (issue .reset #v[0x0B, 0x00, 0x40, 0x90, 0, 0]) (fun t => ended 0x02 0x02 t && standsAt 0 305 t) := by decide

/-- V22, V24: the offset of ST11. -/
theorem test_seek_adds_the_offset :
    gives (issue (ofFamily .st11) #v[0x0B, 0x00, 0x00, 0x00, 0, 0]) (fun t => ended 0x00 0x00 t && standsAt 0 1 t) ∧
    gives (issue (ofFamily .st11) #v[0x0B, 0x00, 0x40, 0x30, 0, 0])
      (fun t => ended 0x00 0x00 t && standsAt 0 305 t) := by decide

/-- V50, V52: the configured geometry, of an absent drive too; sectors per track stay. -/
theorem test_specify_stores :
    gives (resume { State.reset with buffer := [(0, 0x01), (1, 0x32), (2, 0x02), (3, 0x99)] } .receivedData
        #v[0x0C, 0x00, 0, 0, 0, 0])
      (fun t => ended 0x00 0x00 t && (t.drives[0]?).map Drive.cfg == some ⟨306, 2, 17⟩) ∧
    gives (resume { State.reset with buffer := [(0, 0x02), (1, 0x64), (2, 0x04)] } .receivedData
        #v[0x0C, 0x20, 0, 0, 0, 0])
      (fun t => ended 0x20 0x00 t && (t.drives[1]?).map Drive.cfg == some ⟨612, 4, 0⟩) := by decide

/-- V51 -/
theorem test_specify_without_a_slot :
    gives (resume .reset .receivedData #v[0x0C, 0x40, 0, 0, 0, 0]) (ended 0x42 0x04) := by decide

/-- V53, the phases it goes through. -/
theorem test_buffer_commands :
    gives (issue .reset #v[0x0F, 0xE0, 0, 0, 0, 0])
      (fun t => t.phase == .receiveData && t.status == 0x09 && t.bufCount == 512) ∧
    gives (issue { State.reset with buffer := [(7, 0x42)] } #v[0x0E, 0xE0, 0, 0, 0, 0])
      (fun t => t.phase == .sendData && t.status == 0x0B && t.bufCount == 512 && t.buffer == [(7, 0x42)]) := by decide

/-- 2.3, and 44_commands.md R267 to R269: no drive check, errorCode unchanged. -/
theorem test_diagnostics_complete :
    gives (issue { State.reset with errorCode := 0x12 } #v[0xE0, 0x00, 0, 0, 0, 0]) (ended 0x00 0x12) ∧
    gives (issue .reset #v[0xE3, 0xE0, 0, 0, 0, 0]) (ended 0xE0 0x00) ∧
    gives (issue .reset #v[0xE4, 0x40, 0, 0, 0, 0]) (ended 0x40 0x00) := by decide

/-- V46 with the filler 11 22 33 44: 512 bytes of the block, then the filler (30_encoding.md R116). -/
theorem test_readLong_adds_the_filler :
    gives (issue { withImage [(0, 0xC3), (512, 0x55)] with params := { Params.ofFamily .xebec with
        eccFill := #v[0x11, 0x22, 0x33, 0x44] } } #v[0xE5, 0x00, 0, 0, 1, 0])
      (fun t => t.bufCount == 516 && t.buffer == [(0, 0xC3), (512, 0x11), (513, 0x22), (514, 0x33), (515, 0x44)]) := by
  set_option maxRecDepth 20000 in decide

/-- V48: the four bytes behind the sector stay in the buffer. -/
theorem test_writeLong_drops_the_filler :
    gives (resume { atAddress 0 0 0 1 0 with buffer := [(0, 0xA5), (512, 0x77), (515, 0x78)] } .receivedData
        #v[0xE6, 0x00, 0, 0, 1, 0])
      (fun t => ended 0x00 0x00 t && (t.drives[0]?).map Drive.image == some [(0, 0xA5)] &&
        t.buffer == [(0, 0xA5), (512, 0x77), (515, 0x78)]) := by
  set_option maxRecDepth 20000 in decide

/-- V54 and 44_commands.md R273: the phase; an index without a slot. -/
theorem test_getGeom :
    gives (issue (ofFamily .dtc) #v[0xFF, 0x20, 0, 0, 0, 0]) (fun t => t.phase == .sendData && t.bufCount == 16) ∧
    gives (issue (ofFamily .st11) #v[0xF8, 0x40, 0, 0, 0, 0]) (ended 0x42 0x04) := by decide

/-- V55, and 44_commands.md R271. -/
theorem test_setGeom :
    gives (resume (ofFamily .st11) .receivedData #v[0xFA, 0x40, 0, 0, 0, 0]) (ended 0x42 0x04) ∧
    gives (issue (ofFamily .dtc) #v[0xFE, 0x00, 0, 0, 0, 0])
      (fun t => t.phase == .receiveData && t.status == 0x09 && t.bufCount == 16) := by decide

/-- 2.3, V56: before any drive check. -/
theorem test_wrongFamily_and_unknown :
    gives (issue .reset #v[0xFF, 0x00, 0, 0, 0, 0]) (ended 0x02 0x20) ∧
    gives (issue .reset #v[0xFE, 0x40, 0, 0, 0, 0]) (ended 0x42 0x20) ∧
    gives (issue (ofFamily .dtc) #v[0xFA, 0x00, 0, 0, 0, 0]) (ended 0x02 0x20) ∧
    gives (issue (ofFamily .dtc) #v[0xF8, 0x00, 0, 0, 0, 0]) (ended 0x02 0x20) ∧
    gives (issue .reset #v[0x55, 0x00, 0, 0, 0, 0]) (ended 0x02 0x20) := by decide

/-- One host access at a state. -/
def access (s : State) (a : Access) : Host.Outcome State Fault Refusal := step { s with turns := [.host a] }

/-- V1, and V15's select pulse: a pending step stays. -/
theorem test_selectWrite_opens_the_command_block :
    gives (access { State.reset with commandPos := 3, pending := some .cmd, phase := .startCommand }
        (bus 0x322 true 0x5A))
      (fun t => t.phase == .receiveCommand && t.status == 0x0D && t.commandPos == 0 && t.pending == some .cmd) := by
  decide

/-- V2, V3: the sixth byte starts the command. -/
theorem test_dataWrite_command_bytes :
    gives (access { State.reset with phase := .receiveCommand, status := 0x0D, commandPos := 4 } (bus 0x320 true 0x5A))
      (fun t => t.phase == .receiveCommand && t.status == 0x0D && t.commandPos == 5 && t.command[4] == 0x5A &&
        t.pending == none) ∧
    gives (access { State.reset with phase := .receiveCommand, status := 0x0D, commandPos := 5 } (bus 0x320 true 0x5A))
      (fun t => t.phase == .startCommand && t.status == 0x08 && t.command[5] == 0x5A && t.pending == some .cmd) := by
  decide

/-- V4, V5, V6: accesses out of turn. -/
theorem test_data_accesses_out_of_turn :
    gives (access .reset (bus 0x320 false 0))
      (fun t => t == { State.reset with busOut := 0xFF, log := [.violation .readData] }) ∧
    gives (access .reset (bus 0x320 true 0x55)) (fun t => t == { State.reset with log := [.violation .writeData] }) := by
  decide

/-- V8 -/
theorem test_resetWrite_keeps_the_buffer :
    gives
      (access
        { State.reset with
          phase := .sendData, status := 0x0B, bufPos := 100, bufCount := 512, stall := 3
          pending := some .dma, buffer := [(9, 0x42)] } (bus 0x321 true 0xFF))
      (fun t => t == { State.reset with bufPos := 100, bufCount := 512, buffer := [(9, 0x42)] }) := by decide

/-- V7, V9, V10, V11 -/
theorem test_status_mask_and_switch :
    gives (access { State.reset with status := 0x1F } (bus 0x321 false 0)) (fun t => t.busOut == 0x1F && t.status == 0x1F) ∧
    gives (access .reset (bus 0x323 true 0x03)) (fun t => t == { State.reset with irqDmaMask := 0x03 }) ∧
    gives (access { State.reset with irqDmaMask := 0x03 } (bus 0x323 false 0)) (fun t => t.irqDmaMask == 0x03) ∧
    gives (access .reset (bus 0x322 false 0)) (fun t => t.busOut == 0x00) := by decide

/-- V14 -/
theorem test_dataRead_completion_byte :
    gives (access { State.reset with phase := .completionByte, status := 0x2F, completionByte := 0x22 }
        (bus 0x320 false 0))
      (fun t => t == { State.reset with completionByte := 0x22, busOut := 0x22 }) := by decide

/-- S7: the 512th byte read ends the phase. -/
theorem test_dataRead_last_byte :
    gives
      (access
        { State.reset with
          phase := .sendData, status := 0x0B, bufPos := 511, bufCount := 512
          buffer := [(511, 0x3C)] } (bus 0x320 false 0))
      (fun t => t.busOut == 0x3C && t.phase == .sentData && t.status == 0x08 && t.pending == some .step) := by decide

/-- V12, V13: the jumper byte, drive 0 in bits 3:2. -/
theorem test_jumper_byte :
    switchByte (.ofFamily .xebec) [(true, ⟨306, 4, 17⟩), (true, ⟨612, 4, 17⟩)] = 0x01 ∧
    switchByte (.ofFamily .xebec) [(true, ⟨615, 4, 17⟩), (true, ⟨306, 8, 17⟩)] = 0x0B ∧
    switchByte (.ofFamily .xebec) [(true, ⟨306, 4, 17⟩), (false, ⟨306, 8, 17⟩)] = 0x00 := by decide

/-- 2.5 -/
theorem test_translate_table :
    (State.reset.seekTo 0 2).translate 0 2 3 16 = .ok 203 ∧ (State.reset.seekTo 0 300).translate 0 300 2 5 = .ok 20439 ∧
    (State.reset.seekTo 0 305).translate 0 305 3 16 = .ok 20807 ∧
    (State.reset.seekTo 0 5).translate 0 6 0 0 = .error .illegalAddress ∧
    State.reset.translate 0 0 4 0 = .error .illegalAddress ∧ State.reset.translate 0 0 0 17 = .error .illegalAddress ∧
    State.reset.translate 1 0 0 0 = .error .notReady := by decide

/-- 2.6 -/
theorem test_nextSector_table :
    advance ⟨306, 4, 17⟩ ⟨0, 0, 5, 1, 9⟩ = ⟨0, 0, 6, 1, 9⟩ ∧ advance ⟨306, 4, 17⟩ ⟨0, 0, 16, 1, 9⟩ = ⟨0, 1, 0, 1, 9⟩ ∧
    advance ⟨306, 4, 17⟩ ⟨0, 3, 16, 1, 9⟩ = ⟨1, 0, 0, 1, 9⟩ ∧
    advance ⟨306, 4, 17⟩ ⟨305, 3, 16, 1, 9⟩ = ⟨305, 0, 0, 1, 9⟩ := by decide

/-- V25, V26: five or six sector bits; V27: a configured disk without cylinders. -/
theorem test_sector_bits_and_no_cylinders :
    gives (issue .reset #v[0x08, 0x00, 0x25, 0x00, 0x01, 0]) (ended 0x02 0x12) ∧
    gives (issue { State.reset with params := { Params.ofFamily .xebec with sectorBits := 5 } }
        #v[0x08, 0x00, 0x25, 0x00, 0x01, 0]) (fun t => t.phase == .sendData && t.addr.lba == 5) ∧
    gives (issue { State.reset with drives := [⟨true, ⟨306, 4, 17⟩, ⟨0, 4, 17⟩, 9, []⟩] }
        #v[0x08, 0x00, 0x00, 0x00, 0x01, 0]) (fun t => ended 0x02 0x12 t && standsAt 0 0 t) := by decide

/-- A WRITE by DMA in its data phase, `n` stalls behind it. -/
def dmaWriting (n : Nat) (dma : DmaAnswer) : State :=
  { State.reset with
    params := { Params.ofFamily .xebec with retryBudget := 2 }
    command := #v[0x0A, 0x00, 0x00, 0x00, 0x01, 0x00], commandPos := 6, phase := .receiveData
    status := if n = 0 then 0x18 else 0x1F, irqDmaMask := 0x01, xferDma := true, bufPos := 1, bufCount := 512
    stall := n, pending := some .dma, addr := ⟨0, 0, 0, 1, 0⟩, turns := [.fire dma] }

/-- P5: a byte sets the count back, NoData adds one, the second in a row is NoRecovery. -/
theorem test_dma_receive_steps :
    gives (step (dmaWriting 1 ⟨.byte 0x22, .noData⟩))
      (fun t => t.status == 0x18 && t.stall == 0 && t.bufPos == 2 && t.buffer == [(1, 0x22)] &&
        t.log == [.dmaIn 3 0x22] && t.pending == some .dma) ∧
    gives (step (dmaWriting 0 ⟨.noData, .ack⟩))
      (fun t => t.status == 0x1F && t.stall == 1 && t.bufPos == 1 && t.pending == some .stall) ∧
    gives (step (dmaWriting 1 ⟨.noData, .ack⟩))
      (fun t => ended 0x02 0x1F t && t.log == [.dmaNoData 3] && t.pending == none) := by decide

/-- V60, V61: the last byte of a DMA send, and the interrupt of the completion. -/
theorem test_dma_send_and_interrupt :
    gives
      (step
        { dmaWriting 0 ⟨.noData, .ack⟩ with
          command := #v[0x08, 0, 0, 0, 1, 0], phase := .sendData
          status := 0x1A, bufPos := 511, buffer := [(511, 0x3C)] })
      (fun t => t.phase == .sentData && t.status == 0x08 && t.log == [.dmaOut 3 0x3C] && t.pending == some .step) ∧
    gives (resume { atAddress 0 0 0 1 0 with irqDmaMask := 0x03 } .sentData #v[0x08, 0, 0, 0, 1, 0])
      (fun t => t.phase == .completionByte && t.status == 0x2F && t.log == [.irqRaised 5]) := by decide

/-- V15: a stale step. -/
theorem test_stale_step_is_logged :
    gives
      (step
        { State.reset with
          phase := .receiveCommand, status := 0x0D, pending := some .cmd
          turns := [.fire ⟨.noData, .noData⟩] })
      (fun t => t == { State.reset with phase := .receiveCommand, status := 0x0D, log := [.violation .stepNoHandler] }) := by
  decide

/-- 20_memory.md R84, 70_reset_and_hazards.md R332: detach and attach keep the image. -/
theorem test_detach_then_attach_keeps_the_image :
    gives
      (runSteps 2
        { (withImage [(9, 0x42)]).seekTo 0 7 with
          status := 0x0D, phase := .receiveCommand
          turns := [.detach, .attach] })
      (fun t => t.attached && t.phase == .idle && t.status == 0x00 && standsAt 0 0 t &&
        (t.drives[0]?).map Drive.image == some [(9, 0x42)]) := by decide

/-- 20_memory.md R83, 70_reset_and_hazards.md R340: a configured disk larger than the image marks the run, and the
machine stops. -/
theorem test_image_contract_stops_the_machine :
    gives (issue { State.reset with drives := [⟨true, ⟨1, 1, 1⟩, ⟨2, 1, 1⟩, 0, []⟩] } #v[0x08, 0, 0, 1, 1, 0])
      (fun t => t.fault && t.phase == .startCommand) ∧
    (match step { State.reset with fault := true } with | .fault .imageContract => true | _ => false) = true := by
  decide

/-- Writing 0x00 removes the entry; the form stays canonical (log 5). -/
theorem test_memory_canonical_form :
    Memory.writeBytes [(3, 0x11), (5, 0x22)] 4 [0x33, 0x00] = [(3, 0x11), (4, 0x33)] ∧
    Memory.zero [(3, 0x11), (5, 0x22), (9, 0x44)] 4 5 = [(3, 0x11), (9, 0x44)] := by decide

/-- A word of the table is run by the very next step (log 23). -/
theorem test_withFetchWord_runs_the_row :
    gives (step (State.reset.withFetchWord 8 0x01)) (fun t => t.phase == .done) ∧
    gives (step (State.reset.withFetchWord 8 0xFF)) (ended 0x02 0x20) ∧
    gives (step (State.reset.withFetchWord 8 0xE0)) (ended 0x00 0x00) := by decide

/-! ## Witnesses: states and operands that meet the hypotheses of each statement, clause by clause -/

theorem witness_DecodeEncodeRoundTrip :
    (Params.ofFamily .dtc).opcodes.distinct = true ∧ (Params.ofFamily .dtc).ioBase.extractLsb' 0 2 = 0 ∧
    WellFormed (.ofFamily .dtc) (.dtcGetGeom mixed) = true ∧ WellFormed (.ofFamily .dtc) (.wrongSt11SetGeom mixed) = true ∧
    WellFormed (.ofFamily .dtc) (.unknown 0x02 mixed) = true ∧ WellFormed (.ofFamily .dtc) .maskRead = true := by decide

theorem witness_BusDecodeByOffsetAndDirection :
    ({ addr := 0x320, write := true, width := 16, data := 0 } : Access).width ≠ 8 ∧
    (bus 0x323 true 0x5A).width = 8 ∧ (bus 0x323 true 0x5A).write = true ∧ (bus 0x323 true 0x5A).addr.toNat % 4 = 3 ∧
    (bus 0x320 false 0).write = false ∧ (bus 0x320 false 0).addr.toNat % 4 = 0 := by decide

/-- The common start state with these turns to come. -/
def facing (l : List Turn) : State := { State.reset with turns := l }

theorem witness_HostTurnRunsTheAccess :
    let s := facing [.host (bus 0x321 false 0), .detach]
    s.fault = false ∧ s.configOk = true ∧ s.attached = true ∧ s.turns = .host (bus 0x321 false 0) :: [.detach] ∧
    decodeAccess (bus 0x321 false 0) = .ok .statusRead := by decide

theorem witness_SchedulerTurnRunsTheCommand :
    let s := State.reset.withCommand #v[0x01, 0, 0, 0, 0, 0]
    let r := facing [.fire ⟨.noData, .ack⟩]
    (s.fault = false ∧ s.configOk = true ∧ s.attached = true ∧ s.turns = [.fire ⟨.noData, .noData⟩] ∧
      s.pending.isSome = true) ∧
    (r.fault = false ∧ r.configOk = true ∧ r.attached = true ∧ r.turns = [.fire ⟨.noData, .ack⟩] ∧ r.pending = none) := by
  decide

theorem witness_SilentHostLetsTheSchedulerRun :
    let s := State.reset.enterStart
    (s.fault = false ∧ s.configOk = true ∧ s.attached = true ∧ s.turns = [] ∧ s.pending.isSome = true) ∧
    (State.reset.fault = false ∧ State.reset.configOk = true ∧ State.reset.attached = true ∧ State.reset.turns = [] ∧
      State.reset.pending = none) := by decide

theorem witness_StopsAreNamed :
    let w := facing [.host { addr := 0x320, write := false, width := 16, data := 0 }]
    let d (u : Turn) : State := { facing [u] with attached := false }
    ({ State.reset with fault := true } : State).fault = true ∧
    ({ State.reset with drives := [] } : State).configOk = false ∧
    (w.fault = false ∧ w.configOk = true ∧ w.attached = true) ∧
    (∀ u ∈ [.host (bus 0x320 false 0), .fire ⟨.noData, .noData⟩, .detach, .attach],
      (d u).fault = false ∧ (d u).configOk = true ∧ (d u).attached = false ∧ (d u).turns = [u]) ∧
    ((facing [.attach]).fault = false ∧ (facing [.attach]).configOk = true ∧ (facing [.attach]).attached = true) := by
  decide

theorem witness_DetachDropsThePendingStep :
    let s := { facing [.detach, .attach] with pending := some .step }
    let u := { facing [.attach] with attached := false }
    (s.fault = false ∧ s.configOk = true ∧ s.attached = true ∧ s.turns = .detach :: [.attach]) ∧
    (u.fault = false ∧ u.configOk = true ∧ u.attached = false ∧ u.turns = .attach :: []) := by decide

/-- Each clause on the jumper byte has its drive: one that matches the table's second row, one that matches none, one
that is absent. -/
theorem witness_AttachValues :
    let p := Params.ofFamily .xebec
    let l : List Launch := [⟨true, ⟨612, 4, 17⟩, []⟩, ⟨true, ⟨615, 6, 17⟩, []⟩]
    State.commonDrives[1]? = some ⟨false, ⟨0, 0, 0⟩, []⟩ ∧
    p.switchTable = [⟨⟨306, 4, 17⟩, 0⟩] ++ ⟨⟨612, 4, 17⟩, 1⟩ :: [⟨⟨615, 4, 17⟩, 2⟩, ⟨⟨306, 8, 17⟩, 3⟩] ∧
    l[0]? = some ⟨true, ⟨612, 4, 17⟩, []⟩ ∧ l[1]? = some ⟨true, ⟨615, 6, 17⟩, []⟩ ∧
    (∀ r ∈ p.switchTable, r.geometry ≠ ⟨615, 6, 17⟩) ∧ (State.attach p l (Vector.replicate 6 0) []).switches = 0x04 := by
  decide

/-- The first and the last command byte. -/
theorem witness_DataWriteStoresCommandByte :
    ∀ k, k = 0 ∨ k = 5 → ({ State.reset with phase := .receiveCommand, commandPos := k } : State).commandPos < 6 ∧
      ({ State.reset with phase := .receiveCommand, commandPos := k } : State).phase = .receiveCommand := by
  rintro k (rfl | rfl) <;> decide

/-- A data phase, at the last of its `n` bytes or before. -/
def moving (p : Phase) (k n : Nat) (dma : Bool) : State :=
  { State.reset with phase := p, bufPos := k, bufCount := n, xferDma := dma }

theorem witness_DataWriteStoresDataByte :
    (moving .receiveData 515 516 false).phase = .receiveData ∧
    (moving .receiveData 515 516 false).bufPos < (moving .receiveData 515 516 false).params.bufSize ∧
    (moving .receiveData 0 8 true).bufPos < (moving .receiveData 0 8 true).params.bufSize := by decide

theorem witness_DataAccessElsewhereIsLogged :
    State.reset.phase ≠ .receiveCommand ∧ State.reset.phase ≠ .receiveData ∧ State.reset.phase ≠ .completionByte ∧
    State.reset.phase ≠ .sendData ∧ State.reset.status &&& 0x20 = 0 := by decide

theorem witness_DataReadReturnsCompletionByte :
    ({ State.reset with phase := .completionByte, status := 0x2F } : State).phase = .completionByte := by decide

theorem witness_DataReadReturnsBufferByte :
    (moving .sendData 515 516 false).phase = .sendData ∧
    (moving .sendData 515 516 false).bufPos < (moving .sendData 515 516 false).params.bufSize ∧
    (moving .sendData 3 16 true).bufPos + 1 ≠ (moving .sendData 3 16 true).bufCount := by decide

theorem witness_PortAccessesKeepThePendingStep :
    Instr.statusRead.fields? = none ∧ exec .statusRead State.reset = .next { State.reset with busOut := 0 } :=
  ⟨rfl, rfl⟩

theorem witness_StepsWithoutWorkAreLogged :
    (Instr.seek zeros).fields? = some zeros ∧ State.reset.phase = .idle ∧
    ((moving .sendData 0 4 false).phase = .sendData ∧ (moving .sendData 0 4 false).xferDma = false) ∧
    ((moving .sentData 4 4 false).phase = .sentData ∧ sendLength (.seek zeros) = none) ∧
    ((moving .receivedData 4 4 false).phase = .receivedData ∧ receiveLength (.seek zeros) = none) ∧
    ((moving .done 4 4 false).phase = .done ∧ hasDone (.seek zeros) = false) := by decide

theorem witness_DmaSendStepMovesOneByte :
    let s := { moving .sendData 511 512 true with dma := ⟨.noData, .ack⟩ }
    (Instr.read zeros).fields? = some zeros ∧ s.phase = .sendData ∧ s.xferDma = true ∧ s.bufPos < s.params.bufSize ∧
    s.dma.write = .ack := by decide

theorem witness_DmaReceiveStepMovesOneByte :
    let s := { moving .receiveData 511 512 true with dma := ⟨.byte 0x42, .noData⟩ }
    (Instr.write zeros).fields? = some zeros ∧ s.phase = .receiveData ∧ s.xferDma = true ∧
    s.bufPos < s.params.bufSize ∧ s.dma.read = .byte 0x42 := by decide

theorem witness_DmaStallCountsThenFails :
    let s := { moving .sendData 511 512 true with stall := 15 }
    let r := { moving .receiveData 0 512 true with stall := 14 }
    (Instr.read zeros).fields? = some zeros ∧
    (s.xferDma = true ∧ s.phase = .sendData ∧ s.dma.write = .noData ∧ s.bufPos < s.params.bufSize ∧
      ¬ s.stall + 1 < s.params.retryBudget) ∧
    (r.xferDma = true ∧ r.phase = .receiveData ∧ r.dma.read = .noData ∧ r.stall + 1 < r.params.retryBudget) := by decide

/-- A READ or WRITE by DMA in its data phase, its first byte still to move. -/
def dmaPhase (op : Byte) (p : Phase) (status : Byte) (turns : List Turn) : State :=
  { State.reset with
    command := #v[op, 0x00, 0x00, 0x00, 0x01, 0x00], commandPos := 6, phase := p, status := status
    irqDmaMask := 0x01, xferDma := true, bufCount := 512, pending := some .dma, addr := ⟨0, 0, 0, 1, 0⟩
    turns := turns }

/-- The invariant does not read the turns. -/
theorem inv_withTurns {s : State} (h : s.Inv) (l : List Turn) : ({ s with turns := l } : State).Inv :=
  ⟨h.config, h.commandPos, h.bufRange, h.bufLeft, h.status, h.pending, h.ended, h.served, h.stall, h.completion,
    h.errorCode, h.drive, h.target, h.switches, h.buffer, h.images⟩

/-- Drive 0 of the common start state. -/
def drive0 : Drive := ⟨true, ⟨306, 4, 17⟩, ⟨306, 4, 17⟩, 0, []⟩

theorem inv_dmaPhase_send (l : List Turn) : (dmaPhase 0x08 .sendData 0x1A l).Inv :=
  inv_withTurns (s := dmaPhase 0x08 .sendData 0x1A [])
    { config := by decide, commandPos := by decide, bufRange := by decide, bufLeft := by decide, status := rfl
      pending := fun _ _ => rfl
      ended := (fun h => by cases h)
      served := rfl
      stall := by decide
      completion := by decide
      errorCode := by decide
      drive := by decide
      target := fun _ _ => ⟨drive0, ⟨rfl, rfl⟩, by decide, by decide⟩
      switches := by decide
      buffer := by decide
      images := by decide } l

theorem inv_dmaPhase_receive (l : List Turn) : (dmaPhase 0x0A .receiveData 0x18 l).Inv :=
  inv_withTurns (s := dmaPhase 0x0A .receiveData 0x18 [])
    { config := by decide, commandPos := by decide, bufRange := by decide, bufLeft := by decide, status := rfl
      pending := fun _ _ => rfl
      ended := (fun h => by cases h)
      served := rfl
      stall := by decide
      completion := by decide
      errorCode := by decide
      drive := by decide
      target := fun _ _ => ⟨drive0, ⟨rfl, rfl⟩, by decide, by decide⟩
      switches := by decide
      buffer := by decide
      images := by decide } l

/-- The last clauses: each turn of an attached instance in a DMA phase, which meets the invariant, and silence after
detach. -/
theorem witness_StopsAreNamed_elsewhere :
    (∀ l : List Turn, (dmaPhase 0x08 .sendData 0x1A l).Inv ∧ (dmaPhase 0x08 .sendData 0x1A l).fault = false ∧
      (dmaPhase 0x08 .sendData 0x1A l).attached = true ∧ (dmaPhase 0x08 .sendData 0x1A l).turns = l) ∧
    (bus 0x320 false 0).width = 8 ∧
    ({ facing [] with attached := false } : State).configOk = true :=
  ⟨fun l => ⟨inv_dmaPhase_send l, rfl, rfl, rfl⟩, by decide, by decide⟩

theorem witness_StalledTransferEndsWithinTheBudget :
    let s := dmaPhase 0x0A .receiveData 0x18 (List.replicate 16 (.fire ⟨.noData, .noData⟩) ++ [.detach])
    s.Inv ∧ s.fault = false ∧ s.attached = true ∧ (s.phase = .receiveData ∨ s.phase = .sendData) ∧
    s.xferDma = true ∧ s.stall = 0 ∧
    s.turns = List.replicate s.params.retryBudget (.fire { read := .noData, write := .noData }) ++ [.detach] :=
  ⟨inv_dmaPhase_receive _, by decide, by decide, .inl rfl, rfl, rfl, rfl⟩

theorem witness_DmaSendPhaseMovesTheWholeBlock :
    let s := dmaPhase 0x08 .sendData 0x1A (List.replicate 512 (.fire ⟨.noData, .ack⟩) ++ [.detach])
    s.Inv ∧ s.fault = false ∧ s.attached = true ∧ s.phase = .sendData ∧ s.xferDma = true ∧ s.bufPos = 0 ∧
    s.turns = List.replicate s.bufCount (.fire { read := .noData, write := .ack }) ++ [.detach] :=
  ⟨inv_dmaPhase_send _, by decide, by decide, rfl, rfl, rfl, rfl⟩

/-- The common start state in a phase. -/
def inPhase (p : Phase) : State := { State.reset with phase := p }

theorem hasDrive_inPhase (p : Phase) : (inPhase p).hasDrive 0 drive0 := ⟨rfl, rfl⟩

/-- Slot 1 is empty, slot 2 does not exist. -/
theorem lacksDrive_inPhase (p : Phase) : (inPhase p).lacksDrive 1 ∧ (inPhase p).lacksDrive 2 :=
  ⟨fun dr h => by cases h; rfl, fun dr h => by cases h⟩

theorem witness_AbsentDriveIsNotReady :
    (Instr.read { zeros with drive := 1 }).fields? = some { zeros with drive := 1 } ∧
    setsUpAddress (.read { zeros with drive := 1 }) = true ∧ (inPhase .startCommand).phase = .startCommand ∧
    (inPhase .startCommand).lacksDrive ({ zeros with drive := 1 } : Cdb).drive.toNat :=
  ⟨rfl, rfl, rfl, (lacksDrive_inPhase _).1⟩

/-- The first cylinder behind the disk. -/
theorem witness_CylinderOutOfRangeClampsAndFails :
    let f := { zeros with cyl := 306 }
    (Instr.seek f).fields? = some f ∧ setsUpAddress (.read f) = true ∧ (inPhase .startCommand).phase = .startCommand ∧
    (inPhase .startCommand).hasDrive f.drive.toNat drive0 ∧
    drive0.cfg.cylinders.toNat ≤ ((inPhase .startCommand).addressed f).addr.cyl.toNat :=
  ⟨rfl, rfl, rfl, hasDrive_inPhase _, by decide⟩

/-- The first head and the first sector behind the disk, and a configured track without sectors. -/
theorem witness_HeadOrSectorOutOfRangeFails :
    let f := { zeros with cyl := 305, head := 4 }
    let g := { zeros with sector := 17 }
    (Instr.formatTrack f).fields? = some f ∧ setsUpAddress (.formatTrack f) = true ∧
    (inPhase .startCommand).phase = .startCommand ∧ (inPhase .startCommand).hasDrive f.drive.toNat drive0 ∧
    ((inPhase .startCommand).addressed f).addr.cyl.toNat < drive0.cfg.cylinders.toNat ∧
    drive0.cfg.heads.toNat ≤ f.head.toNat ∧
    (movesSectors (.read g) = true ∧
      drive0.cfg.spt.toNat ≤ ((inPhase .startCommand).addressed g).addr.sector.toNat) ∧
    ({ drive0 with cfg := ⟨306, 4, 0⟩ } : Drive).cfg.spt.toNat = 0 :=
  ⟨rfl, rfl, rfl, hasDrive_inPhase _, by decide, by decide, by decide, by decide⟩

/-- A disk of one block configured as two: block 1 is the first behind the image; the sector after block 0 is it, and
FORMAT_DRIVE from block 0 reaches it. -/
theorem witness_AccessPastTheImageSetsTheMark :
    let dr : Drive := ⟨true, ⟨1, 1, 1⟩, ⟨2, 1, 1⟩, 0, []⟩
    let s := { inPhase .startCommand with drives := [dr] }
    let r := { inPhase .receivedData with drives := [dr], addr := ⟨1, 0, 0, 1, 1⟩ }
    let q := { inPhase .sentData with drives := [dr], addr := ⟨0, 0, 0, 2, 0⟩ }
    let c := advance dr.cfg { q.addr with count := q.addr.count - 1 }
    let f := { zeros with cyl := 1 }
    let a := (s.addressed f).addr
    let b := (s.addressed zeros).addr
    (s.phase = .startCommand ∧ s.hasDrive f.drive.toNat dr ∧ a.cyl.toNat < dr.cfg.cylinders.toNat ∧
      a.head.toNat < dr.cfg.heads.toNat ∧ a.sector.toNat < dr.cfg.spt.toNat ∧
      dr.phys.blocks ≤ dr.cfg.lba a.cyl.toNat a.head.toNat a.sector.toNat) ∧
    (q.phase = .sentData ∧ q.hasDrive zeros.drive.toNat dr ∧ q.addr.count ≠ 1 ∧ c.head.toNat < dr.cfg.heads.toNat ∧
      c.sector.toNat < dr.cfg.spt.toNat ∧ c.cyl.toNat < dr.cfg.cylinders.toNat ∧
      dr.phys.blocks ≤ dr.cfg.lba c.cyl.toNat c.head.toNat c.sector.toNat) ∧
    (r.phase = .receivedData ∧ r.hasDrive f.drive.toNat dr ∧ dr.phys.blocks ≤ r.addr.lba.toNat) ∧
    (s.hasDrive zeros.drive.toNat dr ∧ b.cyl.toNat < dr.cfg.cylinders.toNat ∧ b.head.toNat < dr.cfg.heads.toNat ∧
      0 < dr.cfg.spt.toNat ∧
      dr.phys.blocks < dr.cfg.lba b.cyl.toNat b.head.toNat 0 +
        (dr.cfg.blocks - dr.cfg.lba b.cyl.toNat b.head.toNat 0)) :=
  ⟨⟨rfl, ⟨rfl, rfl⟩, by decide, by decide, by decide, by decide⟩,
    ⟨rfl, ⟨rfl, rfl⟩, by decide, by decide, by decide, by decide, by decide⟩, ⟨rfl, ⟨rfl, rfl⟩, by decide⟩,
    ⟨rfl, rfl⟩, by decide, by decide, by decide, by decide⟩

theorem witness_TestReadyReportsPresence :
    (inPhase .startCommand).phase = .startCommand ∧ (inPhase .startCommand).hasDrive zeros.drive.toNat drive0 ∧
    (inPhase .startCommand).lacksDrive ({ zeros with drive := 2 } : Cdb).drive.toNat :=
  ⟨rfl, hasDrive_inPhase _, (lacksDrive_inPhase _).2⟩

theorem witness_RecalibrateWaitsThenRewinds :
    (inPhase .startCommand).phase = .startCommand ∧ (inPhase .startCommand).hasDrive zeros.drive.toNat drive0 ∧
    (inPhase .done).phase = .done :=
  ⟨rfl, hasDrive_inPhase _, rfl⟩

/-- The last cylinder. -/
theorem witness_SeekMovesTheDrive :
    let f := { zeros with cyl := 305 }
    (inPhase .startCommand).phase = .startCommand ∧ (inPhase .startCommand).hasDrive f.drive.toNat drive0 ∧
    ((inPhase .startCommand).addressed f).addr.cyl.toNat < drive0.cfg.cylinders.toNat :=
  ⟨rfl, hasDrive_inPhase _, by decide⟩

/-- The last sector of the disk, count 256. -/
theorem witness_VerifyFromAValidAddressCompletes :
    let f := { zeros with cyl := 305, head := 3, sector := 16 }
    (inPhase .startCommand).phase = .startCommand ∧ (inPhase .startCommand).hasDrive f.drive.toNat drive0 ∧
    ((inPhase .startCommand).addressed f).addr.cyl.toNat < drive0.cfg.cylinders.toNat ∧
    f.head.toNat < drive0.cfg.heads.toNat ∧
    ((inPhase .startCommand).addressed f).addr.sector.toNat < drive0.cfg.spt.toNat :=
  ⟨rfl, hasDrive_inPhase _, by decide, by decide, by decide⟩

/-- The last sector of the disk. -/
theorem witness_ReadSendsTheAddressedBlock :
    let f := { zeros with cyl := 305, head := 3, sector := 16 }
    let a := ((inPhase .startCommand).addressed f).addr
    (Instr.readLong f = .read f ∧ 516 = 512 ∨ Instr.readLong f = .readLong f ∧ 516 = 516) ∧
    (inPhase .startCommand).phase = .startCommand ∧ (inPhase .startCommand).hasDrive f.drive.toNat drive0 ∧
    a.cyl.toNat < drive0.cfg.cylinders.toNat ∧ a.head.toNat < drive0.cfg.heads.toNat ∧
    a.sector.toNat < drive0.cfg.spt.toNat ∧
    drive0.cfg.lba a.cyl.toNat a.head.toNat a.sector.toNat < drive0.phys.blocks :=
  ⟨.inr ⟨rfl, rfl⟩, rfl, hasDrive_inPhase _, by decide, by decide, by decide, by decide⟩

/-- The last sector of the disk. -/
theorem witness_WriteAsksForTheSector :
    let f := { zeros with cyl := 305, head := 3, sector := 16 }
    let a := ((inPhase .startCommand).addressed f).addr
    (Instr.write f = .write f ∧ 512 = 512 ∨ Instr.write f = .writeLong f ∧ 512 = 516) ∧
    (inPhase .startCommand).phase = .startCommand ∧ (inPhase .startCommand).hasDrive f.drive.toNat drive0 ∧
    a.cyl.toNat < drive0.cfg.cylinders.toNat ∧ a.head.toNat < drive0.cfg.heads.toNat ∧
    a.sector.toNat < drive0.cfg.spt.toNat :=
  ⟨.inl ⟨rfl, rfl⟩, rfl, hasDrive_inPhase _, by decide, by decide, by decide⟩

/-- The clauses of NextSectorRollsAndSaturates at the last sector, the last head and the last cylinder. -/
theorem witness_NextSectorRollsAndSaturates :
    (inPhase .idle).drives[0]? = some drive0 ∧ ((15 : Byte).toNat + 1) % 256 < drive0.cfg.spt.toNat ∧
    drive0.cfg.spt.toNat ≤ ((16 : Byte).toNat + 1) % 256 ∧ ((2 : Byte).toNat + 1) % 256 < drive0.cfg.heads.toNat ∧
    drive0.cfg.heads.toNat ≤ ((3 : Byte).toNat + 1) % 256 ∧
    ¬ ((305 : BitVec 16).toNat + 1) % 65536 < drive0.cfg.cylinders.toNat :=
  ⟨rfl, by decide, by decide, by decide, by decide, by decide⟩

theorem witness_NextSectorWalksATrackCylinder :
    let g := drive0.cfg
    let a : Address := ⟨304, 0, 0, 0, 0⟩
    0 < g.heads.toNat ∧ 0 < g.spt.toNat ∧ a.head = 0 ∧ a.sector = 0 ∧ a.cyl.toNat + 1 < g.cylinders.toNat := by decide

theorem witness_NextSectorIsTheNextBlock :
    let g := drive0.cfg
    let a : Address := ⟨304, 3, 16, 0, 0⟩
    a.cyl.toNat < g.cylinders.toNat ∧ a.head.toNat < g.heads.toNat ∧ a.sector.toNat < g.spt.toNat ∧
    g.lba a.cyl.toNat a.head.toNat a.sector.toNat + 1 < g.blocks := by decide

theorem witness_TranslateFormulaAndErrors :
    (inPhase .idle).lacksDrive 1 ∧ (inPhase .idle).hasDrive 0 drive0 ∧ drive0.currentCylinder = 0 ∧
    (3 : Byte).toNat < drive0.cfg.heads.toNat ∧ (16 : Byte).toNat < drive0.cfg.spt.toNat ∧
    (drive0.currentCylinder ≠ 1 ∧ drive0.cfg.heads.toNat ≤ (4 : Byte).toNat ∧
      drive0.cfg.spt.toNat ≤ (17 : Byte).toNat) :=
  ⟨(lacksDrive_inPhase _).1, hasDrive_inPhase _, rfl, by decide, by decide, by decide⟩

theorem witness_SenseReportsAndClearsTheError :
    (inPhase .startCommand).phase = .startCommand ∧ (inPhase .sentData).phase = .sentData := ⟨rfl, rfl⟩

/-- FORMAT_DRIVE from the last track, and the last track alone. -/
theorem witness_FormatZeroesItsExtentThenCompletes :
    let f := { zeros with cyl := 305, head := 3 }
    let a := ((inPhase .startCommand).addressed f).addr
    let lba := drive0.cfg.lba a.cyl.toNat a.head.toNat 0
    (inPhase .done).phase = .done ∧ (inPhase .startCommand).phase = .startCommand ∧
    (inPhase .startCommand).hasDrive f.drive.toNat drive0 ∧ a.cyl.toNat < drive0.cfg.cylinders.toNat ∧
    a.head.toNat < drive0.cfg.heads.toNat ∧ 0 < drive0.cfg.spt.toNat ∧
    lba + (drive0.cfg.blocks - lba) ≤ drive0.phys.blocks ∧ lba + drive0.cfg.spt.toNat ≤ drive0.phys.blocks :=
  ⟨rfl, rfl, hasDrive_inPhase _, by decide, by decide, by decide, by decide, by decide⟩

/-- Between two sectors of a transfer: at the last sector of the disk, one to go, or two. -/
def between (p : Phase) (count : Byte) : State := { inPhase p with addr := ⟨305, 3, 16, count, 20807⟩ }

theorem witness_ReadCompletesOrSendsTheNextBlock :
    let s := between .sentData 2
    let a := advance drive0.cfg { s.addr with count := s.addr.count - 1 }
    ((between .sentData 1).phase = .sentData ∧ (between .sentData 1).addr.count = 1) ∧
    s.phase = .sentData ∧ s.hasDrive zeros.drive.toNat drive0 ∧ s.addr.count ≠ 1 ∧
    a.head.toNat < drive0.cfg.heads.toNat ∧ a.sector.toNat < drive0.cfg.spt.toNat ∧
    a.cyl.toNat < drive0.cfg.cylinders.toNat ∧
    drive0.cfg.lba a.cyl.toNat a.head.toNat a.sector.toNat < drive0.phys.blocks :=
  ⟨⟨rfl, rfl⟩, rfl, ⟨rfl, rfl⟩, by decide, by decide, by decide, by decide, by decide⟩

theorem witness_WriteStoresTheLastSector :
    let s := between .receivedData 1
    s.phase = .receivedData ∧ s.hasDrive zeros.drive.toNat drive0 ∧ s.addr.lba.toNat < drive0.phys.blocks ∧
    s.addr.count = 1 :=
  ⟨rfl, ⟨rfl, rfl⟩, by decide, rfl⟩

/-- Count 0 is 256 sectors. -/
theorem witness_WriteStoresTheSectorAndGoesOn :
    let s := between .receivedData 0
    let a := advance drive0.cfg { s.addr with count := s.addr.count - 1 }
    s.phase = .receivedData ∧ s.hasDrive zeros.drive.toNat drive0 ∧ s.addr.lba.toNat < drive0.phys.blocks ∧
    s.addr.count ≠ 1 ∧ a.head.toNat < drive0.cfg.heads.toNat ∧ a.sector.toNat < drive0.cfg.spt.toNat :=
  ⟨rfl, ⟨rfl, rfl⟩, by decide, by decide, by decide, by decide⟩

/-- The last slot, and the first index without one. -/
theorem witness_SpecifyStoresCylindersAndHeads :
    (inPhase .startCommand).phase = .startCommand ∧ (inPhase .receivedData).phase = .receivedData ∧
    ({ zeros with drive := 1 } : Cdb).drive.toNat < (inPhase .receivedData).drives.length ∧
    (inPhase .receivedData).drives.length ≤ ({ zeros with drive := 2 } : Cdb).drive.toNat := by decide

theorem witness_BufferAndDiagnosticCommands :
    (inPhase .startCommand).phase = .startCommand ∧ (inPhase .sentData).phase = .sentData ∧
    (inPhase .receivedData).phase = .receivedData := ⟨rfl, rfl, rfl⟩

theorem witness_GetGeometrySendsTheBlock :
    (Instr.dtcGetGeom zeros = .dtcGetGeom zeros ∧ Family.dtc = .dtc) ∧
    ((inPhase .startCommand).phase = .startCommand ∧ (inPhase .startCommand).drives[zeros.drive.toNat]? = some drive0) ∧
    (inPhase .startCommand).drives.length ≤ ({ zeros with drive := 2 } : Cdb).drive.toNat ∧
    (inPhase .sentData).phase = .sentData :=
  ⟨⟨rfl, rfl⟩, ⟨rfl, rfl⟩, by decide, rfl⟩

theorem witness_SetGeometryStoresTheDecodedBlock :
    (Instr.st11SetGeom zeros = .st11SetGeom zeros ∧ Family.st11 = .st11) ∧
    (inPhase .startCommand).phase = .startCommand ∧ (inPhase .receivedData).phase = .receivedData ∧
    ({ zeros with drive := 1 } : Cdb).drive.toNat < (inPhase .receivedData).drives.length ∧
    (inPhase .receivedData).drives.length ≤ ({ zeros with drive := 2 } : Cdb).drive.toNat :=
  ⟨⟨rfl, rfl⟩, rfl, rfl, by decide, by decide⟩

theorem witness_WrongFamilyAndUnknownAreBadCommand :
    Instr.unknown 0x55 zeros = .unknown 0x55 zeros ∧ (inPhase .startCommand).phase = .startCommand := ⟨rfl, rfl⟩

theorem witness_UnusedCommandFieldsAreIgnored :
    let g := { zeros with control := 0x5B }
    zeros.drive = g.drive ∧ zeros.head = g.head ∧ zeros.sector = g.sector ∧ zeros.cyl = g.cyl ∧ zeros.count = g.count ∧
    zeros ≠ g := by decide

/-- A next state of a command that stores nothing, and of a storing one outside its storing phases. -/
theorem witness_OnlyStoresAndFormatsChangeImages :
    (storesToImage (.ramDiag zeros) = false ∧ gives (exec (.ramDiag zeros) (inPhase .startCommand)) (fun _ => true)) ∧
    ((inPhase .done).phase ≠ .startCommand ∧ (inPhase .done).phase ≠ .receivedData ∧
      gives (exec (.formatDrive zeros) (inPhase .done)) (fun _ => true)) := by decide

theorem witness_CommandBlockIsLatched : gives (exec (.ramDiag zeros) (inPhase .startCommand)) (fun _ => true) := by decide

theorem witness_ConfigurationNeverChanges :
    (State.reset.withCommand #v[0xE0, 0, 0, 0, 0, 0]).attached = true ∧
    gives (step (State.reset.withCommand #v[0xE0, 0, 0, 0, 0, 0])) (fun _ => true) := by decide

/-- A completion that raises the interrupt, one that does not, and a violation in CompletionByte that logs another
event. -/
theorem witness_LogGrowsAndInterruptMeansCompletion :
    gives (exec (.ramDiag zeros) { inPhase .startCommand with irqDmaMask := 0x02 })
      (fun t => t.log == [.irqRaised 5] && t.status == 0x2F) ∧
    gives (exec (.ramDiag zeros) (inPhase .startCommand)) (fun t => t.log == [] && t.status == 0x0F) ∧
    gives (exec (.ramDiag zeros) { inPhase .completionByte with irqDmaMask := 0x02 })
      (fun t => t.phase == .completionByte && t.log == [.violation .stepNoHandler]) := by decide

/-- Both ways the stored error changes. -/
theorem witness_ErrorCodeChangesOnlyAtCompletion :
    gives (exec (.unknown 0x55 zeros) (inPhase .startCommand)) (fun t => t.errorCode != State.reset.errorCode) ∧
    gives (exec (.sense zeros) { inPhase .sentData with errorCode := 0x02 }) (fun t => t.errorCode != 0x02) := by decide

/-- WRITE with its sector received. -/
def writeReceived : State :=
  { dmaPhase 0x0A .receivedData 0x08 [] with bufPos := 512, pending := some .step }

theorem inv_writeReceived : writeReceived.Inv where
  config := by decide
  commandPos := by decide
  bufRange := by decide
  bufLeft := by decide
  status := rfl
  pending := fun _ _ => rfl
  ended := (fun h => by cases h)
  served := rfl
  stall := by decide
  completion := by decide
  errorCode := by decide
  drive := by decide
  target := fun _ _ => ⟨drive0, ⟨rfl, rfl⟩, by decide, by decide⟩
  switches := by decide
  buffer := by decide
  images := by decide

theorem witness_HandlerIsAlwaysFound :
    writeReceived.Inv ∧ writeReceived.phase = .receivedData ∧
    gives (exec writeReceived.current writeReceived) (fun t => t.phase == .completionByte) :=
  ⟨inv_writeReceived, rfl, by set_option maxRecDepth 20000 in decide⟩

/-- WRITE with its last sector received and IRQ_ENA set. -/
def writeReceivedIrq : State := { writeReceived with irqDmaMask := 0x03 }

theorem inv_writeReceivedIrq : writeReceivedIrq.Inv :=
  let h := inv_writeReceived
  ⟨h.config, h.commandPos, h.bufRange, h.bufLeft, h.status, h.pending, h.ended, h.served, h.stall, h.completion,
    h.errorCode, h.drive, h.target, h.switches, h.buffer, h.images⟩

/-- A step that completes a command and sets the bit. -/
theorem witness_InterruptBitMeansUnreadCompletion :
    writeReceivedIrq.Inv ∧ gives (step writeReceivedIrq) (fun t => t.status &&& 0x20 != 0) :=
  ⟨inv_writeReceivedIrq, by set_option maxRecDepth 20000 in decide⟩

theorem witness_NoMarkWithinThePhysicalGeometry :
    writeReceived.Inv ∧ writeReceived.fits ∧ gives (step writeReceived) (fun _ => true) :=
  ⟨inv_writeReceived, fun d h => by
    have : d = drive0 ∨ d = ⟨false, ⟨0, 0, 0⟩, ⟨0, 0, 0⟩, 0, []⟩ := by
      simpa [writeReceived, dmaPhase, State.reset, State.attach, State.commonDrives, Launch.drive, drive0] using h
    rcases this with rfl | rfl <;> decide, by set_option maxRecDepth 20000 in decide⟩

theorem witness_StepKeepsTheInvariant :
    writeReceived.Inv ∧ gives (step writeReceived) (fun t => t.log == [.imageWritten 0 0]) :=
  ⟨inv_writeReceived, by set_option maxRecDepth 20000 in decide⟩

end Sys2Proof.Tests
end

section
/-! What one action of the total order (20_memory.md R91) can do, said once: the step of a command by its cases, and what
a port access and a DMA byte step may touch at all. -/

namespace Sys2Proof.Machine

/-- What the step of the command `i` with fields `f` can answer (41_state_machine.md R171 to R173, R185). -/
inductive CommandStep (i : Instr) (f : Cdb) (s : State) : State → Prop where
  /-- no step is due in this phase -/
  | notDue (hp : s.phase = .idle ∨ s.phase = .receiveCommand ∨ s.phase = .completionByte ∨
      (s.phase = .sendData ∨ s.phase = .receiveData) ∧ s.xferDma = false) :
      CommandStep i f s (s.violation .stepNoHandler)
  /-- the command has no handler for the phase -/
  | noHandler (hp : s.phase = .sentData ∧ sendLength i = none ∨ s.phase = .receivedData ∧ receiveLength i = none ∨
      s.phase = .done ∧ hasDone i = false) : CommandStep i f s ((s.begun f).violation .stepNoHandler)
  /-- a byte is offered to the DMA channel -/
  | dmaSend {t : State} (hp : s.phase = .sendData) (hx : s.xferDma = true) (ht : dmaSend (s.begun f) = .next t) :
      CommandStep i f s t
  /-- a byte is asked of the DMA channel -/
  | dmaReceive {t : State} (hp : s.phase = .receiveData) (hx : s.xferDma = true)
      (ht : dmaReceive (s.begun f) = .next t) : CommandStep i f s t
  /-- the handler of the phase runs -/
  | handler {t : State} (hp : s.phase = .startCommand ∨ s.phase = .sentData ∧ (sendLength i).isSome ∨
      s.phase = .receivedData ∧ (receiveLength i).isSome ∨ s.phase = .done ∧ hasDone i = true)
      (ht : Ended i (s.begun f) t) : CommandStep i f s t

theorem commandStep_of_exec {i : Instr} {f : Cdb} (hf : i.fields? = some f) {s t : State} (h : exec i s = .next t) :
    CommandStep i f s t := by
  by_cases hh : s.phase = .startCommand ∨ s.phase = .sentData ∧ (sendLength i).isSome ∨
      s.phase = .receivedData ∧ (receiveLength i).isSome ∨ s.phase = .done ∧ hasDone i = true
  · obtain ⟨u, hu, he⟩ := handler_ended hf hh
    cases hu.symm.trans h
    exact .handler hh he
  obtain ⟨row, hrow, hsent, hreceived, hdone⟩ := exec_command hf
  rw [hrow] at h
  cases hp : s.phase with
  | startCommand => exact absurd (.inl hp) hh
  | idle | receiveCommand | completionByte =>
    rw [scheduledStep_idle (by simp [hp])] at h
    cases h
    exact .notDue (by simp [hp])
  | sendData =>
    cases hx : s.xferDma with
    | false =>
      rw [scheduledStep_polled (.inl hp) hx] at h
      cases h
      exact .notDue (by simp [hp, hx])
    | true =>
      rw [scheduledStep_dmaSend hp hx] at h
      exact .dmaSend hp hx h
  | receiveData =>
    cases hx : s.xferDma with
    | false =>
      rw [scheduledStep_polled (.inr hp) hx] at h
      cases h
      exact .notDue (by simp [hp, hx])
    | true =>
      rw [scheduledStep_dmaReceive hp hx] at h
      exact .dmaReceive hp hx h
  | sentData =>
    have hn : sendLength i = none := by simpa [hp] using hh
    rw [scheduledStep_sent hp, show row.sent = none by simpa [hn] using hsent] at h
    cases h
    exact .noHandler (.inl ⟨hp, hn⟩)
  | receivedData =>
    have hn : receiveLength i = none := by simpa [hp] using hh
    rw [scheduledStep_received hp, show row.received = none by simpa [hn] using hreceived] at h
    cases h
    exact .noHandler (.inr (.inl ⟨hp, hn⟩))
  | done =>
    have hn : hasDone i = false := by simpa [hp] using hh
    rw [scheduledStep_done hp, show row.done = none by simpa [hn] using hdone] at h
    cases h
    exact .noHandler (.inr (.inr ⟨hp, hn⟩))

/-- A port access touches the registers the host sees, the transfer buffers and the log; no drive and no parameter
(40_register_interface.md R141 to R153). -/
theorem exec_port_frame {i : Instr} (hf : i.fields? = none) {s t : State} (h : exec i s = .next t) :
    t = { s with
      phase := t.phase, status := t.status, command := t.command, commandPos := t.commandPos, buffer := t.buffer
      bufPos := t.bufPos, irqDmaMask := t.irqDmaMask, pending := t.pending, stall := t.stall, log := t.log
      busOut := t.busOut, draws := t.draws } := by
  cases i <;> simp only [Instr.fields?, reduceCtorEq] at hf
  case dataWrite v =>
    change execDataWrite v s = _ at h
    unfold execDataWrite writeCommandByte writeDataByte at h
    split at h
    · split at h
      · cases h; split <;> rfl
      · cases h
    · split at h
      · cases h; split <;> rfl
      · cases h
    all_goals cases h; rfl
  case dataRead =>
    change execDataRead s = _ at h
    unfold execDataRead readDataByte at h
    split at h
    · cases h; rfl
    · split at h
      · cases h; split <;> rfl
      · cases h
    all_goals cases h; rfl
  all_goals cases h; rfl

/-- A DMA stall counts, and shows itself or ends the command (43_transfer_engine.md R226 to R229). -/
theorem dmaStall_frame (s : State) :
    s.dmaStall = { s with
      phase := s.dmaStall.phase, status := s.dmaStall.status, errorCode := s.dmaStall.errorCode
      completionByte := s.dmaStall.completionByte, pending := s.dmaStall.pending, stall := s.dmaStall.stall
      log := s.dmaStall.log } := by
  rcases dmaStall_cases s with ⟨_, e⟩ | ⟨_, e⟩
  · rw [e]
  · rw [e]
    unfold State.failed State.completed
    split <;> rfl

/-- A DMA send step reads the buffer and moves on, stalls, or ends the command (43_transfer_engine.md R224). -/
theorem dmaSend_frame {s t : State} (h : dmaSend s = .next t) :
    t = { s with
      phase := t.phase, status := t.status, bufPos := t.bufPos, errorCode := t.errorCode
      completionByte := t.completionByte, pending := t.pending, stall := t.stall, log := t.log } := by
  by_cases hb : s.bufPos < s.params.bufSize
  · rcases dmaSend_cases hb with ⟨_, _, e⟩ | ⟨_, _, e⟩ | ⟨_, e⟩ <;> cases e.symm.trans h
    · rfl
    · rfl
    · rw [dmaStall_frame]; rfl
  · simp [dmaSend, hb] at h

/-- A DMA receive step stores one byte in the buffer and moves on, stalls, or ends the command (43_transfer_engine.md
R225). -/
theorem dmaReceive_frame {s t : State} (h : dmaReceive s = .next t) :
    t = { s with
      phase := t.phase, status := t.status, buffer := t.buffer, bufPos := t.bufPos, errorCode := t.errorCode
      completionByte := t.completionByte, pending := t.pending, stall := t.stall, log := t.log } := by
  by_cases hb : s.bufPos < s.params.bufSize
  · rcases dmaReceive_cases hb with ⟨_, _, _, e⟩ | ⟨_, _, _, e⟩ | ⟨_, e⟩ <;> cases e.symm.trans h
    · rfl
    · rfl
    · rw [dmaStall_frame]; rfl
  · unfold dmaReceive at h
    split at h
    · simp [hb] at h
    · cases h; rw [dmaStall_frame]; rfl

end Sys2Proof.Machine
end

section
/-! What a controller was launched with stays as it is for its life (00_scope.md R9). -/

namespace Sys2Proof.Machine

/-- The parameters, the jumper byte, and each slot's presence and physical geometry: what a controller is launched
with and no rule changes (00_scope.md R9; 10_state.md R52, R53, R57). -/
def State.launched (s : State) : Params × Byte × List (Bool × Geometry) :=
  (s.params, s.switches, s.drives.map (fun d => (d.present, d.phys)))

theorem launched_begun (f : Cdb) (s : State) : (s.begun f).launched = s.launched := rfl

theorem launched_completed (s : State) : s.completed.launched = s.launched := by
  rcases completed_cases s with ⟨_, e⟩ | ⟨_, e⟩ <;> exact (congrArg State.launched e).trans rfl

theorem launched_failed (e : ErrorName) (s : State) : (s.failed e).launched = s.launched := launched_completed _

/-- Whatever else of a drive changes, it is the drive that was launched. -/
theorem launched_onDrive (d : Nat) {g : Drive → Drive} (hpresent : ∀ dr, (g dr).present = dr.present)
    (hphys : ∀ dr, (g dr).phys = dr.phys) (s : State) : (s.onDrive d g).launched = s.launched := by
  have hd : (s.drives.modify d g).map (fun d => (d.present, d.phys)) = s.drives.map (fun d => (d.present, d.phys)) := by
    apply List.ext_getElem?
    intro k
    simp only [List.getElem?_map, List.getElem?_modify]
    cases s.drives[k]? with
    | none => rfl
    | some dr => by_cases hk : d = k <;> simp [hk, hpresent, hphys]
  simp only [State.launched, onDrive_params, onDrive_switches, onDrive_drives, hd]

theorem Worked.launched {s u : State} (w : Worked s u) : u.launched = s.launched := by
  have hd : u.drives.map (fun d => (d.present, d.phys)) = s.drives.map (fun d => (d.present, d.phys)) := by
    simpa [Function.comp_def] using congrArg (List.map (fun x => (x.1, x.2.1))) w.fixed
  calc u.launched = (s.params, s.switches, u.drives.map (fun d => (d.present, d.phys))) :=
        (congrArg State.launched w.rest).trans rfl
    _ = s.launched := by rw [hd]; rfl

theorem Ended.launched {i : Instr} {s t : State} (h : Ended i s t) : t.launched = s.launched := by
  cases h with
  | complete u w => exact (launched_completed u).trans w.launched
  | cleared => exact launched_completed _
  | configure => rw [launched_completed, launched_onDrive] <;> exact fun _ => rfl
  | fail e u _ w => exact (launched_failed e u).trans w.launched
  | send _ _ _ w | receive _ _ _ w | wait _ _ _ w | mark _ w => exact w.launched

/-- No instruction changes what the controller was launched with. -/
theorem launched_exec {i : Instr} {s t : State} (h : exec i s = .next t) : t.launched = s.launched := by
  cases hf : i.fields? with
  | none => exact (congrArg State.launched (exec_port_frame hf h)).trans rfl
  | some f =>
    cases commandStep_of_exec hf h with
    | notDue | noHandler => rfl
    | dmaSend _ _ ht => exact (congrArg State.launched (dmaSend_frame ht)).trans rfl
    | dmaReceive _ _ ht => exact (congrArg State.launched (dmaReceive_frame ht)).trans rfl
    | handler _ ht => exact ht.launched.trans (launched_begun f s)

/-- No step of an attached controller changes what it was launched with. -/
theorem launched_step {s t : State} (ha : s.attached = true) (h : step s = .next t) : t.launched = s.launched := by
  obtain ⟨_, _, hcases⟩ := step_cases h
  rcases hcases with ⟨_, _, _, rfl⟩ | ⟨_, _, _, he⟩ | ⟨_, _, _, _, _, _, he⟩ | ⟨_, _, _, _, _, he⟩ |
    ⟨_, _, _, _, _, rfl⟩ | ⟨_, _, _, rfl⟩ | ⟨hd, _⟩ | ⟨hd, _⟩
  · rfl
  · exact (launched_exec he).trans rfl
  · exact (launched_exec he).trans rfl
  · exact (launched_exec he).trans rfl
  · rfl
  · rfl
  · exact nomatch hd.symm.trans ha
  · exact nomatch hd.symm.trans ha

/-- Settles O53: every action of `step_cases` that an attached controller can take keeps `State.launched`. -/
theorem configurationNeverChanges : Obligations.ConfigurationNeverChanges := by
  unfold Obligations.ConfigurationNeverChanges
  intro s t ha h
  obtain ⟨hparams, hrest⟩ := Prod.ext_iff.mp (launched_step ha h)
  obtain ⟨hswitches, hdrives⟩ := Prod.ext_iff.mp hrest
  exact ⟨hparams, hswitches, hdrives⟩

end Sys2Proof.Machine
end

section
/-! What an access of the host can do, said once by its cases (40_register_interface.md R141 to R153). -/

namespace Sys2Proof.Machine

/-- What the port access `i` can answer. -/
inductive PortStep (s : State) : Instr → State → Prop where
  | command (v : Byte) (hp : s.phase = .receiveCommand) (hpos : s.commandPos < 6) (hmore : s.commandPos + 1 ≠ 6) :
      PortStep s (.dataWrite v)
        { s with command := s.command.set s.commandPos v, commandPos := s.commandPos + 1 }
  | lastCommand (v : Byte) (hp : s.phase = .receiveCommand) (hpos : s.commandPos < 6)
      (hlast : s.commandPos + 1 = 6) :
      PortStep s (.dataWrite v)
        (State.enterStart { s with command := s.command.set s.commandPos v, commandPos := s.commandPos + 1 })
  | store (v : Byte) (hp : s.phase = .receiveData) (hpos : s.bufPos < s.params.bufSize)
      (hmore : s.bufPos + 1 ≠ s.bufCount) :
      PortStep s (.dataWrite v)
        { s with buffer := Memory.writeBytes s.buffer s.bufPos [v], bufPos := s.bufPos + 1 }
  | lastStore (v : Byte) (hp : s.phase = .receiveData) (hpos : s.bufPos < s.params.bufSize)
      (hlast : s.bufPos + 1 = s.bufCount) :
      PortStep s (.dataWrite v)
        (State.enterReceived { s with buffer := Memory.writeBytes s.buffer s.bufPos [v], bufPos := s.bufPos + 1 })
  | badWrite (v : Byte) (hp : s.phase ≠ .receiveCommand ∧ s.phase ≠ .receiveData) :
      PortStep s (.dataWrite v) (s.violation .writeData)
  | load (hp : s.phase = .sendData) (hpos : s.bufPos < s.params.bufSize) (hmore : s.bufPos + 1 ≠ s.bufCount) :
      PortStep s .dataRead { s.clearIrq with busOut := Memory.read s.buffer s.bufPos, bufPos := s.bufPos + 1 }
  | lastLoad (hp : s.phase = .sendData) (hpos : s.bufPos < s.params.bufSize) (hlast : s.bufPos + 1 = s.bufCount) :
      PortStep s .dataRead
        (State.enterSent { s.clearIrq with busOut := Memory.read s.buffer s.bufPos, bufPos := s.bufPos + 1 })
  | returned (hp : s.phase = .completionByte) : PortStep s .dataRead s.clearIrq.returnCompletion
  | badRead (hp : s.phase ≠ .sendData ∧ s.phase ≠ .completionByte) :
      PortStep s .dataRead (State.violation .readData { s.clearIrq with busOut := 0xFF })
  | reset (v : Byte) : PortStep s (.resetWrite v) { s with status := 0, pending := none, phase := .idle, stall := 0 }
  | select (v : Byte) :
      PortStep s (.selectWrite v) { s with status := BSY ||| CD ||| REQ, commandPos := 0, phase := .receiveCommand }
  | mask (v : Byte) : PortStep s (.maskWrite v) { s with irqDmaMask := v }
  | status : PortStep s .statusRead { s with busOut := s.status }
  | switches : PortStep s .switchRead { s with busOut := s.switches }
  | free : PortStep s .maskRead { s with busOut := Config.maskRead s.draws, draws := s.draws + 1 }

theorem portStep_of_exec {i : Instr} (hf : i.fields? = none) {s t : State} (h : exec i s = .next t) :
    PortStep s i t := by
  cases i <;> simp only [Instr.fields?, reduceCtorEq] at hf
  case dataWrite v =>
    change execDataWrite v s = _ at h
    unfold execDataWrite writeCommandByte writeDataByte at h
    split at h
    next hp =>
      split at h
      next hpos =>
        cases h
        split
        · exact .lastCommand v hp hpos ‹_›
        · exact .command v hp hpos ‹_›
      next => cases h
    next hp =>
      split at h
      next hpos =>
        cases h
        split
        · exact .lastStore v hp hpos ‹_›
        · exact .store v hp hpos ‹_›
      next => cases h
    all_goals next hp => cases h; exact .badWrite v (by simp [hp])
  case dataRead =>
    change execDataRead s = _ at h
    unfold execDataRead readDataByte at h
    split at h
    next hp => cases h; exact .returned hp
    next hp =>
      split at h
      next hpos =>
        cases h
        split
        · exact .lastLoad hp hpos ‹_›
        · exact .load hp hpos ‹_›
      next => cases h
    all_goals next hp => cases h; exact .badRead (by simp [hp])
  case resetWrite v => cases h; exact .reset v
  case selectWrite v => cases h; exact .select v
  case maskWrite v => cases h; exact .mask v
  case statusRead => cases h; exact .status
  case switchRead => cases h; exact .switches
  case maskRead => cases h; exact .free

end Sys2Proof.Machine
end

section
/-! The invariant taken apart: what it says whatever the phase (`Sound`), what a data phase adds (`Transfer`), and what
is left of it while a step of a command runs (`Stepping`). -/

namespace Sys2Proof.Machine

/-- What the invariant says of a state whatever its phase. -/
structure State.Sound (s : State) : Prop where
  config : s.configOk = true
  commandPos : s.commandPos ≤ 6
  bufRange : s.bufPos ≤ s.bufCount ∧ s.bufCount ≤ s.params.bufSize
  stall : s.stall ≤ s.params.retryBudget
  completion : s.completionByte = s.driveSelect.zeroExtend 8 <<< 5 ∨
    s.completionByte = (s.driveSelect.zeroExtend 8 <<< 5) ||| 0x02
  errorCode : s.errorCode = 0 ∨ ∃ e ∈ raisedErrors, s.errorCode = s.params.errCodes.of e
  switches : s.switches = switchByte s.params (s.drives.map (fun d => (d.present, d.phys)))
  buffer : Memory.wf s.buffer ∧ Memory.below s.buffer s.params.bufSize
  images : ∀ d ∈ s.drives, Memory.wf d.image ∧ Memory.below d.image (d.phys.blocks * 512)

/-- The drive selected is the one the command block names (41_state_machine.md R172). -/
def State.onNamedDrive (s : State) : Prop := s.driveSelect = s.command[1].extractLsb' 5 3

/-- The phases whose step runs a handler (41_state_machine.md R179). -/
def Phase.handled (p : Phase) : Prop := p = .startCommand ∨ p = .sentData ∨ p = .receivedData ∨ p = .done

theorem Phase.handled.not_waiting {p : Phase} (h : p.handled) :
    p ≠ .receiveCommand ∧ ¬ (p = .sendData ∨ p = .receiveData) := by
  rcases h with rfl | rfl | rfl | rfl <;> decide

/-- The command of a data phase runs on the drive it names, and a sector it moves lies in the configured disk. -/
structure State.Transfer (s : State) : Prop where
  drive : s.onNamedDrive
  target : movesSectors s.current = true → s.onTarget

/-- A step of a command is running: the invariant held when it fired, and it has passed the prologue
(41_state_machine.md R170, R172). -/
structure State.Stepping (s : State) : Prop where
  due : (s.arm .step).Inv
  pending : s.pending = none
  drive : s.onNamedDrive

theorem State.Inv.sound {s : State} (h : s.Inv) : s.Sound :=
  { h with commandPos := h.commandPos.1, stall := h.stall.1 }

theorem State.Inv.transfer {s : State} (h : s.Inv) (hm : s.phase.moving = true) : s.Transfer :=
  ⟨h.drive (.inl hm), h.target hm⟩

theorem State.Inv.sendLength_eq {s : State} (h : s.Inv) (hp : s.phase = .sendData ∨ s.phase = .sentData) :
    sendLength s.current = some s.bufCount := by
  rcases hp with hp | hp <;> simpa only [State.phaseServed, hp] using h.served

theorem State.Inv.receiveLength_eq {s : State} (h : s.Inv) (hp : s.phase = .receiveData ∨ s.phase = .receivedData) :
    receiveLength s.current = some s.bufCount := by
  rcases hp with hp | hp <;> simpa only [State.phaseServed, hp] using h.served

theorem State.Inv.hasDone_eq {s : State} (h : s.Inv) (hp : s.phase = .done) : hasDone s.current = true := by
  simpa only [State.phaseServed, hp] using h.served

theorem State.Stepping.sound {s : State} (h : s.Stepping) : s.Sound := { h.due.sound with }

theorem State.Stepping.attached {s : State} (h : s.Stepping) : s.attached = true := by
  by_contra ha
  exact nomatch h.due.ended (by simpa using ha)

/-- 00_scope.md R10: the buffer holds a long sector, and one stall at least is tolerated. -/
theorem State.Sound.bounds {s : State} (h : s.Sound) : 516 ≤ s.params.bufSize ∧ 1 ≤ s.params.retryBudget := by
  have hc := h.config
  simp only [State.configOk, Params.wf, Bool.and_eq_true, decide_eq_true_eq] at hc
  obtain ⟨⟨⟨⟨⟨_, hretry⟩, hbuf⟩, _⟩, _⟩, _⟩ := hc
  exact ⟨hbuf, hretry⟩

/-- The prologue keeps the invariant (41_state_machine.md R172). -/
theorem State.Inv.begun {s : State} (h : s.Inv) {f : Cdb} (hf : f.drive = s.command[1].extractLsb' 5 3) :
    (s.begun f).Inv :=
  { h with
    completion := .inl rfl
    drive := fun _ => hf
    target := fun hm hs => by
      have hd : (s.begun f).d = s.d := congrArg BitVec.toNat (hf.trans (h.drive (.inl hm)).symm)
      rw [hd]
      exact h.target hm hs }

theorem Worked.sound {s u : State} (w : Worked s u) (h : s.Sound) : u.Sound := by
  have hparams : u.params = s.params := congrArg Prod.fst w.launched
  have hlength : u.drives.length = s.drives.length := by simpa using congrArg List.length w.fixed
  have hslots := congrArg (fun l => l.2.2) w.launched
  have hbuffer := w.buffer _ h.bounds.1 h.buffer.1 h.buffer.2
  have himages := w.images h.images
  have hconfig : u.configOk = true := by
    unfold State.configOk
    rw [hparams, hlength]
    exact h.config
  rw [w.rest] at hconfig ⊢
  exact { h with
    config := hconfig
    switches := h.switches.trans (congrArg _ hslots.symm)
    buffer := hbuffer
    images := himages }

theorem State.Sound.error {s : State} (h : s.Sound) {e : ErrorName} (he : e ∈ raisedErrors) :
    State.Sound { s with completionByte := s.completionByte ||| 0x02, errorCode := s.params.errCodes.of e } :=
  { h with
    completion := .inr (by
      rcases h.completion with hc | hc <;> simp only [hc, BitVec.or_assoc, BitVec.or_self])
    errorCode := .inr ⟨e, he, rfl⟩ }

/-! ## The phase entries (41_state_machine.md R175 to R177, R180) -/

theorem inv_completed {s : State} (h : s.Sound) (hp : s.pending = none) (hd : s.onNamedDrive) : s.completed.Inv := by
  rcases completed_cases s with ⟨_, e⟩ | ⟨_, e⟩ <;> rw [e] <;> exact { h with
    commandPos := ⟨h.commandPos, nofun⟩
    bufLeft := by simp
    status := by simp [State.statusShown]
    pending := hp
    ended := fun _ => hp
    served := trivial
    stall := ⟨h.stall, by simp⟩
    drive := fun _ => hd
    target := nofun }

theorem inv_failed {s : State} (h : s.Sound) (hp : s.pending = none) (hd : s.onNamedDrive) {e : ErrorName}
    (he : e ∈ raisedErrors) : (s.failed e).Inv :=
  inv_completed (h.error he) hp hd

theorem sendLength_range {i : Instr} {n : Nat} (h : sendLength i = some n) : 0 < n ∧ n ≤ 516 := by
  cases i <;> simp only [sendLength, reduceCtorEq, Option.some.injEq] at h <;> omega

theorem receiveLength_range {i : Instr} {n : Nat} (h : receiveLength i = some n) : 0 < n ∧ n ≤ 516 := by
  cases i <;> simp only [receiveLength, reduceCtorEq, Option.some.injEq] at h <;> omega

/-- Idle just entered, with nothing pending. -/
theorem inv_entersIdle {s : State} (h : s.Sound) (hp : s.pending = none) :
    State.Inv { s with phase := .idle, status := 0x00 } :=
  { h with
    commandPos := ⟨h.commandPos, nofun⟩
    bufLeft := by simp
    status := rfl
    pending := hp
    ended := fun _ => hp
    served := trivial
    stall := ⟨h.stall, by simp⟩
    drive := by simp [Phase.moving]
    target := nofun }

/-- A data phase just entered. -/
theorem inv_entersData {s : State} (h : s.Sound) (hp : s.pending = none) (ha : s.attached = true) (ht : s.Transfer)
    {p : Phase} (hphase : p = .sendData ∨ p = .receiveData) {n : Nat} (hn : 0 < n ∧ n ≤ 516) {b : Bool} {w : Byte}
    {t : State}
    (e : t = { s with
      phase := p, bufPos := 0, bufCount := n, stall := 0, xferDma := b, status := w
      pending := if b then some .dma else s.pending })
    (hstatus : t.statusShown) (hserved : t.phaseServed) : t.Inv := by
  subst e
  exact { h with
    commandPos := ⟨h.commandPos, fun e => by rcases hphase with rfl | rfl <;> cases e⟩
    bufRange := ⟨Nat.zero_le n, hn.2.trans h.bounds.1⟩
    bufLeft := fun _ => hn.1
    status := hstatus
    pending := by rcases hphase with rfl | rfl <;> cases b <;> simp [State.pendingShown, hp]
    ended := fun hn => nomatch hn.symm.trans ha
    served := hserved
    stall := ⟨Nat.zero_le _, fun _ _ => h.bounds.2⟩
    drive := fun _ => ht.drive
    target := fun _ => ht.target }

theorem inv_sending {s : State} (h : s.Sound) (hp : s.pending = none) (ha : s.attached = true) (ht : s.Transfer)
    {n : Nat} (hn : sendLength s.current = some n) : (s.sending n).Inv :=
  inv_entersData h hp ha ht (.inl rfl) (sendLength_range hn) rfl (by simp [State.statusShown, State.sending]) hn

theorem inv_receiving {s : State} (h : s.Sound) (hp : s.pending = none) (ha : s.attached = true) (ht : s.Transfer)
    {n : Nat} (hn : receiveLength s.current = some n) : (s.receiving n).Inv :=
  inv_entersData h hp ha ht (.inr rfl) (receiveLength_range hn) rfl (by simp [State.statusShown, State.receiving]) hn

/-- A phase just entered in which the block waits for the scheduler (41_state_machine.md R178). -/
theorem inv_entersDue {s : State} (h : s.Sound) (ha : s.attached = true) (d : Delay) {p : Phase}
    (hphase : p.handled) (hserved : State.phaseServed { s with phase := p })
    (hd : p ≠ .startCommand → s.onNamedDrive) (ht : p.moving = true → movesSectors s.current = true → s.onTarget) :
    State.Inv { s with phase := p, status := 0x08, pending := some d } := by
  obtain ⟨hreceive, hdata⟩ := hphase.not_waiting
  exact { h with
    commandPos := ⟨h.commandPos, fun e => absurd e hreceive⟩
    bufLeft := fun e => absurd e hdata
    status := by rcases hphase with rfl | rfl | rfl | rfl <;> rfl
    pending := by rcases hphase with rfl | rfl | rfl | rfl <;> exact fun _ _ => rfl
    ended := fun hn => nomatch hn.symm.trans ha
    served := hserved
    stall := ⟨h.stall, fun e => absurd e hdata⟩
    drive := fun e => hd (by rintro rfl; simp [Phase.moving] at e)
    target := ht }

theorem inv_waiting {s : State} (h : s.Sound) (ha : s.attached = true) (hd : s.onNamedDrive)
    (hdone : hasDone s.current = true) (d : Delay) : (s.waiting d).Inv :=
  inv_entersDue h ha d (.inr (.inr (.inr rfl))) hdone (fun _ => hd) nofun

theorem inv_enterSent {s : State} (h : s.Sound) (ha : s.attached = true) (ht : s.Transfer)
    (hn : sendLength s.current = some s.bufCount) : s.enterSent.Inv :=
  inv_entersDue h ha .step (.inr (.inl rfl)) hn (fun _ => ht.drive) (fun _ => ht.target)

theorem inv_enterReceived {s : State} (h : s.Sound) (ha : s.attached = true) (ht : s.Transfer)
    (hn : receiveLength s.current = some s.bufCount) : s.enterReceived.Inv :=
  inv_entersDue h ha .step (.inr (.inr (.inl rfl))) hn (fun _ => ht.drive) (fun _ => ht.target)

theorem inv_enterStart {s : State} (h : s.Sound) (ha : s.attached = true) : s.enterStart.Inv :=
  inv_entersDue h ha .cmd (.inl rfl) trivial (fun hn => absurd rfl hn) nofun

/-! ## The handlers -/

theorem Worked.drive {s u : State} (w : Worked s u) (hd : s.onNamedDrive) : u.onNamedDrive := by
  rw [w.rest]; exact hd

theorem Worked.pending {s u : State} (w : Worked s u) : u.pending = s.pending := by rw [w.rest]

theorem Worked.attached {s u : State} (w : Worked s u) : u.attached = s.attached := by rw [w.rest]

theorem Worked.current {s u : State} (w : Worked s u) : u.current = s.current := by rw [w.rest]; rfl

/-- A geometry may be configured that is not the drive's own. -/
theorem State.Sound.configure {s : State} (h : s.Sound) (d : Nat) (g : Geometry → Geometry) :
    (s.onDrive d (fun dr => { dr with cfg := g dr.cfg })).Sound := by
  have hslots := congrArg (fun l => l.2.2)
    (launched_onDrive d (g := fun dr => { dr with cfg := g dr.cfg }) (fun _ => rfl) (fun _ => rfl) s)
  refine { h with config := ?_, switches := h.switches.trans (congrArg _ hslots.symm), images := fun dr hdr => ?_ }
  · have hc := h.config
    simpa [State.configOk] using hc
  · obtain ⟨k, hk⟩ := List.mem_iff_getElem?.mp hdr
    rw [getElem?_onDrive] at hk
    obtain ⟨dr', hdr', rfl⟩ := Option.map_eq_some_iff.mp hk
    have := h.images dr' (List.mem_of_getElem? hdr')
    split <;> exact this

theorem movesSectors_of_hasDone {i : Instr} (h : hasDone i = true) : movesSectors i = false := by
  cases i <;> cases h <;> rfl

/-- A handler that moves sectors begins its command or goes on with a sector inside the configured disk. -/
theorem State.Stepping.begins {s : State} (h : s.Stepping) (hp : s.phase.handled)
    (hm : movesSectors s.current = true) : s.begins := by
  by_cases hmoving : s.phase.moving = true
  · obtain ⟨dr, hdr, hcyl, _⟩ := h.due.target hmoving hm
    exact .inr ⟨dr, hdr, hcyl⟩
  rcases hp with hp | hp | hp | hp
  · exact .inl hp
  · simp [hp, Phase.moving] at hmoving
  · simp [hp, Phase.moving] at hmoving
  · exact nomatch hm.symm.trans (movesSectors_of_hasDone (h.due.hasDone_eq hp))

/-- A call outside the image's contract ends the handler where it stands, with nothing pending (20_memory.md R83). -/
theorem inv_markFault {s u : State} (h : s.Stepping) (hp : s.phase.handled) (w : Worked s u)
    (ht : movesSectors s.current = true → s.phase.moving = true → u.onTarget) : u.markFault.Inv := by
  have hs := w.sound h.sound
  have hpending : State.pendingShown { s with fault := true } := by
    rcases hp with hp | hp | hp | hp <;> simp [State.pendingShown, hp]
  rw [w.rest] at hs ht ⊢
  exact { hs with
    commandPos := h.due.commandPos
    bufLeft := h.due.bufLeft
    status := h.due.status
    pending := hpending
    ended := fun _ => h.pending
    served := h.due.served
    stall := h.due.stall
    drive := h.due.drive
    target := fun hm hs => ht hs hm }

/-- Every end of a handler meets the invariant. -/
theorem Ended.inv {s t : State} (h : s.Stepping) (hp : s.phase.handled) (he : Ended s.current s t) : t.Inv := by
  have htransfer {u : State} (w : Worked s u) (ht : movesSectors s.current = true → s.begins → u.onTarget) :
      u.Transfer :=
    ⟨w.drive h.drive, fun hm => ht (w.current ▸ hm) (h.begins hp (w.current ▸ hm))⟩
  cases he with
  | complete u w => exact inv_completed (w.sound h.sound) (w.pending.trans h.pending) (w.drive h.drive)
  | cleared => exact inv_completed { h.sound with errorCode := .inl rfl } h.pending h.drive
  | configure g => exact inv_completed (h.sound.configure _ g) h.pending h.drive
  | fail e u he w => exact inv_failed (w.sound h.sound) (w.pending.trans h.pending) (w.drive h.drive) he
  | send n u hn w ht =>
    exact inv_sending (w.sound h.sound) (w.pending.trans h.pending) (w.attached.trans h.attached) (htransfer w ht)
      (w.current ▸ hn)
  | receive n u hn w ht =>
    exact inv_receiving (w.sound h.sound) (w.pending.trans h.pending) (w.attached.trans h.attached) (htransfer w ht)
      (w.current ▸ hn)
  | wait d u hd w =>
    exact inv_waiting (w.sound h.sound) (w.attached.trans h.attached) (w.drive h.drive) (w.current ▸ hd) d
  | mark u w lba n _ _ ht =>
    refine inv_markFault h hp w fun hm hmoving => ?_
    rcases ht (fun hm => h.begins hp hm) with ht | rfl
    · exact ht
    · exact h.due.target hmoving hm

end Sys2Proof.Machine
end

section
/-! The invariant over the steps that move a byte and the accesses of the host. -/

namespace Sys2Proof.Machine

/-! ## The DMA byte steps (43_transfer_engine.md R224 to R229) -/

/-- A byte is left to move, and lies in the buffer. -/
theorem State.Inv.byteLeft {s : State} (h : s.Inv) (hp : s.phase = .sendData ∨ s.phase = .receiveData) :
    s.bufPos < s.bufCount ∧ s.bufPos < s.params.bufSize :=
  ⟨h.bufLeft hp, (h.bufLeft hp).trans_le h.bufRange.2⟩

/-- The phases in which a step can be due: none that waits for the host alone. -/
def State.stepDue (s : State) : Prop :=
  s.phase ≠ .idle ∧ s.phase ≠ .completionByte ∧ (s.phase = .sendData ∨ s.phase = .receiveData → s.xferDma = true)

theorem pendingShown_iff_stepDue {s : State} (hp : s.pending.isSome = true) : s.pendingShown ↔ s.stepDue := by
  have hsome : s.pending ≠ none := by simpa [Option.isSome_iff_ne_none] using hp
  cases hphase : s.phase <;> simp [State.pendingShown, State.stepDue, hphase, hp, hsome]

theorem State.Stepping.stepDue {s : State} (h : s.Stepping) : s.stepDue :=
  (pendingShown_iff_stepDue (s := s.arm .step) rfl).mp h.due.pending

/-- A stall of a data phase that has stalled before or not shows itself alike (43_transfer_engine.md R229). -/
theorem statusShown_stalled {s : State} (h : s.statusShown) (hp : s.phase = .sendData ∨ s.phase = .receiveData)
    (hx : s.xferDma = true) : s.status ||| 0x0F = 0x1F := by
  by_cases hs : s.stall = 0 <;> rcases hp with hp | hp <;>
    simp only [State.statusShown, hp, hx, hs, ↓reduceIte] at h <;> rw [h] <;> rfl

theorem State.Stepping.event {s : State} (h : s.Stepping) (e : Event) : (s.event e).Stepping :=
  ⟨{ h.due with }, h.pending, h.drive⟩

/-- A DMA byte step that leaves the phase: the next one is armed. -/
theorem inv_dmaGoesOn {s : State} (h : s.Stepping) {m : Memory} {k n : Nat} {w : Byte} {l : List Event} (d : Delay)
    (hm : Memory.wf m ∧ Memory.below m s.params.bufSize) (hk : k < s.bufCount) (hn : n < s.params.retryBudget)
    (hw : State.statusShown { s with stall := n, status := w }) :
    State.Inv { s with buffer := m, bufPos := k, stall := n, status := w, pending := some d, log := l } :=
  { h.due with
    bufRange := ⟨hk.le, h.due.bufRange.2⟩
    bufLeft := fun _ => hk
    status := hw
    pending := (pendingShown_iff_stepDue rfl).mpr h.stepDue
    ended := fun ha => nomatch ha.symm.trans h.attached
    stall := ⟨hn.le, fun _ _ => hn⟩
    buffer := hm }

/-- The channel had nothing: the step stalls, or ends the command (43_transfer_engine.md R226, R227, R229). -/
theorem inv_dmaStall {s : State} (h : s.Stepping) (hp : s.phase = .sendData ∨ s.phase = .receiveData)
    (hx : s.xferDma = true) : s.dmaStall.Inv := by
  have hstall : s.stall < s.params.retryBudget := h.due.stall.2 hp hx
  have hstatus : s.status ||| 0x0F = 0x1F := statusShown_stalled h.due.status hp hx
  rcases dmaStall_cases s with ⟨hlt, e⟩ | ⟨_, e⟩ <;> rw [e]
  · exact inv_dmaGoesOn h .stall h.sound.buffer (h.due.bufLeft hp) hlt
      (by rcases hp with hp | hp <;> simpa [State.statusShown, hp, hx] using hstatus)
  · exact inv_failed (s := { s with stall := s.stall + 1 }) { h.sound with stall := hstall } h.pending h.drive
      (by decide)

theorem inv_dmaSend {s t : State} (h : s.Stepping) (hp : s.phase = .sendData) (hx : s.xferDma = true)
    (ht : dmaSend s = .next t) : t.Inv := by
  obtain ⟨hleft, hsize⟩ : s.bufPos < s.bufCount ∧ s.bufPos < s.params.bufSize := h.due.byteLeft (.inl hp)
  have ⟨hdrive, htarget⟩ := h.due.transfer (by simp [hp, Phase.moving])
  rcases dmaSend_cases hsize with ⟨_, _, e⟩ | ⟨_, hmore, e⟩ | ⟨_, e⟩ <;> cases e.symm.trans ht
  · exact inv_enterSent (s := { s with bufPos := s.bufPos + 1, stall := 0, log := _ })
      { h.sound with bufRange := ⟨hleft, h.due.bufRange.2⟩, stall := Nat.zero_le _ } h.attached
      ⟨hdrive, htarget⟩ (h.due.sendLength_eq (.inl hp))
  · exact inv_dmaGoesOn h .dma h.sound.buffer (lt_of_le_of_ne hleft hmore) h.sound.bounds.2
      (by simp [State.statusShown, hp, hx])
  · exact inv_dmaStall (h.event _) (.inl hp) hx

/-- A byte stored inside the buffer keeps its form. -/
theorem State.Sound.store {s : State} (h : s.Sound) {a : Nat} (ha : a < s.params.bufSize) (b : Byte) :
    Memory.wf (Memory.writeBytes s.buffer a [b]) ∧
      Memory.below (Memory.writeBytes s.buffer a [b]) s.params.bufSize :=
  ⟨Memory.wf_writeBytes h.buffer.1 a [b], Memory.below_writeBytes h.buffer.2 ha⟩

theorem inv_dmaReceive {s t : State} (h : s.Stepping) (hp : s.phase = .receiveData) (hx : s.xferDma = true)
    (ht : dmaReceive s = .next t) : t.Inv := by
  obtain ⟨hleft, hsize⟩ : s.bufPos < s.bufCount ∧ s.bufPos < s.params.bufSize := h.due.byteLeft (.inr hp)
  have ⟨hdrive, htarget⟩ := h.due.transfer (by simp [hp, Phase.moving])
  rcases dmaReceive_cases hsize with ⟨b, _, _, e⟩ | ⟨b, _, hmore, e⟩ | ⟨_, e⟩ <;> cases e.symm.trans ht
  · exact inv_enterReceived
      (s := { s with buffer := Memory.writeBytes s.buffer s.bufPos [b], bufPos := s.bufPos + 1, stall := 0, log := _ })
      { h.sound with
        bufRange := ⟨hleft, h.due.bufRange.2⟩, stall := Nat.zero_le _, buffer := h.sound.store hsize b }
      h.attached ⟨hdrive, htarget⟩ (h.due.receiveLength_eq (.inl hp))
  · exact inv_dmaGoesOn h .dma (h.sound.store hsize b) (lt_of_le_of_ne hleft hmore)
      h.sound.bounds.2 (by simp [State.statusShown, hp, hx])
  · exact inv_dmaStall (h.event _) (.inr hp) hx

/-! ## The step of a command -/

/-- Firing a pending step leaves the command running (41_state_machine.md R170, R172). -/
theorem State.Inv.stepping {s : State} (h : s.Inv) (hp : s.pending.isSome = true) {f : Cdb}
    (hf : f.drive = s.command[1].extractLsb' 5 3) : (State.begun f { s with pending := none }).Stepping := by
  have hb := h.begun hf
  exact ⟨{ hb with
    pending := (pendingShown_iff_stepDue rfl).mpr ((pendingShown_iff_stepDue (s := s) hp).mp h.pending)
    ended := fun ha => by simp [h.ended ha] at hp }, rfl, hf⟩

/-- Firing a pending step runs the command in the command buffer and keeps the invariant. -/
theorem inv_fired {s t : State} (h : s.Inv) (hp : s.pending.isSome = true)
    (he : exec s.current { s with pending := none } = .next t) : t.Inv := by
  have hs := h.stepping hp (f := Cdb.ofBytes s.command[1] s.command[2] s.command[3] s.command[4] s.command[5]) rfl
  obtain ⟨hidle, hcompletion, hdata⟩ := (pendingShown_iff_stepDue hp).mp h.pending
  cases commandStep_of_exec (fields_current s) he with
  | notDue hphase =>
    have hreceive : s.phase = .receiveCommand := by
      rcases hphase with hphase | hphase | hphase | ⟨hphase, hx⟩
      · exact absurd hphase hidle
      · exact hphase
      · exact absurd hphase hcompletion
      · exact nomatch hx.symm.trans (hdata hphase)
    exact { h with pending := by simp [State.pendingShown, hreceive], ended := fun _ => rfl }
  | noHandler hphase =>
    rcases hphase with ⟨hphase, hn⟩ | ⟨hphase, hn⟩ | ⟨hphase, hn⟩
    · exact nomatch (h.sendLength_eq (.inr hphase)).symm.trans hn
    · exact nomatch (h.receiveLength_eq (.inr hphase)).symm.trans hn
    · exact nomatch (h.hasDone_eq hphase).symm.trans hn
  | dmaSend hphase hx ht => exact inv_dmaSend hs hphase hx ht
  | dmaReceive hphase hx ht => exact inv_dmaReceive hs hphase hx ht
  | handler hphase ht =>
    exact Ended.inv hs (hphase.imp_right (Or.imp And.left (Or.imp And.left And.left))) ht

/-! ## The accesses of the host (40_register_interface.md R141 to R153) -/

/-- Outside CompletionByte the IRQ bit is clear (10_state.md R62). -/
theorem irq_clear_of_statusShown {s : State} (h : s.statusShown) (hp : s.phase ≠ .completionByte) :
    s.status &&& 0x20 = 0 := by
  cases hphase : s.phase <;> simp only [State.statusShown, hphase] at h
  case completionByte => exact absurd hphase hp
  case receiveData | sendData =>
    rw [h]
    by_cases hstall : s.stall = 0 <;> cases s.xferDma <;> simp [hstall]
  all_goals rw [h]; rfl

/-- A read clears no bit outside CompletionByte. -/
theorem clearIrq_eq_self {s : State} (h : s.statusShown) (hp : s.phase ≠ .completionByte) : s.clearIrq = s := by
  have hbit : ∀ x : Byte, x &&& 0x20 = 0 → x &&& ~~~IRQ = x := by decide
  simp only [State.clearIrq, hbit _ (irq_clear_of_statusShown h hp)]

/-- Every access of the host to an attached controller keeps the invariant. -/
theorem PortStep.inv {i : Instr} {s t : State} (h : s.Inv) (ha : s.attached = true) (ht : PortStep s i t) : t.Inv := by
  have hclear (hp : s.phase ≠ .completionByte) : s.clearIrq = s := clearIrq_eq_self h.status hp
  cases ht with
  | command v hp hpos hmore =>
    exact { h with
      commandPos := ⟨hpos, fun _ => lt_of_le_of_ne hpos hmore⟩
      served := by simp [State.phaseServed, hp]
      drive := by simp [hp, Phase.moving]
      target := by simp [hp, Phase.moving] }
  | lastCommand v hp hpos hlast => exact inv_enterStart { h.sound with commandPos := hlast.le } ha
  | store v hp hpos hmore =>
    exact { h with
      bufRange := ⟨h.bufLeft (.inr hp), h.bufRange.2⟩
      bufLeft := fun _ => lt_of_le_of_ne (h.bufLeft (.inr hp)) hmore
      buffer := h.sound.store hpos v }
  | lastStore v hp hpos hlast =>
    have ⟨hdrive, htarget⟩ := h.transfer (by simp [hp, Phase.moving])
    exact inv_enterReceived
      { h.sound with bufRange := ⟨hlast.le, h.bufRange.2⟩, buffer := h.sound.store hpos v }
      ha ⟨hdrive, htarget⟩ (h.receiveLength_eq (.inl hp))
  | load hp _ hmore =>
    rw [hclear (by simp [hp])]
    exact { h with
      bufRange := ⟨h.bufLeft (.inl hp), h.bufRange.2⟩
      bufLeft := fun _ => lt_of_le_of_ne (h.bufLeft (.inl hp)) hmore }
  | lastLoad hp _ hlast =>
    have ⟨hdrive, htarget⟩ := h.transfer (by simp [hp, Phase.moving])
    rw [hclear (by simp [hp])]
    exact inv_enterSent { h.sound with bufRange := ⟨hlast.le, h.bufRange.2⟩ } ha ⟨hdrive, htarget⟩
      (h.sendLength_eq (.inl hp))
  | badRead hp => rw [hclear hp.2]; exact { h with }
  | returned hp =>
    exact inv_entersIdle (s := { s.clearIrq with busOut := s.completionByte }) { h.sound with }
      (by simpa [State.pendingShown, hp] using h.pending)
  | reset =>
    exact inv_entersIdle (s := { s with pending := none, stall := 0 }) { h.sound with stall := Nat.zero_le _ } rfl
  | select =>
    exact { h with
      commandPos := ⟨Nat.zero_le _, fun _ => Nat.succ_pos 5⟩
      bufLeft := by simp
      status := rfl
      pending := trivial
      served := trivial
      stall := ⟨h.stall.1, by simp⟩
      drive := by simp [Phase.moving]
      target := nofun }
  | badWrite | mask | status | switches | free => exact { h with }

end Sys2Proof.Machine
end

section
/-! The invariant after attach, and over every step of the machine. -/

namespace Sys2Proof.Machine

/-- A controller just attached, over images that lie in their disks (10_state.md R60). -/
theorem inv_attach {p : Params} {drives : List Launch} {command : Vector Byte 6} {buffer : Memory}
    (hconfig : (State.attach p drives command buffer).configOk = true)
    (hbuffer : Memory.wf buffer ∧ Memory.below buffer p.bufSize)
    (himages : ∀ l ∈ drives, Memory.wf l.image ∧ Memory.below l.image (l.phys.blocks * 512)) :
    (State.attach p drives command buffer).Inv where
  config := hconfig
  commandPos := ⟨Nat.zero_le 6, nofun⟩
  bufRange := ⟨le_rfl, Nat.zero_le _⟩
  bufLeft := by simp [State.attach]
  status := rfl
  pending := rfl
  ended := fun _ => rfl
  served := trivial
  stall := ⟨Nat.zero_le _, by simp [State.attach]⟩
  completion := .inl rfl
  errorCode := .inl rfl
  drive := by simp [State.attach, Phase.moving]
  target := nofun
  switches := by simp only [State.attach, List.map_map]; rfl
  buffer := hbuffer
  images := List.forall_mem_map.mpr himages

/-- Settles O59: the launch arguments of the reset state are legal, and its images are in form. -/
theorem resetMeetsTheInvariant : Obligations.ResetMeetsTheInvariant :=
  inv_attach (by decide) (by decide) (by decide)

/-- A later attach finds the images as they were kept (70_reset_and_hazards.md R332). -/
theorem inv_reattach {s : State} (h : s.Inv) : s.reattach.Inv := by
  have hattach : State.Inv (State.attach s.params (s.drives.map Drive.launch)
      (Vector.ofFn (fun i => Config.attachCommand s.draws i.val))
      (Memory.writeBytes [] 0 ((List.range s.params.bufSize).map (Config.attachBuffer s.draws)))) :=
    inv_attach (by simpa [State.configOk, State.attach] using h.config)
      ⟨Memory.wf_writeBytes ⟨.nil, fun _ => nofun⟩ _ _, Memory.below_writeBytes (m := []) (fun _ => nofun) (by simp)⟩
      (List.forall_mem_map.mpr h.images)
  exact { hattach with }

/-- Detach drops the pending step (20_memory.md R84). -/
theorem inv_detach {s : State} (h : s.Inv) : s.detach.Inv :=
  { h with
    pending := by cases hp : s.phase <;> simp [State.pendingShown, State.detach, hp]
    ended := fun _ => rfl }

/-- Settles O60: every action of `step_cases` keeps the invariant, a port access by the cases of `PortStep`, a fired
step by those of `CommandStep` and, where a handler runs, by its end. -/
theorem stepKeepsTheInvariant : Obligations.StepKeepsTheInvariant := by
  unfold Obligations.StepKeepsTheInvariant
  intro s t h hstep
  obtain ⟨_, _, hcases⟩ := step_cases hstep
  rcases hcases with ⟨_, _, _, rfl⟩ | ⟨_, _, hp, he⟩ | ⟨ha, _, rest, _, _, hi, he⟩ | ⟨_, dma, rest, _, hp, he⟩ |
    ⟨_, _, rest, _, _, rfl⟩ | ⟨_, rest, _, rfl⟩ | ⟨_, _, rfl⟩ | ⟨_, rest, _, rfl⟩
  · exact h
  · exact inv_fired (s := s.drawDma) { h with } hp he
  · exact PortStep.inv (s := { s with turns := rest }) { h with } ha (portStep_of_exec (fields_decodeAccess hi) he)
  · exact inv_fired (s := { s with turns := rest, dma := dma }) { h with } hp he
  · exact { h with }
  · exact { inv_detach h with }
  · exact h
  · exact { inv_reattach h with }

end Sys2Proof.Machine
end

section
/-! What every reachable state or every instruction has, by its cases: the meaning of the IRQ bit, the command buffer
that is latched, the event log and the interrupt. -/

namespace Sys2Proof.Machine

/-- Settles O57: the state after the step meets the invariant, whose status projection sets the bit in CompletionByte
only. -/
theorem interruptBitMeansUnreadCompletion : Obligations.InterruptBitMeansUnreadCompletion := by
  unfold Obligations.InterruptBitMeansUnreadCompletion
  intro s t h hstep hbit
  have hinv := stepKeepsTheInvariant s t h hstep
  have hphase : t.phase = .completionByte := by
    by_contra hphase
    exact hbit (irq_clear_of_statusShown hinv.status hphase)
  exact ⟨hphase, by simpa only [State.pendingShown, hphase] using hinv.pending⟩

/-! ## The command buffer (10_state.md R35) -/

theorem completed_command (s : State) : s.completed.command = s.command := by
  rw [← complete_eq_completed, complete_command]

theorem Worked.command {s u : State} (w : Worked s u) : u.command = s.command := by rw [w.rest]

theorem Ended.command {i : Instr} {s t : State} (h : Ended i s t) : t.command = s.command := by
  cases h with
  | complete u w => exact (completed_command u).trans w.command
  | cleared | configure => exact completed_command _
  | fail e u _ w => exact (completed_command _).trans w.command
  | send _ _ _ w | receive _ _ _ w | wait _ _ _ w | mark _ w => exact w.command

/-- Settles O52: of the port accesses only the two that store a command byte touch the command buffer, and no step of a
command does. -/
theorem commandBlockIsLatched : Obligations.CommandBlockIsLatched := by
  unfold Obligations.CommandBlockIsLatched
  intro i s t h
  cases hf : i.fields? with
  | none =>
    cases portStep_of_exec hf h with
    | command v hp | lastCommand v hp => exact .inr ⟨hp, v, rfl⟩
    | _ => exact .inl rfl
  | some f =>
    left
    cases commandStep_of_exec hf h with
    | notDue | noHandler => rfl
    | dmaSend _ _ ht => rw [dmaSend_frame ht]; rfl
    | dmaReceive _ _ ht => rw [dmaReceive_frame ht]; rfl
    | handler _ ht => exact ht.command

/-! ## The event log and the interrupt (10_state.md R59; 60_exceptions.md R311, R312, R314) -/

/-- From `s` to `t` the log grows, and its new events hold the interrupt exactly where a completion with IRQ_ENA is
new. -/
def LogsTo (s t : State) : Prop :=
  ∃ new : List Event, t.log = s.log ++ new ∧
    (∀ line, Event.irqRaised line ∈ new ↔
      line = s.params.irqLine ∧ s.irqDmaMask.getLsbD 1 = true ∧ s.phase ≠ .completionByte ∧
        t.phase = .completionByte) ∧
    (s.phase ≠ .completionByte → t.phase = .completionByte → t.status = if s.irqDmaMask.getLsbD 1 then 0x2F else 0x0F)

/-- Events of other kinds, and no new completion. -/
theorem logsTo_quiet {s t : State} {new : List Event} (hlog : t.log = s.log ++ new)
    (hquiet : ∀ line, Event.irqRaised line ∉ new) (hp : t.phase = .completionByte → s.phase = .completionByte) :
    LogsTo s t :=
  ⟨new, hlog, fun line => iff_of_false (hquiet line) fun ⟨_, _, hs, ht⟩ => hs (hp ht), fun hs ht => absurd (hp ht) hs⟩

/-- Events of other kinds, then a completion. -/
theorem logsTo_completed {s u : State} {new : List Event} (hlog : u.log = s.log ++ new)
    (hquiet : ∀ line, Event.irqRaised line ∉ new) (hparams : u.params = s.params)
    (hmask : u.irqDmaMask = s.irqDmaMask) (hp : s.phase ≠ .completionByte) : LogsTo s u.completed := by
  rcases completed_cases u with ⟨hirq, e⟩ | ⟨hirq, e⟩ <;> rw [e] <;> rw [hmask] at hirq
  · exact ⟨new ++ [.irqRaised s.params.irqLine], by simp [hlog, hparams], fun line => by simp [hquiet, hirq, hp],
      fun _ _ => by rw [hirq]; rfl⟩
  · exact ⟨new, hlog, fun line => iff_of_false (hquiet line) fun ⟨_, hset, _⟩ => (nomatch hirq.symm.trans hset),
      fun _ _ => by rw [hirq]; rfl⟩

theorem Worked.quiet {s u : State} (w : Worked s u) :
    ∃ new, u.log = s.log ++ new ∧ ∀ line, Event.irqRaised line ∉ new := by
  obtain ⟨new, hlog, hnew⟩ := w.log
  refine ⟨new, hlog, fun line hline => ?_⟩
  rcases hnew _ hline with ⟨_, _, e⟩ | ⟨_, _, _, e⟩ <;> cases e

theorem Ended.logsTo {i : Instr} {s t : State} (h : Ended i s t) (hp : s.phase ≠ .completionByte) : LogsTo s t := by
  have hquiet {u : State} (w : Worked s u) {t : State} (hlog : t.log = u.log)
      (ht : t.phase = .completionByte → s.phase = .completionByte) : LogsTo s t := by
    obtain ⟨new, hnew, hq⟩ := w.quiet
    exact logsTo_quiet (hlog.trans hnew) hq ht
  have hcompleted {u : State} (w : Worked s u) {v : State} (hlog : v.log = u.log) (hparams : v.params = u.params)
      (hmask : v.irqDmaMask = u.irqDmaMask) : LogsTo s v.completed := by
    obtain ⟨new, hnew, hq⟩ := w.quiet
    exact logsTo_completed (hlog.trans hnew) hq (hparams.trans (by rw [w.rest])) (hmask.trans (by rw [w.rest])) hp
  cases h with
  | complete u w => exact hcompleted w rfl rfl rfl
  | cleared | configure => exact hcompleted (.refl s) rfl rfl rfl
  | fail e u _ w => exact hcompleted w rfl rfl rfl
  | send _ u _ w | receive _ u _ w | wait _ u _ w => exact hquiet w rfl nofun
  | mark u w => exact hquiet w rfl (fun ht => by rw [w.rest] at ht; exact ht)

theorem dmaStall_logsTo {s : State} (e : Event) (he : ∀ line, e ≠ .irqRaised line) (hp : s.phase ≠ .completionByte) :
    LogsTo s (s.event e).dmaStall := by
  have hquiet (line : Nat) : Event.irqRaised line ∉ [e] := by simpa using (he line).symm
  rcases dmaStall_cases (s.event e) with ⟨_, h⟩ | ⟨_, h⟩ <;> rw [h]
  · exact logsTo_quiet rfl hquiet id
  · exact logsTo_completed rfl hquiet rfl rfl hp

theorem dmaSend_logsTo {s t : State} (h : dmaSend s = .next t) (hp : s.phase = .sendData) : LogsTo s t := by
  by_cases hb : s.bufPos < s.params.bufSize
  · rcases dmaSend_cases hb with ⟨_, _, e⟩ | ⟨_, _, e⟩ | ⟨_, e⟩ <;> cases e.symm.trans h
    · exact logsTo_quiet rfl (by simp) nofun
    · exact logsTo_quiet rfl (by simp) id
    · exact dmaStall_logsTo _ nofun (by simp [hp])
  · simp [dmaSend, hb] at h

theorem dmaReceive_logsTo {s t : State} (h : dmaReceive s = .next t) (hp : s.phase = .receiveData) : LogsTo s t := by
  by_cases hb : s.bufPos < s.params.bufSize
  · rcases dmaReceive_cases hb with ⟨_, _, _, e⟩ | ⟨_, _, _, e⟩ | ⟨_, e⟩ <;> cases e.symm.trans h
    · exact logsTo_quiet rfl (by simp) nofun
    · exact logsTo_quiet rfl (by simp) id
    · exact dmaStall_logsTo _ nofun (by simp [hp])
  · unfold dmaReceive at h
    split at h
    · simp [hb] at h
    · cases h; exact dmaStall_logsTo _ nofun (by simp [hp])

/-- No port access completes a command (40_register_interface.md R141 to R153). -/
theorem PortStep.logsTo {i : Instr} {s t : State} (h : PortStep s i t) : LogsTo s t := by
  have hsame {t : State} (hlog : t.log = s.log) (ht : t.phase = .completionByte → s.phase = .completionByte) :
      LogsTo s t := logsTo_quiet (new := []) (by simp [hlog]) (by simp) ht
  cases h with
  | command | store | load | mask | status | switches | free => exact hsame rfl id
  | lastCommand | lastStore | lastLoad | returned | reset | select => exact hsame rfl nofun
  | badWrite | badRead => exact logsTo_quiet rfl (by simp) id

/-- Settles O54: every case of `PortStep` and `CommandStep` logs as `LogsTo` says, a handler by its end. -/
theorem logGrowsAndInterruptMeansCompletion : Obligations.LogGrowsAndInterruptMeansCompletion := by
  unfold Obligations.LogGrowsAndInterruptMeansCompletion
  intro i s t h
  show LogsTo s t
  cases hf : i.fields? with
  | none => exact (portStep_of_exec hf h).logsTo
  | some f =>
    cases commandStep_of_exec hf h with
    | notDue => exact logsTo_quiet rfl (by simp) id
    | noHandler => exact logsTo_quiet (s := s) rfl (by simp) id
    | dmaSend hp _ ht => exact dmaSend_logsTo (s := s.begun f) ht hp
    | dmaReceive hp _ ht => exact dmaReceive_logsTo (s := s.begun f) ht hp
    | handler hp ht =>
      refine Ended.logsTo (s := s.begun f) ht ?_
      show s.phase ≠ .completionByte
      rcases hp with hp | ⟨hp, _⟩ | ⟨hp, _⟩ | ⟨hp, _⟩ <;> simp [hp]

end Sys2Proof.Machine
end

section
/-! The values after attach (10_state.md R60) and the jumper byte (30_encoding.md R117). -/

namespace Sys2Proof.Machine

/-- What a slot adds to the jumper byte; a missing slot adds what an absent drive does. -/
def slotBits (p : Params) (slot : Option Launch) (shift : Nat) : Byte :=
  match slot with
  | some l => switchBits p l.present l.phys shift
  | none => 0

theorem switchByte_eq_slotBits (p : Params) (l : List Launch) :
    switchByte p (l.map (fun x => (x.present, x.phys))) =
      slotBits p l[0]? p.switchShift0 ||| slotBits p l[1]? p.switchShift1 := by
  match l with
  | [] => exact (BitVec.or_zero).symm
  | [_] => exact (BitVec.or_zero).symm
  | _ :: _ :: _ => rfl

theorem slotBits_of_absent {p : Params} {slot : Option Launch} {shift : Nat}
    (h : ∀ x, slot = some x → x.present = false) : slotBits p slot shift = 0 := by
  cases slot with
  | none => rfl
  | some x => simp [slotBits, switchBits, h x rfl]

/-- The first row of the table with the drive's geometry gives its code. -/
theorem slotBits_of_row {p : Params} {x : Launch} (hx : x.present = true) {pre post : List SwitchRow} {r : SwitchRow}
    (ht : p.switchTable = pre ++ r :: post) (hr : r.geometry = x.phys) (hpre : ∀ q ∈ pre, q.geometry ≠ x.phys)
    (shift : Nat) : slotBits p (some x) shift = (r.code.zeroExtend 8 : Byte) <<< shift := by
  have hfind : p.switchTable.find? (fun r => r.geometry == x.phys) = some r :=
    List.find?_eq_some_iff_append.mpr ⟨by simp [hr], pre, post, ht, fun q hq => by simpa using hpre q hq⟩
  simp [slotBits, switchBits, hx, hfind]

/-- A geometry of no row gives the sentinel. -/
theorem slotBits_of_no_row {p : Params} {x : Launch} (hx : x.present = true)
    (ht : ∀ r ∈ p.switchTable, r.geometry ≠ x.phys) (shift : Nat) :
    slotBits p (some x) shift = (p.switchUnsupported.zeroExtend 8 : Byte) <<< shift := by
  have hfind : p.switchTable.find? (fun r => r.geometry == x.phys) = none :=
    List.find?_eq_none.mpr fun r hr => by simpa using ht r hr
  simp [slotBits, switchBits, hx, hfind]

/-- Settles O10: the values stand in `State.attach`, the jumper byte is what the first two slots add. -/
theorem attachValues : Obligations.AttachValues := by
  unfold Obligations.AttachValues
  refine ⟨fun p l cmd buf => ⟨rfl, rfl, rfl, rfl, rfl, rfl, rfl, rfl, rfl, rfl, rfl, rfl, rfl, rfl, rfl, rfl, rfl,
    List.length_map .., fun d x hx => ⟨x.drive, by simp [State.attach, hx], rfl, rfl, rfl, rfl, rfl⟩, rfl,
    slotBits p l[0]? p.switchShift0, slotBits p l[1]? p.switchShift1, switchByte_eq_slotBits p l, ?_⟩,
    fun fam => ⟨rfl, rfl, rfl, rfl⟩⟩
  intro d shift b hd
  have hb : b = slotBits p l[d]? shift := by
    rcases hd with ⟨rfl, rfl, hb⟩ | ⟨rfl, rfl, hb⟩ <;> exact hb
  subst hb
  refine ⟨slotBits_of_absent, fun x hx hpresent => ?_⟩
  rw [hx]
  exact ⟨fun _ _ _ ht hr hpre => slotBits_of_row hpresent ht hr hpre shift,
    fun ht => slotBits_of_no_row hpresent ht shift⟩

end Sys2Proof.Machine
end

section
/-! Which instructions leave every image as it is: the sub-steps of the handlers but the two that store, then the
handlers made of them (10_state.md R56, 43_transfer_engine.md R232). -/

namespace Sys2Proof.Machine

/-- The images of all slots. -/
def State.images (s : State) : List Memory := s.drives.map Drive.image

theorem imageByte_of_images {s t : State} (h : t.images = s.images) (d k : Nat) :
    State.imageByte d k t = State.imageByte d k s := by
  have hd : t.drives[d]?.map Drive.image = s.drives[d]?.map Drive.image := by
    simpa [State.images] using congrArg (·[d]?) h
  unfold State.imageByte
  cases hs : s.drives[d]? <;> cases ht : t.drives[d]? <;> simp_all

theorem images_of_drives {s t : State} (h : t.drives = s.drives) : t.images = s.images :=
  congrArg (List.map Drive.image) h

/-! ## The sub-steps -/

theorem images_complete (s : State) : s.complete.images = s.images := images_of_drives (complete_drives s)

theorem images_fail (e : ErrorName) (s : State) : (s.fail e).images = s.images := images_of_drives (fail_drives e s)

theorem images_enterSend (n : Nat) (s : State) : (s.enterSend n).images = s.images := rfl

theorem images_enterDone (d : Delay) (s : State) : (s.enterDone d).images = s.images := rfl

theorem images_failed (e : ErrorName) (s : State) : (s.failed e).images = s.images := by
  rw [← fail_eq_failed, images_fail]

/-- A change of a drive that spares its image. -/
theorem images_onDrive (d : Nat) {g : Drive → Drive} (hg : ∀ dr, (g dr).image = dr.image) (s : State) :
    (s.onDrive d g).images = s.images := by
  apply List.ext_getElem?
  intro k
  simp only [State.images, List.getElem?_map, getElem?_onDrive]
  cases s.drives[k]? with
  | none => rfl
  | some dr => by_cases hk : d = k <;> simp [hk, hg]

theorem images_seeked (d : Nat) (c : BitVec 16) (s : State) : (s.seeked d c).images = s.images :=
  images_onDrive d (g := fun dr => { dr with currentCylinder := c }) (fun _ => rfl) s

theorem images_nextSector (d : Nat) (s : State) : (s.nextSector d).images = s.images := by
  cases h : s.drives[d]? with
  | none => simp only [State.nextSector, h]
  | some dr => rw [nextSector_of_slot h, images_seeked]; rfl

/-- Where a sub-step leaves off, whether it goes on or has ended the handler. -/
def ending (r : Except State State) : State := andThen r id

theorem images_andThen {g : State → State} (hg : ∀ u, (g u).images = u.images) (r : Except State State) :
    (andThen r g).images = (ending r).images := by
  cases r with
  | ok u => exact hg u
  | error t => rfl

theorem images_requireDrive (s : State) : (ending s.requireDrive).images = s.images := by
  rcases requireDrive_cases s with ⟨_, e⟩ | ⟨_, _, e⟩ <;> rw [e]
  · exact images_failed .notReady s
  · rfl

theorem images_setupAddress (e : ErrorName) (f : Cdb) (s : State) :
    (ending (s.setupAddress e f)).images = s.images := by
  rcases setupAddress_cases e f s with ⟨_, h⟩ | ⟨_, _, ⟨_, h⟩ | ⟨_, h⟩⟩ <;> rw [h]
  · exact images_failed .notReady s
  · exact images_seeked _ _ (s.addressed f)
  · exact (images_failed e _).trans (images_seeked _ _ (s.addressed f))

theorem images_locate (h sct : Byte) (s : State) : (ending (s.locate h sct)).images = s.images := by
  rcases locate_cases h sct s with ⟨_, _, _, _, _, e⟩ | ⟨e, _⟩ | ⟨e, _⟩ <;> rw [e]
  · rfl
  · exact images_failed _ s
  · exact images_failed _ s

theorem images_openSector (f : Cdb) (s : State) : (ending (s.openSector f)).images = s.images := by
  have hsetup := images_setupAddress .illegalAddress f s
  unfold State.openSector
  cases hr : s.setupAddress .illegalAddress f with
  | error t => rw [hr] at hsetup; exact hsetup
  | ok u => rw [hr] at hsetup; exact (images_locate _ _ u).trans hsetup

theorem images_sectorAdvance (s : State) : (ending s.sectorAdvance).images = s.images := by
  unfold State.sectorAdvance
  by_cases h0 : s.countDown.addr.count = 0
  · simp only [h0, ↓reduceIte]
    exact images_complete s.countDown
  · simp only [h0, ↓reduceIte]
    exact (images_locate _ _ _).trans (images_nextSector _ s.countDown)

theorem images_imageToBuffer (d lba : Nat) (s : State) : (ending (s.imageToBuffer d lba)).images = s.images := by
  rcases imageToBuffer_cases d lba s with ⟨_, _, e, _⟩ | ⟨_, e⟩ <;> rw [e] <;> rfl

theorem images_sendBlock (s : State) : (sendBlock s).images = s.images :=
  (images_andThen (images_enterSend 512) _).trans (images_imageToBuffer _ _ s)

theorem images_sendLongBlock (s : State) : (sendLongBlock s).images = s.images :=
  (images_andThen (g := fun t => t.fillEcc.enterSend 516) (fun _ => rfl) _).trans (images_imageToBuffer _ _ s)

theorem images_verifyLoop (n : Nat) (s : State) : (verifyLoop n s).images = s.images := by
  induction n generalizing s with
  | zero => exact images_complete s
  | succ n ih =>
    have hlocate := images_locate s.addr.head s.addr.sector s
    unfold verifyLoop
    cases hr : s.locate s.addr.head s.addr.sector with
    | error t => rw [hr] at hlocate; exact hlocate
    | ok u =>
      rw [hr] at hlocate
      have hnext : (u.nextSector u.d).countDown.images = s.images := (images_nextSector u.d u).trans hlocate
      dsimp only
      split
      · exact (images_complete _).trans hnext
      · exact (ih _).trans hnext

theorem images_configure (g : Geometry → Geometry) (s : State) : (s.configure g).images = s.images := by
  unfold State.configure
  split
  · exact (images_complete _).trans (images_onDrive s.d (g := fun dr => { dr with cfg := g dr.cfg }) (fun _ => rfl) s)
  · exact images_fail _ s

theorem images_specifyReceived (s : State) : (specifyReceived s).images = s.images := images_configure _ s

theorem images_getGeomStart (fam : Family) (s : State) : (getGeomStart fam s).images = s.images := by
  unfold getGeomStart
  split
  · rfl
  · exact images_fail _ s

/-! ## The handlers -/

theorem images_of_next {i : Instr} {s t u : State} (h : exec i s = .next t) (hu : exec i s = .next u)
    (himages : u.images = s.images) : t.images = s.images := by
  cases hu.symm.trans h
  exact himages

/-- A StartCommand handler leaves the images as they are, but for the FORMAT commands. -/
theorem images_start {i : Instr} {f : Cdb} (hf : i.fields? = some f) (hi : storesToImage i = false) {s t : State}
    (hp : s.phase = .startCommand) (h : exec i s = .next t) : t.images = s.images := by
  cases i <;> simp only [Instr.fields?, reduceCtorEq, Option.some.injEq] at hf <;>
    cases hi <;> subst hf <;> refine images_of_next h (scheduledStep_start hp) ?_
  case testReady =>
    show (testReadyStart _).images = _
    unfold testReadyStart
    split
    · exact images_complete _
    · exact images_fail .notReady _
  case recalibrate => exact (images_andThen (images_enterDone .recal) _).trans (images_requireDrive _)
  case seek => exact (images_andThen images_complete _).trans (images_setupAddress ..)
  case verify => exact (images_andThen (images_verifyLoop 256) _).trans (images_setupAddress ..)
  case read => exact (images_andThen images_sendBlock _).trans (images_openSector ..)
  case readLong => exact (images_andThen images_sendLongBlock _).trans (images_openSector ..)
  case dtcGetGeom | st11GetGeom => exact images_getGeomStart _ _
  case ramDiag | driveDiag | ctrlDiag => exact images_complete _
  case wrongDtcGetGeom | wrongDtcSetGeom | wrongSt11GetGeom | wrongSt11SetGeom | unknown => exact images_fail _ _
  case sense | specify | readBuffer | writeBuffer | dtcSetGeom | st11SetGeom => rfl

/-- No SentData handler stores to an image. -/
theorem images_sent {i : Instr} {f : Cdb} (hf : i.fields? = some f) (hl : (sendLength i).isSome) {s t : State}
    (hp : s.phase = .sentData) (h : exec i s = .next t) : t.images = s.images := by
  cases i <;> simp only [Instr.fields?, reduceCtorEq, Option.some.injEq] at hf <;>
    cases hl <;> subst hf <;> refine images_of_next h (scheduledStep_sent hp) ?_
  case read => exact (images_andThen images_sendBlock _).trans (images_sectorAdvance _)
  case readLong => exact (images_andThen images_sendLongBlock _).trans (images_sectorAdvance _)
  case sense => exact images_complete _
  case readBuffer | dtcGetGeom | st11GetGeom => exact images_complete _

/-- A ReceivedData handler leaves the images as they are, but for those of WRITE and WRITE_LONG. -/
theorem images_received {i : Instr} {f : Cdb} (hf : i.fields? = some f) (hi : storesToImage i = false)
    (hl : (receiveLength i).isSome) {s t : State} (hp : s.phase = .receivedData) (h : exec i s = .next t) :
    t.images = s.images := by
  cases i <;> simp only [Instr.fields?, reduceCtorEq, Option.some.injEq] at hf <;>
    cases hi <;> cases hl <;> subst hf <;> refine images_of_next h (scheduledStep_received hp) ?_
  case specify => exact images_specifyReceived _
  case dtcSetGeom | st11SetGeom => exact images_configure _ _
  case writeBuffer => exact images_complete _

/-- No Done handler stores to an image. -/
theorem images_done {i : Instr} {f : Cdb} (hf : i.fields? = some f) (hl : hasDone i = true) {s t : State}
    (hp : s.phase = .done) (h : exec i s = .next t) : t.images = s.images := by
  cases i <;> simp only [Instr.fields?, reduceCtorEq, Option.some.injEq] at hf <;>
    cases hl <;> subst hf <;> refine images_of_next h (scheduledStep_done hp) ?_
  case recalibrate => exact (images_complete _).trans (images_seeked _ _ _)
  case formatTrack | formatBadTrack | formatDrive => exact images_complete _

/-- Settles O51: outside the handlers no drive is touched, and the handlers named here store to no image. -/
theorem onlyStoresAndFormatsChangeImages : Obligations.OnlyStoresAndFormatsChangeImages := by
  unfold Obligations.OnlyStoresAndFormatsChangeImages
  intro i s t h hspared
  refine imageByte_of_images ?_
  cases hf : i.fields? with
  | none => rw [exec_port_frame hf h]; rfl
  | some f =>
    cases commandStep_of_exec hf h with
    | notDue | noHandler => rfl
    | dmaSend _ _ ht => rw [dmaSend_frame ht]; rfl
    | dmaReceive _ _ ht => rw [dmaReceive_frame ht]; rfl
    | handler hp _ =>
      rcases hp with hp | ⟨hp, hl⟩ | ⟨hp, hl⟩ | ⟨hp, hl⟩
      · exact images_start hf (hspared.resolve_right fun hn => hn.1 hp) hp h
      · exact images_sent hf hl hp h
      · exact images_received hf (hspared.resolve_right fun hn => hn.2 hp) hl hp h
      · exact images_done hf hl hp h

end Sys2Proof.Machine
end

section
/-! Within the physical geometry no call of the image collaborator leaves its contract (20_memory.md R83,
70_reset_and_hazards.md R340). -/

namespace Sys2Proof.Machine

theorem completed_fault (s : State) : s.completed.fault = s.fault := by
  rw [← complete_eq_completed, complete_fault]

theorem Worked.fault {s u : State} (w : Worked s u) : u.fault = s.fault := by rw [w.rest]

/-- A handler works on drives of the geometries it found. -/
theorem Worked.fits {s u : State} (w : Worked s u) (h : s.fits) : u.fits := by
  have hgeometries : ∀ x ∈ s.drives.map (fun d => (d.present, d.phys, d.cfg)), x.2.2.blocks ≤ x.2.1.blocks :=
    List.forall_mem_map.mpr h
  rw [← w.fixed] at hgeometries
  exact List.forall_mem_map.mp hgeometries

/-- The blocks a present drive is configured with are in its image. -/
theorem imageHas_of_fits {s : State} (h : s.fits) {d lba n : Nat} {dr : Drive} (hd : s.hasDrive d dr)
    (hb : lba + n ≤ dr.cfg.blocks) : s.imageHas d lba n = true :=
  (imageHas_iff d lba n s).mpr ⟨dr, hd, hb.trans (h dr (List.mem_of_getElem? hd.1))⟩

/-- No handler ends in the mark: its call stays inside the configured disk, and the sector being written is the target
of the data phase (42_chs_translator.md R201, R203, R206). -/
theorem Ended.fault {s t : State} (h : s.Stepping) (hp : s.phase.handled) (hfits : s.fits)
    (he : Ended s.current s t) : t.fault = s.fault := by
  cases he with
  | complete u w => exact (completed_fault u).trans w.fault
  | cleared | configure => exact completed_fault _
  | fail e u _ w => exact (completed_fault _).trans w.fault
  | send _ _ _ w | receive _ _ _ w | wait _ _ _ w => exact w.fault
  | mark u w lba n hm hin =>
    have hhas : u.imageHas u.d lba n = true := by
      rcases hin (h.begins hp) with ⟨dr, hdr, hb⟩ | ⟨rfl, hmoves, hreceived, rfl, rfl⟩
      · exact imageHas_of_fits (w.fits hfits) hdr hb
      · obtain ⟨dr, hdr, _, hlba⟩ := h.due.target (by simp [hreceived, Phase.moving]) hmoves
        exact imageHas_of_fits hfits hdr hlba
    exact nomatch hm.symm.trans hhas

/-- Firing a pending step sets no mark. -/
theorem fault_fired {s t : State} (h : s.Inv) (hp : s.pending.isSome = true) (hfits : s.fits)
    (he : exec s.current { s with pending := none } = .next t) : t.fault = s.fault := by
  cases commandStep_of_exec (fields_current s) he with
  | notDue | noHandler => rfl
  | dmaSend _ _ ht => rw [dmaSend_frame ht]; rfl
  | dmaReceive _ _ ht => rw [dmaReceive_frame ht]; rfl
  | handler hphase ht =>
    exact Ended.fault (s := State.begun _ { s with pending := none }) (h.stepping hp rfl)
      (hphase.imp_right (Or.imp And.left (Or.imp And.left And.left))) hfits ht

/-- Settles O58: of the actions of `step_cases` only a fired step calls the image collaborator, by the end of a
handler. -/
theorem noMarkWithinThePhysicalGeometry : Obligations.NoMarkWithinThePhysicalGeometry := by
  unfold Obligations.NoMarkWithinThePhysicalGeometry
  intro s t h hfits hstep
  obtain ⟨hfault, _, hcases⟩ := step_cases hstep
  rcases hcases with ⟨_, _, _, rfl⟩ | ⟨_, _, hp, he⟩ | ⟨_, _, _, _, _, hi, he⟩ | ⟨_, dma, rest, _, hp, he⟩ |
    ⟨_, _, _, _, _, rfl⟩ | ⟨_, _, _, rfl⟩ | ⟨_, _, rfl⟩ | ⟨_, _, _, rfl⟩
  · exact hfault
  · exact (fault_fired (s := s.drawDma) { h with } hp hfits he).trans hfault
  · rw [exec_port_frame (fields_decodeAccess hi) he]; exact hfault
  · exact (fault_fired (s := { s with turns := rest, dma := dma }) { h with } hp hfits he).trans hfault
  · exact hfault
  · exact hfault
  · exact hfault
  · rfl

end Sys2Proof.Machine
end

section
/-! Which turn the machine takes and where it stops (20_memory.md R84, R91; 60_exceptions.md R303): the equations of
`step` for a state without the mark and with a legal configuration. -/

namespace Sys2Proof.Machine

/-- The machine runs: no mark is set and the configuration is legal (20_memory.md R83, 00_scope.md R10). -/
structure State.Runs (s : State) : Prop where
  fault : s.fault = false
  config : s.configOk = true

theorem step_of_fault {s : State} (h : s.fault = true) : step s = .fault .imageContract := by
  simp [step, fetch, h]

theorem step_of_badConfig {s : State} (hf : s.fault = false) (hc : s.configOk = false) :
    step s = .refused .configuration := by
  simp [step, fetch, hf, hc]

theorem fetch_attached {s : State} (h : s.Runs) (ha : s.attached = true) : fetch s = fetchAttached s := by
  simp [fetch, h.fault, h.config, ha]

theorem fetch_detached {s : State} (h : s.Runs) (ha : s.attached = false) : fetch s = fetchDetached s := by
  simp [fetch, h.fault, h.config, ha]

/-! ## The turns of an attached controller -/

section
variable {s : State} (h : s.Runs) (ha : s.attached = true)
include h ha

theorem step_silent (ht : s.turns = []) (hp : s.pending = none) : step s = .next s := by
  simp [step, fetch_attached h ha, fetchAttached, ht, hp]

theorem step_silent_fires (ht : s.turns = []) (hp : s.pending.isSome = true) :
    step s = exec s.current { s.drawDma with pending := none } := by
  obtain ⟨d, hd⟩ := Option.isSome_iff_exists.mp hp
  simp [step, fetch_attached h ha, fetchAttached, ht, hd, runPending, State.current]

theorem step_host {a : Access} {rest : List Turn} {i : Instr} (ht : s.turns = .host a :: rest)
    (hi : decodeAccess a = .ok i) : step s = exec i { s with turns := rest } := by
  simp [step, fetch_attached h ha, fetchAttached, ht, hi]

theorem step_host_refused {a : Access} {rest : List Turn} {e : DecodeError} (ht : s.turns = .host a :: rest)
    (he : decodeAccess a = .error e) : step s = .refused .accessWidth := by
  simp [step, fetch_attached h ha, fetchAttached, ht, he]

theorem step_fire {dma : DmaAnswer} {rest : List Turn} (ht : s.turns = .fire dma :: rest)
    (hp : s.pending.isSome = true) :
    step s = exec s.current { s with turns := rest, dma := dma, pending := none } := by
  obtain ⟨d, hd⟩ := Option.isSome_iff_exists.mp hp
  simp [step, fetch_attached h ha, fetchAttached, ht, hd, runPending, State.current]

theorem step_fire_notDue {dma : DmaAnswer} {rest : List Turn} (ht : s.turns = .fire dma :: rest)
    (hp : s.pending = none) : step s = .next { s with turns := rest } := by
  simp [step, fetch_attached h ha, fetchAttached, ht, hp]

theorem step_detach {rest : List Turn} (ht : s.turns = .detach :: rest) :
    step s = .next { s with turns := rest, attached := false, pending := none } := by
  simp [step, fetch_attached h ha, fetchAttached, ht, State.detach]

theorem step_attach_refused {rest : List Turn} (ht : s.turns = .attach :: rest) :
    step s = .refused .attachedTwice := by
  simp [step, fetch_attached h ha, fetchAttached, ht]

end

/-! ## The turns after detach -/

section
variable {s : State} (h : s.Runs) (ha : s.attached = false)
include h ha

theorem step_detached_silent (ht : s.turns = []) : step s = .next s := by
  simp [step, fetch_detached h ha, fetchDetached, ht]

theorem step_reattach {rest : List Turn} (ht : s.turns = .attach :: rest) :
    step s = .next { s.reattach with turns := rest } := by
  simp [step, fetch_detached h ha, fetchDetached, ht]

theorem step_detached_refused {u : Turn} {rest : List Turn} (ht : s.turns = u :: rest) (hu : u ≠ .attach) :
    step s = .refused .detached := by
  cases u with
  | attach => exact absurd rfl hu
  | host | fire | detach => simp [step, fetch_detached h ha, fetchDetached, ht]

end

/-! ## Where the machine stops -/

theorem decodeAccess_of_width_ne {a : Access} (h : a.width ≠ 8) : decodeAccess a = .error .accessWidth := by
  simp [decodeAccess, h]

theorem decodeAccess_of_width {a : Access} (h : a.width = 8) : ∃ i, decodeAccess a = .ok i := by
  unfold decodeAccess
  rw [if_pos h]
  split <;> exact ⟨_, rfl⟩

/-- Both positions of a state that meets the invariant lie inside their buffers, so every instruction answers at a state
with these positions, this phase and these parameters (log 13). -/
theorem State.Inv.exec_answers {s : State} (h : s.Inv) (i : Instr) (u : State) (hphase : u.phase = s.phase)
    (hcommand : u.commandPos = s.commandPos) (hbuf : u.bufPos = s.bufPos) (hparams : u.params = s.params) :
    ∃ t, exec i u = .next t :=
  exec_next i u (fun hp => hcommand ▸ h.commandPos.2 (hphase ▸ hp))
    (fun hp => by rw [hbuf, hparams]; exact (h.byteLeft (hphase ▸ hp)).2)

/-- Settles O5: `step_host`. -/
theorem hostTurnRunsTheAccess : Obligations.HostTurnRunsTheAccess := by
  unfold Obligations.HostTurnRunsTheAccess
  exact fun s a rest i hf hc ha ht hi => step_host ⟨hf, hc⟩ ha ht hi

/-- Settles O9: the turns `step_detach` and `step_reattach`, whose buffer is written from an empty memory. -/
theorem detachDropsThePendingStep : Obligations.DetachDropsThePendingStep := by
  unfold Obligations.DetachDropsThePendingStep
  refine ⟨fun s rest hf hc ha ht => step_detach ⟨hf, hc⟩ ha ht, fun s rest hf hc ha ht => ?_⟩
  have hwf : Memory.wf [] := ⟨.nil, nofun⟩
  have hbelow : Memory.below [] s.params.bufSize := nofun
  exact ⟨_, _, Memory.wf_writeBytes hwf _ _, Memory.below_writeBytes hbelow (by simp),
    step_reattach ⟨hf, hc⟩ ha ht⟩

/-- An attached controller that meets the invariant answers every turn but an access of another width and an attach
(40_register_interface.md R140, 41_state_machine.md R187). -/
theorem State.Inv.step_answers {s : State} (h : s.Inv) (hf : s.fault = false) (ha : s.attached = true)
    (hturn : s.turns = [] ∨ (∃ a rest, s.turns = .host a :: rest ∧ a.width = 8) ∨
      (∃ dma rest, s.turns = .fire dma :: rest) ∨ ∃ rest, s.turns = .detach :: rest) :
    ∃ t, step s = .next t := by
  have hr : s.Runs := ⟨hf, h.config⟩
  rcases hturn with ht | ⟨a, rest, ht, hwidth⟩ | ⟨dma, rest, ht⟩ | ⟨rest, ht⟩
  · cases hp : s.pending with
    | none => exact ⟨s, step_silent hr ha ht hp⟩
    | some d =>
      rw [step_silent_fires hr ha ht (by simp [hp])]
      exact h.exec_answers _ _ rfl rfl rfl rfl
  · obtain ⟨i, hi⟩ := decodeAccess_of_width hwidth
    rw [step_host hr ha ht hi]
    exact h.exec_answers _ _ rfl rfl rfl rfl
  · cases hp : s.pending with
    | none => exact ⟨_, step_fire_notDue hr ha ht hp⟩
    | some d =>
      rw [step_fire hr ha ht (by simp [hp])]
      exact h.exec_answers _ _ rfl rfl rfl rfl
  · exact ⟨_, step_detach hr ha ht⟩

/-- Settles O8: the stops are the equations of `step` above, and `State.Inv.step_answers` says there is no other. -/
theorem stopsAreNamed : Obligations.StopsAreNamed := by
  unfold Obligations.StopsAreNamed
  refine ⟨fun s => step_of_fault, fun s => step_of_badConfig,
    fun s a rest hf hc ha ht hw => step_host_refused ⟨hf, hc⟩ ha ht (decodeAccess_of_width_ne hw),
    fun s a rest hf hc ha ht => step_detached_refused ⟨hf, hc⟩ ha ht nofun,
    fun s u rest hf hc ha ht hu => step_detached_refused ⟨hf, hc⟩ ha ht ?_,
    fun s rest hf hc ha ht => step_attach_refused ⟨hf, hc⟩ ha ht,
    fun s h hf ha => h.step_answers hf ha, fun s hf hc ha hturn => ?_⟩
  · rcases hu with ⟨_, rfl⟩ | rfl <;> nofun
  · rcases hturn with ht | ⟨rest, ht⟩
    · exact ⟨s, step_detached_silent ⟨hf, hc⟩ ha ht⟩
    · exact ⟨_, step_reattach ⟨hf, hc⟩ ha ht⟩

end Sys2Proof.Machine
end

section
/-! An access past the image, from the call of the image collaborator up to the handlers that make it (20_memory.md
R83). -/

namespace Sys2Proof.Machine

/-! ## The calls of the image collaborator -/

theorem imageHas_of_past {s : State} {d lba n : Nat} {dr : Drive} (hd : s.hasDrive d dr)
    (hpast : dr.phys.blocks < lba + n) : s.imageHas d lba n = false := by
  refine Bool.eq_false_iff.mpr fun h => ?_
  obtain ⟨dr', hd', hb⟩ := (imageHas_iff d lba n s).mp h
  obtain rfl := hasDrive_unique hd hd'
  omega

theorem sendBlock_outside (s : State) (h : s.imageHas s.d s.addr.lba.toNat 1 = false) :
    sendBlock s = s.markFault := by
  simp [sendBlock, State.imageToBuffer, h, andThen]

theorem sendLongBlock_outside (s : State) (h : s.imageHas s.d s.addr.lba.toNat 1 = false) :
    sendLongBlock s = s.markFault := by
  simp [sendLongBlock, State.imageToBuffer, h, andThen]

theorem storeBlock_outside (n : Nat) (s : State) (h : s.imageHas s.d s.addr.lba.toNat 1 = false) :
    storeBlock n s = s.markFault := by
  simp [storeBlock, State.bufferToImage, h, andThen]

theorem zeroFrom_outside {n : Nat} (hn : n ≠ 0) (s : State) (h : s.imageHas s.d s.addr.lba.toNat n = false) :
    zeroFrom n s = s.markFault := by
  simp [zeroFrom, State.imageZero, hn, h, andThen]

/-! ## The address of the call -/

/-- Where a handler stands when it calls for block `lba`, addressed by `a` on drive `d`. -/
def State.atBlock (d : Nat) (a : Address) (lba : Nat) (s : State) : State :=
  { s.seeked d a.cyl with addr := { a with lba := BitVec.ofNat 32 lba } }

theorem toNat_atBlock_lba {g : Geometry} {lba : Nat} (h : lba < g.blocks) (d : Nat) (a : Address) (s : State) :
    (s.atBlock d a lba).addr.lba.toNat = lba :=
  Nat.mod_eq_of_lt (h.trans (blocks_lt g))

/-- A call that starts inside the configured disk and runs past the image. -/
theorem imageHas_atBlock {s : State} {d lba n : Nat} {dr : Drive} (hd : s.hasDrive d dr)
    (hlba : lba < dr.cfg.blocks) (hpast : dr.phys.blocks < lba + n) (a : Address) :
    State.imageHas d (s.atBlock d a lba).addr.lba.toNat n (s.atBlock d a lba) = false := by
  rw [toNat_atBlock_lba hlba]
  exact imageHas_of_past (s := s.atBlock d a lba) (hasDrive_seeked (c := a.cyl) hd) hpast

/-- What is left of a handler that opens a valid sector past the image is its call. -/
theorem openSector_then_past {g : State → State}
    (hg : ∀ u : State, u.imageHas u.d u.addr.lba.toNat 1 = false → g u = u.markFault) {f : Cdb} {s : State}
    {dr : Drive} (hd : s.hasDrive s.d dr) (hc : (s.addressed f).addr.cyl.toNat < dr.cfg.cylinders.toNat)
    (hh : (s.addressed f).addr.head.toNat < dr.cfg.heads.toNat)
    (hs : (s.addressed f).addr.sector.toNat < dr.cfg.spt.toNat) :
    let a := (s.addressed f).addr
    let lba := dr.cfg.lba a.cyl.toNat a.head.toNat a.sector.toNat
    dr.phys.blocks ≤ lba → andThen (s.openSector f) g = ((s.addressed f).atBlock s.d a lba).markFault := by
  intro a lba hpast
  rw [openSector_valid hd hc hh hs]
  exact hg _ (imageHas_atBlock (s := s.addressed f) hd (lba_lt_blocks hc hh hs) (Nat.lt_succ_of_le hpast) a)

/-- Everything `sectorAdvance` does when a valid sector is next (44_commands.md R276, R277). -/
theorem sectorAdvance_valid {s : State} {dr : Drive} (hd : s.hasDrive s.d dr) (hcount : s.addr.count ≠ 1)
    (hh : (advance dr.cfg s.countDown.addr).head.toNat < dr.cfg.heads.toNat)
    (hs : (advance dr.cfg s.countDown.addr).sector.toNat < dr.cfg.spt.toNat) :
    let a := advance dr.cfg s.countDown.addr
    s.sectorAdvance = .ok (s.atBlock s.d a (dr.cfg.lba a.cyl.toNat a.head.toNat a.sector.toNat)) := by
  intro a
  have hmore : s.countDown.addr.count ≠ 0 := fun h => hcount (sub_eq_zero.mp h)
  unfold State.sectorAdvance
  rw [if_neg hmore, nextSector_of_slot (d := s.countDown.d) (s := s.countDown) hd.1]
  exact locate_valid (s := State.seeked s.d a.cyl { s with addr := a }) (dr := { dr with currentCylinder := a.cyl })
    (hasDrive_seeked (s := { s with addr := a }) hd) rfl hh hs

/-- What is left of a handler whose valid next sector is past the image is its call. -/
theorem sectorAdvance_then_past {g : State → State}
    (hg : ∀ u : State, u.imageHas u.d u.addr.lba.toNat 1 = false → g u = u.markFault) {s : State} {dr : Drive}
    (hd : s.hasDrive s.d dr) (hcount : s.addr.count ≠ 1)
    (hc : (advance dr.cfg s.countDown.addr).cyl.toNat < dr.cfg.cylinders.toNat)
    (hh : (advance dr.cfg s.countDown.addr).head.toNat < dr.cfg.heads.toNat)
    (hs : (advance dr.cfg s.countDown.addr).sector.toNat < dr.cfg.spt.toNat) :
    let a := advance dr.cfg s.countDown.addr
    let lba := dr.cfg.lba a.cyl.toNat a.head.toNat a.sector.toNat
    dr.phys.blocks ≤ lba → andThen s.sectorAdvance g = (s.atBlock s.d a lba).markFault := by
  intro a lba hpast
  rw [sectorAdvance_valid hd hcount hh hs]
  exact hg _ (imageHas_atBlock hd (lba_lt_blocks hc hh hs) (Nat.lt_succ_of_le hpast) a)

theorem cfgOf_atBlock {s : State} {d : Nat} {dr : Drive} (hd : s.hasDrive d dr) (a : Address) (lba : Nat) :
    State.cfgOf d (s.atBlock d a lba) = dr.cfg := by
  have hslot : (s.atBlock d a lba).drives[d]? = some _ := (hasDrive_seeked (c := a.cyl) hd).1
  simp only [State.cfgOf, hslot]

section
variable {f : Cdb} {s : State} {dr : Drive} (hd : s.hasDrive s.d dr)
  (hc : (s.addressed f).addr.cyl.toNat < dr.cfg.cylinders.toNat)
  (hh : (s.addressed f).addr.head.toNat < dr.cfg.heads.toNat) (hs : 0 < dr.cfg.spt.toNat)
include hd hc hh hs

/-- What is left of a handler that zeroes `n` blocks from a valid track on, past the image, is its call. -/
theorem openTrack_then_past {k : State → Nat} {n : Nat} :
    let a := (s.addressed f).addr
    let lba := dr.cfg.lba a.cyl.toNat a.head.toNat 0
    let u := (s.addressed f).atBlock s.d a lba
    k u = n → n ≠ 0 → dr.phys.blocks < lba + n →
    andThen (s.openTrack f) (fun t => zeroFrom (k t) t) = u.markFault := by
  intro a lba u hk hn hpast
  rw [openTrack_valid hd hc hh hs]
  show zeroFrom (k u) u = u.markFault
  rw [hk]
  exact zeroFrom_outside hn u (imageHas_atBlock (s := s.addressed f) hd (lba_lt_blocks hc hh hs) hpast a)

theorem formatTrackStart_past :
    let a := (s.addressed f).addr
    let lba := dr.cfg.lba a.cyl.toNat a.head.toNat 0
    dr.phys.blocks < lba + dr.cfg.spt.toNat →
    formatTrackStart f s = ((s.addressed f).atBlock s.d a lba).markFault := by
  intro a lba hpast
  exact openTrack_then_past hd hc hh hs (congrArg (·.spt.toNat) (cfgOf_atBlock (s := s.addressed f) hd a lba))
    hs.ne' hpast

theorem formatDriveStart_past :
    let a := (s.addressed f).addr
    let lba := dr.cfg.lba a.cyl.toNat a.head.toNat 0
    dr.phys.blocks < lba + (dr.cfg.blocks - lba) →
    formatDriveStart f s = ((s.addressed f).atBlock s.d a lba).markFault := by
  intro a lba hpast
  have hlba : lba < dr.cfg.blocks := lba_lt_blocks hc hh hs
  exact openTrack_then_past hd hc hh hs
    (congrArg₂ (·.blocks - ·) (cfgOf_atBlock (s := s.addressed f) hd a lba) (toNat_atBlock_lba hlba s.d a _))
    (Nat.sub_ne_zero_of_lt hlba) hpast

end

/-! ## The handlers -/

/-- Settles O29: each handler comes down to its call by `openSector_then_past`, `sectorAdvance_then_past` or
`openTrack_then_past`; the handler that stores a sector begins with it. -/
theorem accessPastTheImageSetsTheMark : Obligations.AccessPastTheImageSetsTheMark := by
  unfold Obligations.AccessPastTheImageSetsTheMark
  refine ⟨?_, ?_, ?_, ?_⟩
  · rintro i f s dr (rfl | rfl) hp hd a lba hc hh hs hpast <;>
      refine (scheduledStep_start hp).trans (congrArg _ ?_)
    · exact openSector_then_past sendBlock_outside (s := s.begun f) hd hc hh hs hpast
    · exact openSector_then_past sendLongBlock_outside (s := s.begun f) hd hc hh hs hpast
  · rintro i f s dr (rfl | rfl) hp hd a lba hcount hh hs hc hpast <;>
      refine (scheduledStep_sent hp).trans (congrArg _ ?_)
    · exact sectorAdvance_then_past sendBlock_outside (s := s.begun f) hd hcount hc hh hs hpast
    · exact sectorAdvance_then_past sendLongBlock_outside (s := s.begun f) hd hcount hc hh hs hpast
  · rintro i f s dr (rfl | rfl) hp hd hpast <;>
      refine (scheduledStep_received hp).trans (congrArg _ ?_)
    · exact storeBlock_outside 512 (s.begun f) (imageHas_of_past hd (Nat.lt_succ_of_le hpast))
    · exact storeBlock_outside 516 (s.begun f) (imageHas_of_past hd (Nat.lt_succ_of_le hpast))
  · rintro i f s dr (rfl | rfl | rfl) hp hd a lba n hc hh hs hpast <;>
      refine (scheduledStep_start hp).trans (congrArg _ ?_)
    · have hn : n = dr.cfg.spt.toNat := if_neg nofun
      exact formatTrackStart_past (s := s.begun f) hd hc hh hs (hn ▸ hpast)
    · have hn : n = dr.cfg.spt.toNat := if_neg nofun
      exact formatTrackStart_past (s := s.begun f) hd hc hh hs (hn ▸ hpast)
    · have hn : n = dr.cfg.blocks - lba := if_pos rfl
      exact formatDriveStart_past (s := s.begun f) hd hc hh hs (hn ▸ hpast)

end Sys2Proof.Machine
end

section
/-! The decoder and the encoder (30_encoding.md R100, R101, R108, R109): a command is a class of its opcode with the
fields of its block, a port access an offset with a direction. -/

namespace Sys2Proof

/-! ## The class of an opcode (30_encoding.md R109) -/

theorem Cmd.mem_all (c : Cmd) : c ∈ Cmd.all := by
  cases c with
  | vendor v => cases v <;> decide
  | _ => decide

theorem Vendor.mem_all (v : Vendor) : v ∈ Vendor.all := by cases v <;> decide

/-- The class `k` is right for the opcode `op`, as 30_encoding.md R109 says it: a row of this family, a family-gated row
of another one, or no row. -/
def OpClass.Fits (p : Params) (op : Byte) : OpClass → Prop
  | .command c => p.opcodes.of c = op ∧ c.inFamily p.family = true
  | .wrongFamily v => p.opcodes.of (.vendor v) = op ∧ v.family ≠ p.family
  | .unknown => p.listed op = false

theorem listed_of (p : Params) (c : Cmd) : p.listed (p.opcodes.of c) = true :=
  List.any_eq_true.mpr ⟨c, c.mem_all, beq_self_eq_true _⟩

theorem opClass_fits (p : Params) (op : Byte) : (opClass p op).Fits p op := by
  unfold opClass
  cases hc : Cmd.all.find? (fun c => p.opcodes.of c == op && c.inFamily p.family) with
  | some c => simpa [OpClass.Fits] using List.find?_some hc
  | none =>
    have hrow (c : Cmd) (ho : p.opcodes.of c = op) : c.inFamily p.family = false := by
      simpa [ho] using List.find?_eq_none.mp hc c c.mem_all
    cases hv : Vendor.all.find? (fun v => p.opcodes.of (.vendor v) == op) with
    | some v =>
      have ho : p.opcodes.of (.vendor v) = op := by simpa using List.find?_some hv
      exact ⟨ho, by simpa [Cmd.inFamily] using hrow _ ho⟩
    | none =>
      refine List.any_eq_false.mpr fun c _ ho => ?_
      have ho : p.opcodes.of c = op := by simpa using ho
      cases c with
      | vendor v => simpa [ho] using List.find?_eq_none.mp hv v v.mem_all
      | _ => cases hrow _ ho

theorem Opcodes.of_injective {o : Opcodes} (h : o.distinct = true) {c c' : Cmd} (hc : o.of c = o.of c') : c = c' :=
  List.inj_on_of_nodup_map (of_decide_eq_true h) c.mem_all c'.mem_all hc

theorem not_fits_command_and_wrongFamily {p : Params} (hd : p.opcodes.distinct = true) {op : Byte} {c : Cmd}
    {v : Vendor} (h : (OpClass.command c).Fits p op) : ¬ (OpClass.wrongFamily v).Fits p op := by
  intro h'
  obtain rfl := Opcodes.of_injective hd (h.1.trans h'.1.symm)
  exact h'.2 (eq_of_beq h.2)

theorem OpClass.Fits.listed_iff {p : Params} {op : Byte} {k : OpClass} (h : k.Fits p op) :
    p.listed op = true ↔ k ≠ .unknown := by
  cases k with
  | command c => obtain ⟨rfl, -⟩ := h; simp [listed_of]
  | wrongFamily v => obtain ⟨rfl, -⟩ := h; simp [listed_of]
  | unknown => simpa [OpClass.Fits] using h

/-- An opcode has one class when no two rows share an opcode (log 17). -/
theorem OpClass.Fits.unique {p : Params} (hd : p.opcodes.distinct = true) {op : Byte} :
    ∀ {k k' : OpClass}, k.Fits p op → k'.Fits p op → k = k'
  | .command _, .command _, h, h' => congrArg _ (Opcodes.of_injective hd (h.1.trans h'.1.symm))
  | .wrongFamily _, .wrongFamily _, h, h' =>
    congrArg _ (Cmd.vendor.inj (Opcodes.of_injective hd (h.1.trans h'.1.symm)))
  | .command _, .wrongFamily _, h, h' => absurd h' (not_fits_command_and_wrongFamily hd h)
  | .wrongFamily _, .command _, h, h' => absurd h (not_fits_command_and_wrongFamily hd h')
  | .unknown, _, h, h' => (not_ne_iff.mp fun hk => h.listed_iff.mp (h'.listed_iff.mpr hk) rfl).symm
  | _, .unknown, h, h' => not_ne_iff.mp fun hk => h'.listed_iff.mp (h.listed_iff.mpr hk) rfl

/-! ## The command of a class -/

/-- The instruction of a class with its opcode and fields. -/
def OpClass.instr (op : Byte) (f : Cdb) : OpClass → Instr
  | .command c => c.instr f
  | .wrongFamily v => v.wrongInstr f
  | .unknown => .unknown op f

theorem decodeFields_eq (p : Params) (op : Byte) (f : Cdb) : decodeFields p op f = (opClass p op).instr op f := by
  unfold decodeFields
  cases opClass p op <;> rfl

theorem encode_cmd (p : Params) (f : Cdb) (c : Cmd) : encode p (c.instr f) = c.code p f := by
  cases c with
  | vendor v => cases v <;> rfl
  | _ => rfl

theorem wellFormed_cmd (p : Params) (f : Cdb) (c : Cmd) (h : c.inFamily p.family = true) :
    WellFormed p (c.instr f) = true := by
  cases c with
  | vendor v => cases v <;> exact BEq.comm.trans h
  | _ => rfl

theorem encode_wrong (p : Params) (f : Cdb) (v : Vendor) : encode p (v.wrongInstr f) = (Cmd.vendor v).code p f := by
  cases v <;> rfl

theorem wellFormed_wrong (p : Params) (f : Cdb) (v : Vendor) (h : v.family ≠ p.family) :
    WellFormed p (v.wrongInstr f) = true := by
  cases v <;> exact bne_iff_ne.mpr h.symm

theorem OpClass.Fits.encode_instr {p : Params} {op : Byte} {k : OpClass} (h : k.Fits p op) (f : Cdb) :
    encode p (k.instr op f) = .cdb (op :: f.toBytes) := by
  cases k with
  | command c => rw [← h.1]; exact encode_cmd p f c
  | wrongFamily v => rw [← h.1]; exact encode_wrong p f v
  | unknown => rfl

theorem OpClass.Fits.wellFormed_instr {p : Params} {op : Byte} {k : OpClass} (h : k.Fits p op) (f : Cdb) :
    WellFormed p (k.instr op f) = true := by
  cases k with
  | command c => exact wellFormed_cmd p f c h.2
  | wrongFamily v => exact wellFormed_wrong p f v h.2
  | unknown => exact Bool.not_eq_eq_eq_not.mpr h

/-- Every well-formed command is the instruction of a class that fits its opcode. -/
theorem WellFormed.exists_opClass {p : Params} : ∀ {i : Instr} {f : Cdb}, i.fields? = some f →
    WellFormed p i = true → ∃ (op : Byte) (k : OpClass), k.Fits p op ∧ i = k.instr op f
  | .testReady _, _, rfl, _ => ⟨_, .command .testReady, ⟨rfl, rfl⟩, rfl⟩
  | .recalibrate _, _, rfl, _ => ⟨_, .command .recalibrate, ⟨rfl, rfl⟩, rfl⟩
  | .sense _, _, rfl, _ => ⟨_, .command .sense, ⟨rfl, rfl⟩, rfl⟩
  | .formatDrive _, _, rfl, _ => ⟨_, .command .formatDrive, ⟨rfl, rfl⟩, rfl⟩
  | .verify _, _, rfl, _ => ⟨_, .command .verify, ⟨rfl, rfl⟩, rfl⟩
  | .formatTrack _, _, rfl, _ => ⟨_, .command .formatTrack, ⟨rfl, rfl⟩, rfl⟩
  | .formatBadTrack _, _, rfl, _ => ⟨_, .command .formatBadTrack, ⟨rfl, rfl⟩, rfl⟩
  | .read _, _, rfl, _ => ⟨_, .command .read, ⟨rfl, rfl⟩, rfl⟩
  | .write _, _, rfl, _ => ⟨_, .command .write, ⟨rfl, rfl⟩, rfl⟩
  | .seek _, _, rfl, _ => ⟨_, .command .seek, ⟨rfl, rfl⟩, rfl⟩
  | .specify _, _, rfl, _ => ⟨_, .command .specify, ⟨rfl, rfl⟩, rfl⟩
  | .readBuffer _, _, rfl, _ => ⟨_, .command .readBuffer, ⟨rfl, rfl⟩, rfl⟩
  | .writeBuffer _, _, rfl, _ => ⟨_, .command .writeBuffer, ⟨rfl, rfl⟩, rfl⟩
  | .ramDiag _, _, rfl, _ => ⟨_, .command .ramDiag, ⟨rfl, rfl⟩, rfl⟩
  | .driveDiag _, _, rfl, _ => ⟨_, .command .driveDiag, ⟨rfl, rfl⟩, rfl⟩
  | .ctrlDiag _, _, rfl, _ => ⟨_, .command .ctrlDiag, ⟨rfl, rfl⟩, rfl⟩
  | .readLong _, _, rfl, _ => ⟨_, .command .readLong, ⟨rfl, rfl⟩, rfl⟩
  | .writeLong _, _, rfl, _ => ⟨_, .command .writeLong, ⟨rfl, rfl⟩, rfl⟩
  | .st11GetGeom _, _, rfl, h => ⟨_, .command (.vendor .st11GetGeom), ⟨rfl, BEq.comm.trans h⟩, rfl⟩
  | .st11SetGeom _, _, rfl, h => ⟨_, .command (.vendor .st11SetGeom), ⟨rfl, BEq.comm.trans h⟩, rfl⟩
  | .dtcSetGeom _, _, rfl, h => ⟨_, .command (.vendor .dtcSetGeom), ⟨rfl, BEq.comm.trans h⟩, rfl⟩
  | .dtcGetGeom _, _, rfl, h => ⟨_, .command (.vendor .dtcGetGeom), ⟨rfl, BEq.comm.trans h⟩, rfl⟩
  | .wrongDtcGetGeom _, _, rfl, h => ⟨_, .wrongFamily .dtcGetGeom, ⟨rfl, (bne_iff_ne.mp h).symm⟩, rfl⟩
  | .wrongDtcSetGeom _, _, rfl, h => ⟨_, .wrongFamily .dtcSetGeom, ⟨rfl, (bne_iff_ne.mp h).symm⟩, rfl⟩
  | .wrongSt11GetGeom _, _, rfl, h => ⟨_, .wrongFamily .st11GetGeom, ⟨rfl, (bne_iff_ne.mp h).symm⟩, rfl⟩
  | .wrongSt11SetGeom _, _, rfl, h => ⟨_, .wrongFamily .st11SetGeom, ⟨rfl, (bne_iff_ne.mp h).symm⟩, rfl⟩
  | .unknown op _, _, rfl, h => ⟨op, .unknown, Bool.not_eq_eq_eq_not.mp h, rfl⟩

/-! ## The port accesses (30_encoding.md R100, 20_memory.md R71, R72) -/

theorem toNat_offset (x : BitVec 16) : (x.extractLsb' 0 2).toNat = x.toNat % 4 := by simp

/-- A multiple of 4 as `IO_BASE` leaves the offset to the port (log 27). -/
theorem offset_add {base : BitVec 16} (h : base.extractLsb' 0 2 = 0) (port : BitVec 16) :
    (base + port).extractLsb' 0 2 = port.extractLsb' 0 2 := by
  have hb : base.toNat % 4 = 0 := (toNat_offset base).symm.trans (congrArg BitVec.toNat h)
  refine BitVec.eq_of_toNat_eq ?_
  rw [toNat_offset, toNat_offset, BitVec.toNat_add]
  omega

theorem decodeAccess_out {p : Params} (h : p.ioBase.extractLsb' 0 2 = 0) (port : BitVec 16) (v : Byte) :
    decodeAccess (.out p port v) = decodeAccess { addr := port, write := true, width := 8, data := v } := by
  simp only [decodeAccess, Access.out, offset_add h]

theorem decodeAccess_inp {p : Params} (h : p.ioBase.extractLsb' 0 2 = 0) (port : BitVec 16) :
    decodeAccess (.inp p port) = decodeAccess { addr := port, write := false, width := 8, data := 0 } := by
  simp only [decodeAccess, Access.inp, offset_add h]

theorem decode_encode_port {p : Params} (h : p.ioBase.extractLsb' 0 2 = 0) :
    ∀ {i : Instr}, i.fields? = none → decode p (encode p i) = .ok i
  | .dataWrite v, _ => decodeAccess_out h 0 v
  | .dataRead, _ => decodeAccess_inp h 0
  | .resetWrite v, _ => decodeAccess_out h 1 v
  | .statusRead, _ => decodeAccess_inp h 1
  | .selectWrite v, _ => decodeAccess_out h 2 v
  | .switchRead, _ => decodeAccess_inp h 2
  | .maskWrite v, _ => decodeAccess_out h 3 v
  | .maskRead, _ => decodeAccess_inp h 3

/-! ## Decode and encode agree -/

theorem decode_toBytes (p : Params) (op : Byte) (f : Cdb) :
    decode p (.cdb (op :: f.toBytes)) = .ok ((opClass p op).instr op f) := by
  rw [← decodeFields_eq]
  exact congrArg (fun g => Except.ok (decodeFields p op g)) f.ofBytes_toBytes

/-- Settles O1: a command is the instruction of the one class that fits its opcode, and the decoder finds a class that
fits; a port access is decoded by its offset. -/
theorem decodeEncodeRoundTrip : Obligations.DecodeEncodeRoundTrip := by
  intro p i hd hb hw
  cases hf : i.fields? with
  | some f =>
    obtain ⟨op, k, hk, rfl⟩ := WellFormed.exists_opClass hf hw
    rw [hk.encode_instr, decode_toBytes, (opClass_fits p op).unique hd hk]
  | none => exact decode_encode_port hb hf

/-- Settles O2: the decoder's class fits the opcode, whatever the opcode map, and the fields keep every bit. -/
theorem everySixBytesDecode : Obligations.EverySixBytesDecode := by
  intro p b0 b1 b2 b3 b4 b5
  have hk := opClass_fits p b0
  refine ⟨_, congrArg _ (decodeFields_eq p b0 _), hk.wellFormed_instr _, ?_⟩
  rw [hk.encode_instr, Cdb.toBytes_ofBytes]

/-- Settles O3, by the eight pairs of an offset and a direction. -/
theorem busDecodeByOffsetAndDirection : Obligations.BusDecodeByOffsetAndDirection := by
  refine fun a => ⟨Machine.decodeAccess_of_width_ne, fun hw hd => ?_, fun hw hd => ?_⟩ <;>
    refine ⟨?_, ?_, ?_, ?_⟩ <;> intro ho <;>
    simp only [decodeAccess, hw, hd, toNat_offset, ho, ↓reduceIte]

/-- Settles O4, by running the decoder on the five blocks. -/
theorem sampleWordsDecode : Obligations.SampleWordsDecode := by
  unfold Obligations.SampleWordsDecode
  decide

end Sys2Proof
end

section
/-! Command fields without a meaning (30_encoding.md R103, R122): a scheduled step reads the drive field, and a handler
that decodes an address reads all fields but byte 5. -/

namespace Sys2Proof

/-- The block `f` with another byte 5. -/
def Cdb.withControl (f : Cdb) (c : Byte) : Cdb := { f with control := c }

theorem Cdb.eq_withControl {f g : Cdb} (hd : f.drive = g.drive) (hh : f.head = g.head) (hs : f.sector = g.sector)
    (hc : f.cyl = g.cyl) (hn : f.count = g.count) : f = g.withControl f.control := by
  cases f; cases g; simp_all [Cdb.withControl]

end Sys2Proof

namespace Sys2Proof.Machine

theorem scheduledStep_of_drive {f g : Cdb} (h : f.drive = g.drive) (hs : Handlers) (s : State) :
    scheduledStep f hs s = scheduledStep g hs s := by
  simp only [scheduledStep, State.prologue, h]

theorem scheduledStep_withControl (f : Cdb) (c : Byte) (hs : Handlers) (s : State) :
    scheduledStep (f.withControl c) hs s = scheduledStep f hs s :=
  scheduledStep_of_drive (by rfl) hs s

theorem openSector_withControl (f : Cdb) (c : Byte) (s : State) : s.openSector (f.withControl c) = s.openSector f := rfl

theorem verifyStart_withControl (f : Cdb) (c : Byte) : verifyStart (f.withControl c) = verifyStart f := rfl

theorem seekStart_withControl (f : Cdb) (c : Byte) : seekStart (f.withControl c) = seekStart f := rfl

theorem formatTrackStart_withControl (f : Cdb) (c : Byte) :
    formatTrackStart (f.withControl c) = formatTrackStart f := rfl

theorem formatDriveStart_withControl (f : Cdb) (c : Byte) :
    formatDriveStart (f.withControl c) = formatDriveStart f := rfl

/-- Settles O50: a command that decodes no address has handlers that are not given the block, and the handlers of one
that does are the same whatever byte 5 is. -/
theorem unusedCommandFieldsAreIgnored : Obligations.UnusedCommandFieldsAreIgnored := by
  intro f g op op' s hd
  have step (hs : Handlers) := scheduledStep_of_drive hd hs s
  refine ⟨⟨step _, step _, step _, step _, step _, step _, step _, step _, step _, step _, step _, step _, step _,
    step _, step _, step _, step _, step _⟩, fun hh hs hc hn => ?_⟩
  rw [Cdb.eq_withControl hd hh hs hc hn]
  simp only [exec, execRead, execReadLong, execWrite, execWriteLong, execVerify, execSeek, execFormatTrack,
    execFormatBadTrack, execFormatDrive, scheduledStep_withControl, openSector_withControl, verifyStart_withControl,
    seekStart_withControl, formatTrackStart_withControl, formatDriveStart_withControl, and_self]

end Sys2Proof.Machine
end

section
/-! The register interface (40_register_interface.md R141 to R156): where a port-0 access goes in each phase, and the
whole next state of every access. -/

namespace Sys2Proof.Machine

/-! ### A port-0 access by the phase it finds -/

theorem exec_dataWrite_receiveCommand {s : State} (hp : s.phase = .receiveCommand) (v : Byte) :
    exec (.dataWrite v) s = writeCommandByte v s := by
  simp only [exec, execDataWrite, hp]

theorem exec_dataWrite_receiveData {s : State} (hp : s.phase = .receiveData) (v : Byte) :
    exec (.dataWrite v) s = writeDataByte v s := by
  simp only [exec, execDataWrite, hp]

theorem exec_dataWrite_violation {s : State} (hc : s.phase ≠ .receiveCommand) (hd : s.phase ≠ .receiveData)
    (v : Byte) : exec (.dataWrite v) s = .next (s.violation .writeData) := by
  change execDataWrite v s = _
  unfold execDataWrite
  split
  next hp => exact absurd hp hc
  next hp => exact absurd hp hd
  all_goals rfl

theorem exec_dataRead_completionByte {s : State} (hp : s.phase = .completionByte) :
    exec .dataRead s = .next s.clearIrq.returnCompletion := by
  simp only [exec, execDataRead, hp]

theorem exec_dataRead_sendData {s : State} (hp : s.phase = .sendData) :
    exec .dataRead s = readDataByte s.clearIrq := by
  simp only [exec, execDataRead, hp]

theorem exec_dataRead_violation {s : State} (hc : s.phase ≠ .completionByte) (hd : s.phase ≠ .sendData) :
    exec .dataRead s = .next (State.violation .readData { s.clearIrq with busOut := 0xFF }) := by
  change execDataRead s = _
  unfold execDataRead
  split
  next hp => exact absurd hp hc
  next hp => exact absurd hp hd
  all_goals rfl

/-- A read finds nothing to clear where the IRQ bit is clear already (40_register_interface.md R144). -/
theorem clearIrq_of_irq_clear {s : State} (h : s.status &&& 0x20 = 0) : s.clearIrq = s := by
  have hbit : ∀ x : Byte, x &&& 0x20 = 0 → x &&& ~~~IRQ = x := by decide
  simp only [State.clearIrq, hbit _ h]

theorem read_writeByte (m : Memory) (base : Nat) (v : Byte) (a : Nat) :
    Memory.read (Memory.writeBytes m base [v]) a = if a = base then v else Memory.read m a := by
  rw [Memory.read_writeBytes]
  by_cases ha : a = base
  · simp [ha]
  · have hout : ¬ (base ≤ a ∧ a < base + [v].length) := by rw [List.length_singleton]; omega
    rw [if_neg hout, if_neg ha]

/-! ### The obligations -/

/-- Settles O19: of the cases of `PortStep` only a last byte arms a step, and only the reset drops one. -/
theorem portAccessesKeepThePendingStep : Obligations.PortAccessesKeepThePendingStep := by
  intro i s t hf hreset h
  cases portStep_of_exec hf h with
  | lastCommand _ hp => exact .inr (.inl ⟨rfl, hp, rfl⟩)
  | lastStore _ hp => exact .inr (.inr ⟨rfl, .inl ⟨hp, rfl⟩⟩)
  | lastLoad hp => exact .inr (.inr ⟨rfl, .inr ⟨hp, rfl⟩⟩)
  | reset v => exact absurd rfl (hreset v)
  | command | store | badWrite | load | returned | badRead | select | mask | status | switches | free =>
    exact .inl rfl

/-- Settles O11, by whether the byte is the sixth. -/
theorem dataWriteStoresCommandByte : Obligations.DataWriteStoresCommandByte := by
  intro v s h hp
  rw [exec_dataWrite_receiveCommand hp, writeCommandByte, dif_pos h]
  by_cases hlast : s.commandPos = 5
  · simp only [hlast, ↓reduceIte]
    rfl
  · have hmore : s.commandPos + 1 ≠ 6 := by omega
    simp only [hlast, hmore, ↓reduceIte]

/-- Settles O12, by whether the byte is the last; the buffer by `read_writeByte`. -/
theorem dataWriteStoresDataByte : Obligations.DataWriteStoresDataByte := by
  intro v s hp hb
  rw [exec_dataWrite_receiveData hp, writeDataByte, if_pos hb]
  refine ⟨_, rfl, ?_⟩
  by_cases hlast : s.bufPos + 1 = s.bufCount
  · simp only [hlast, ↓reduceIte]
    exact ⟨rfl, read_writeByte s.buffer s.bufPos v⟩
  · simp only [hlast, ↓reduceIte, true_and]
    exact read_writeByte s.buffer s.bufPos v

/-- Settles O13: an access that fits no phase of port 0 is a violation, and the read has no IRQ bit to clear. -/
theorem dataAccessElsewhereIsLogged : Obligations.DataAccessElsewhereIsLogged := by
  refine ⟨fun v s hc hd => exec_dataWrite_violation hc hd v, fun s hc hd hirq => ?_⟩
  rw [exec_dataRead_violation hc hd, clearIrq_of_irq_clear hirq]
  rfl

/-- Settles O14: the return overwrites the status the IRQ clear left. -/
theorem dataReadReturnsCompletionByte : Obligations.DataReadReturnsCompletionByte :=
  fun _ hp => exec_dataRead_completionByte hp

/-- Settles O15, by whether the byte is the last. -/
theorem dataReadReturnsBufferByte : Obligations.DataReadReturnsBufferByte := by
  intro s hp hb
  rw [exec_dataRead_sendData hp, readDataByte, if_pos (by exact hb)]
  by_cases hlast : s.bufPos + 1 = s.bufCount
  · simp only [clearIrq_bufPos, clearIrq_bufCount, hlast, ↓reduceIte]
    rfl
  · simp only [clearIrq_bufPos, clearIrq_bufCount, hlast, ↓reduceIte]
    rfl

/-- Settles O16: the reset asks neither the byte nor the phase. -/
theorem resetWriteResetsTheController : Obligations.ResetWriteResetsTheController :=
  fun _ _ => rfl

/-- Settles O17: none of the four accesses asks the phase, and the byte of port 3 is the next free value. -/
theorem statusSwitchAndMaskAccesses : Obligations.StatusSwitchAndMaskAccesses :=
  fun _ s => ⟨rfl, rfl, rfl, Config.maskRead s.draws, rfl⟩

/-- Settles O18: the pulse asks neither the byte nor the phase, and the three bits it sets are 0x0D. -/
theorem selectPulseOpensTheCommandBlock : Obligations.SelectPulseOpensTheCommandBlock :=
  fun _ _ => rfl

end Sys2Proof.Machine
end

section
/-! The scheduled step of a command (41_state_machine.md R170 to R173, R185): when a turn of the scheduler runs it,
where it finds no work, and that the command running always has its handler. -/

namespace Sys2Proof.Machine

/-- Settles O6: `step_fire` with a step pending, `step_fire_notDue` with none. -/
theorem schedulerTurnRunsTheCommand : Obligations.SchedulerTurnRunsTheCommand := by
  unfold Obligations.SchedulerTurnRunsTheCommand
  exact fun s dma rest hf hc ha ht => ⟨step_fire ⟨hf, hc⟩ ha ht, step_fire_notDue ⟨hf, hc⟩ ha ht⟩

/-! ## Steps without work -/

/-- An empty place in the row of a command (41_state_machine.md R179, R185). -/
theorem runHandler_of_isSome_eq_false {h : Option (State → State)} (hh : h.isSome = false) (s : State) :
    runHandler h s = s.violation .stepNoHandler := by
  cases h with
  | none => rfl
  | some g => cases hh

/-- Settles O20: the guard answers before the prologue, an empty place in the command's row of handlers after it. -/
theorem stepsWithoutWorkAreLogged : Obligations.StepsWithoutWorkAreLogged := by
  unfold Obligations.StepsWithoutWorkAreLogged
  intro i f s hf
  obtain ⟨row, hrow, hsent, hreceived, hdone⟩ := exec_command hf
  rw [hrow]
  constructor
  · rintro (hp | hp | hp | ⟨hp, hx⟩)
    · exact scheduledStep_idle (.inl hp)
    · exact scheduledStep_idle (.inr (.inl hp))
    · exact scheduledStep_idle (.inr (.inr hp))
    · exact scheduledStep_polled hp hx
  · rintro (⟨hp, hn⟩ | ⟨hp, hn⟩ | ⟨hp, hn⟩)
    · rw [scheduledStep_sent hp, runHandler_of_isSome_eq_false (by simp [hsent, hn])]
      rfl
    · rw [scheduledStep_received hp, runHandler_of_isSome_eq_false (by simp [hreceived, hn])]
      rfl
    · rw [scheduledStep_done hp, runHandler_of_isSome_eq_false (hdone.trans hn)]
      rfl

/-! ## The handler of the command running -/

/-- The command running has the handler its phase calls for (41_state_machine.md R185). -/
theorem State.Inv.handlerFound {s : State} (h : s.Inv) (hp : s.phase.handled) :
    s.phase = .startCommand ∨ s.phase = .sentData ∧ (sendLength s.current).isSome ∨
      s.phase = .receivedData ∧ (receiveLength s.current).isSome ∨ s.phase = .done ∧ hasDone s.current = true := by
  rcases hp with hp | hp | hp | hp
  · exact .inl hp
  · exact .inr (.inl ⟨hp, Option.isSome_of_eq_some (h.sendLength_eq (.inr hp))⟩)
  · exact .inr (.inr (.inl ⟨hp, Option.isSome_of_eq_some (h.receiveLength_eq (.inr hp))⟩))
  · exact .inr (.inr (.inr ⟨hp, h.hasDone_eq hp⟩))

/-- From `s` to `t` the log grows by no violation (41_state_machine.md R186). -/
def LogsNoViolation (s t : State) : Prop := ∃ new, t.log = s.log ++ new ∧ ∀ k, Event.violation k ∉ new

theorem Worked.logsNoViolation {s u : State} (w : Worked s u) : LogsNoViolation s u := by
  obtain ⟨new, hlog, hnew⟩ := w.log
  refine ⟨new, hlog, fun k hk => ?_⟩
  rcases hnew _ hk with ⟨_, _, e⟩ | ⟨_, _, _, e⟩ <;> cases e

/-- A completion adds the interrupt at most (41_state_machine.md R180). -/
theorem LogsNoViolation.completed {s u : State} (h : LogsNoViolation s u) : LogsNoViolation s u.completed := by
  obtain ⟨new, hlog, hnew⟩ := h
  rcases completed_cases u with ⟨_, e⟩ | ⟨_, e⟩ <;> rw [e]
  · exact ⟨new ++ [.irqRaised u.params.irqLine], by simp [hlog], by simpa using hnew⟩
  · exact ⟨new, hlog, hnew⟩

theorem Ended.logsNoViolation {i : Instr} {s t : State} (h : Ended i s t) : LogsNoViolation s t := by
  cases h with
  | complete u w => exact w.logsNoViolation.completed
  | cleared => exact LogsNoViolation.completed (u := { s with errorCode := 0 }) (Worked.refl s).logsNoViolation
  | configure g =>
    exact LogsNoViolation.completed (u := s.onDrive s.d (fun dr => { dr with cfg := g dr.cfg }))
      (Worked.refl s).logsNoViolation
  | fail e u _ w =>
    exact LogsNoViolation.completed
      (u := { u with completionByte := u.completionByte ||| 0x02, errorCode := u.params.errCodes.of e })
      w.logsNoViolation
  | send _ _ _ w | receive _ _ _ w | wait _ _ _ w | mark _ w => exact w.logsNoViolation

/-- Settles O56: the invariant says the handler is there, and no handler logs a violation, however it ends. -/
theorem handlerIsAlwaysFound : Obligations.HandlerIsAlwaysFound := by
  unfold Obligations.HandlerIsAlwaysFound
  intro s t h hp hexec
  obtain ⟨u, hu, hended⟩ := handler_ended (fields_current s) (h.handlerFound hp)
  cases hu.symm.trans hexec
  obtain ⟨new, hlog, hnew⟩ := hended.logsNoViolation
  rw [show t.log.drop s.log.length = new by rw [hlog]; exact List.drop_left]
  exact hnew .stepNoHandler

end Sys2Proof.Machine
end

section
/-! The stored error (41_state_machine.md R181 to R183, 60_exceptions.md R302): what a failing completion leaves, and
that but for SENSE nothing else changes it. -/

namespace Sys2Proof.Machine

/-- From `s` to `t` the stored error stays as it is, unless a failing completion stores its own (R181, R182). -/
def KeepsErrorUnlessFailing (s t : State) : Prop :=
  t.errorCode ≠ s.errorCode → t.phase = .completionByte ∧
    ∃ e ∈ raisedErrors, t.errorCode = s.params.errCodes.of e ∧ t.completionByte &&& 0x02 = 0x02

theorem keepsErrorUnlessFailing_of_eq {s t : State} (h : t.errorCode = s.errorCode) : KeepsErrorUnlessFailing s t :=
  fun hne => absurd h hne

theorem completed_errorCode (s : State) : s.completed.errorCode = s.errorCode := by
  rw [← complete_eq_completed, complete_errorCode]

/-- A failing completion stores the code and reports it in the completion byte. -/
theorem keepsErrorUnlessFailing_failed {s u : State} (hparams : u.params = s.params) {e : ErrorName}
    (he : e ∈ raisedErrors) : KeepsErrorUnlessFailing s (u.failed e) := by
  have hbit : ∀ x : Byte, (x ||| 0x02) &&& 0x02 = 0x02 := by decide
  intro _
  rw [← fail_eq_failed, fail_phase, fail_errorCode, fail_completionByte, hparams]
  exact ⟨rfl, e, he, rfl, hbit u.completionByte⟩

theorem Worked.errorCode {s u : State} (w : Worked s u) : u.errorCode = s.errorCode := by rw [w.rest]

/-- SENSE's last handler clears the stored error in completing (44_commands.md R246). -/
def SenseClears (i : Instr) (s t : State) : Prop :=
  (∃ f, i = .sense f) ∧ s.phase = .sentData ∧ t.phase = .completionByte ∧ t.errorCode = 0

theorem Ended.keepsErrorUnlessFailing {i : Instr} {s t : State} (h : Ended i s t) :
    KeepsErrorUnlessFailing s t ∨ SenseClears i s t := by
  cases h with
  | cleared hi hp =>
    rw [← complete_eq_completed]
    exact .inr ⟨hi, hp, complete_phase _, complete_errorCode _⟩
  | complete u w => exact .inl (keepsErrorUnlessFailing_of_eq ((completed_errorCode u).trans w.errorCode))
  | configure => exact .inl (keepsErrorUnlessFailing_of_eq (completed_errorCode _))
  | fail e u he w => exact .inl (keepsErrorUnlessFailing_failed (by rw [w.rest]) he)
  | send _ _ _ w | receive _ _ _ w | wait _ _ _ w | mark _ w =>
    exact .inl (keepsErrorUnlessFailing_of_eq w.errorCode)

/-! ## The DMA byte steps (43_transfer_engine.md R224 to R229) -/

/-- Only a spent budget fails. -/
theorem dmaStall_keepsErrorUnlessFailing (e : Event) (s : State) : KeepsErrorUnlessFailing s (s.event e).dmaStall := by
  rcases dmaStall_cases (s.event e) with ⟨_, h⟩ | ⟨_, h⟩ <;> rw [h]
  · exact keepsErrorUnlessFailing_of_eq rfl
  · exact keepsErrorUnlessFailing_failed rfl (by decide)

theorem dmaSend_keepsErrorUnlessFailing {s t : State} (h : dmaSend s = .next t) : KeepsErrorUnlessFailing s t := by
  by_cases hb : s.bufPos < s.params.bufSize
  · rcases dmaSend_cases hb with ⟨_, _, e⟩ | ⟨_, _, e⟩ | ⟨_, e⟩ <;> cases e.symm.trans h
    · exact keepsErrorUnlessFailing_of_eq rfl
    · exact keepsErrorUnlessFailing_of_eq rfl
    · exact dmaStall_keepsErrorUnlessFailing _ s
  · simp [dmaSend, hb] at h

theorem dmaReceive_keepsErrorUnlessFailing {s t : State} (h : dmaReceive s = .next t) :
    KeepsErrorUnlessFailing s t := by
  unfold dmaReceive at h
  split at h
  next =>
    split at h
    next => cases h; exact keepsErrorUnlessFailing_of_eq (by split <;> rfl)
    next => cases h
  next => cases h; exact dmaStall_keepsErrorUnlessFailing _ s

/-! ## Every instruction -/

/-- No port access touches the stored error; a DMA byte step or a handler does by its end. -/
theorem exec_keepsErrorUnlessFailing {i : Instr} {s t : State} (h : exec i s = .next t) :
    KeepsErrorUnlessFailing s t ∨ SenseClears i s t := by
  cases hf : i.fields? with
  | none => exact .inl (keepsErrorUnlessFailing_of_eq (by rw [exec_port_frame hf h]))
  | some f =>
    cases commandStep_of_exec hf h with
    | notDue | noHandler => exact .inl (keepsErrorUnlessFailing_of_eq rfl)
    | dmaSend _ _ ht => exact .inl (dmaSend_keepsErrorUnlessFailing (s := s.begun f) ht)
    | dmaReceive _ _ ht => exact .inl (dmaReceive_keepsErrorUnlessFailing (s := s.begun f) ht)
    | handler _ ht => exact ht.keepsErrorUnlessFailing

/-- Settles O55: what changes the stored error is a failing completion or the end of SENSE, and both complete. -/
theorem errorCodeChangesOnlyAtCompletion : Obligations.ErrorCodeChangesOnlyAtCompletion := by
  unfold Obligations.ErrorCodeChangesOnlyAtCompletion
  intro i s t h hne
  rcases exec_keepsErrorUnlessFailing h with hk | ⟨hsense, hp, hphase, hcode⟩
  · obtain ⟨hphase, hfailed⟩ := hk hne
    exact ⟨hphase, .inl hfailed⟩
  · exact ⟨hphase, .inr ⟨hsense, hp, hcode⟩⟩

end Sys2Proof.Machine
end

section
/-! The translation of an address (42_chs_translator.md R200, R201, R203): its three answers, and how a command that
decodes an address begins and fails. -/

namespace Sys2Proof.Machine

/-! ## The answers of translate (R203, R204) -/

theorem translate_lacksDrive {d : Nat} {s : State} (hl : s.lacksDrive d) (c : BitVec 16) (h sct : Byte) :
    s.translate d c h sct = .error .notReady := by
  cases ht : s.translate d c h sct with
  | ok n =>
    obtain ⟨dr, hd, _⟩ := translate_ok_iff.mp ht
    exact (hasDrive_not_lacksDrive hd hl).elim
  | error e =>
    rcases translate_error ht with ⟨rfl, _⟩ | ⟨_, dr, hd, _⟩
    · rfl
    · exact (hasDrive_not_lacksDrive hd hl).elim

theorem translate_outside {d : Nat} {c : BitVec 16} {h sct : Byte} {s : State} {dr : Drive} (hd : s.hasDrive d dr)
    (hout : dr.currentCylinder ≠ c ∨ dr.cfg.heads.toNat ≤ h.toNat ∨ dr.cfg.spt.toNat ≤ sct.toNat) :
    s.translate d c h sct = .error .illegalAddress := by
  cases ht : s.translate d c h sct with
  | ok n =>
    obtain ⟨dr', hd', hc, hh, hs, _⟩ := translate_ok_iff.mp ht
    obtain rfl := hasDrive_unique hd hd'
    rcases hout with hout | hout | hout
    · exact absurd hc hout
    · omega
    · omega
  | error e =>
    rcases translate_error ht with ⟨_, hl⟩ | ⟨rfl, _⟩
    · exact (hasDrive_not_lacksDrive hd hl).elim
    · rfl

/-- Settles O37: a missing drive by `translate_lacksDrive`, an address outside by `translate_outside`, the rest by
`translate_ok_iff`. -/
theorem translateFormulaAndErrors : Obligations.TranslateFormulaAndErrors := by
  unfold Obligations.TranslateFormulaAndErrors
  intro d c h sct s
  exact ⟨fun hl => translate_lacksDrive hl c h sct, fun dr hd =>
    ⟨translate_outside hd, fun hc hh hs => translate_ok_iff.mpr ⟨dr, hd, hc, hh, hs, rfl⟩⟩⟩

/-- The translation sub-step of an address outside the drive's tracks (44_commands.md R252, R277). -/
theorem locate_outside {s : State} {dr : Drive} {h sct : Byte} (hd : s.hasDrive s.d dr)
    (hout : dr.cfg.heads.toNat ≤ h.toNat ∨ dr.cfg.spt.toNat ≤ sct.toNat) :
    s.locate h sct = .error (s.failed .illegalAddress) := by
  rw [State.locate, translate_outside hd (.inr hout)]
  exact congrArg _ (fail_eq_failed _ s)

/-! ## SetupAddress of a cylinder out of range (44_commands.md R241) -/

theorem lastCylinder_eq_ofNat (g : Geometry) : lastCylinder g = BitVec.ofNat 16 (g.cylinders.toNat - 1) := by
  rw [← toNat_lastCylinder, BitVec.ofNat_toNat, BitVec.setWidth_eq]

theorem setupAddress_outOfRange {e : ErrorName} {f : Cdb} {s : State} {dr : Drive} (h : s.hasDrive s.d dr)
    (hc : dr.cfg.cylinders.toNat ≤ (s.addressed f).addr.cyl.toNat) :
    s.setupAddress e f =
      .error (((s.addressed f).seeked s.d (BitVec.ofNat 16 (dr.cfg.cylinders.toNat - 1))).failed e) := by
  rcases setupAddress_cases e f s with ⟨hl, _⟩ | ⟨dr', hd, ⟨h1, _⟩ | ⟨_, h2⟩⟩
  · exact (hasDrive_not_lacksDrive h hl).elim
  · obtain rfl := hasDrive_unique h hd
    omega
  · obtain rfl := hasDrive_unique h hd
    rw [h2, lastCylinder_eq_ofNat]

/-! ## How a command that decodes an address begins -/

/-- The sector a command translates first: the FORMAT commands take the addressed track's sector 0 (44_commands.md
R247, R249). -/
def firstSector (i : Instr) (a : Address) : Byte :=
  match i with
  | .formatTrack _ | .formatBadTrack _ | .formatDrive _ => 0
  | _ => a.sector

theorem firstSector_eq_sector {i : Instr} {f : Cdb} (h : movesSectors i = true ∨ i = .verify f) (a : Address) :
    firstSector i a = a.sector := by
  rcases h with h | rfl
  · cases i with
    | formatTrack | formatBadTrack | formatDrive => cases h
    | _ => rfl
  · rfl

/-- A handler whose first two sub-steps are `SetupAddress(IllegalAddress)` and the translation of sector `sct`. -/
def Opens (f : Cdb) (sct : Address → Byte) (start : State → State) : Prop :=
  ∃ rest : State → State, ∀ s, start s =
    andThen (s.setupAddress .illegalAddress f) fun t => andThen (t.locate t.addr.head (sct t.addr)) rest

theorem opens_openSector (f : Cdb) (g : State → State) :
    Opens f Address.sector (fun s => andThen (s.openSector f) g) := by
  refine ⟨g, fun s => ?_⟩
  cases h : s.setupAddress .illegalAddress f <;> simp only [State.openSector, h, andThen]

theorem opens_openTrack (f : Cdb) (g : State → State) :
    Opens f (fun _ => 0) (fun s => andThen (s.openTrack f) g) := by
  refine ⟨g, fun s => ?_⟩
  cases h : s.setupAddress .illegalAddress f <;> simp only [State.openTrack, h, andThen]

/-- A round of VERIFY after its translation, with at most `n` rounds to come (44_commands.md R251). -/
def verifyNext (n : Nat) (t : State) : State :=
  let u := (t.nextSector t.d).countDown
  if u.addr.count = 0 then u.complete else verifyLoop n u

theorem verifyLoop_succ (n : Nat) (s : State) :
    verifyLoop (n + 1) s = andThen (s.locate s.addr.head s.addr.sector) (verifyNext n) := by
  rw [verifyLoop]
  cases s.locate s.addr.head s.addr.sector <;> rfl

theorem opens_verifyStart (f : Cdb) : Opens f Address.sector (verifyStart f) :=
  ⟨verifyNext 255, fun s => congrArg (andThen (s.setupAddress .illegalAddress f)) (funext (verifyLoop_succ 255))⟩

/-- Every command that sets up an address opens it in StartCommand (44_commands.md R247 to R259). -/
theorem exec_opens {i : Instr} {f : Cdb} (hf : i.fields? = some f) (hi : setsUpAddress i = true) :
    ∃ start, Opens f (firstSector i) start ∧
      ∀ s : State, s.phase = .startCommand → exec i s = .next (start (s.begun f)) := by
  cases i with
  | read | readLong | write | writeLong =>
    cases hf
    exact ⟨_, opens_openSector f _, fun _ hp => scheduledStep_start hp⟩
  | formatTrack | formatBadTrack | formatDrive =>
    cases hf
    exact ⟨_, opens_openTrack f _, fun _ hp => scheduledStep_start hp⟩
  | verify =>
    cases hf
    exact ⟨_, opens_verifyStart f, fun _ hp => scheduledStep_start hp⟩
  | _ => cases hi

/-- Settles O27: `setupAddress_outOfRange` ends the handler. -/
theorem cylinderOutOfRangeClampsAndFails : Obligations.CylinderOutOfRangeClampsAndFails := by
  unfold Obligations.CylinderOutOfRangeClampsAndFails
  rintro i f s dr hf (hi | rfl) hp hd hc
  · obtain ⟨start, ⟨rest, hstart⟩, hexec⟩ := exec_opens hf hi
    have hseek : i ≠ .seek f := by rintro rfl; cases hi
    rw [hexec s hp, hstart, setupAddress_outOfRange (s := s.begun f) hd hc, if_neg hseek]
    rfl
  · have hexec : exec (.seek f) s = .next (seekStart f (s.begun f)) := scheduledStep_start hp
    rw [hexec, seekStart, setupAddress_outOfRange (s := s.begun f) hd hc, if_pos rfl]
    rfl

/-- Settles O28: the drive has seeked when `locate_outside` ends the handler. -/
theorem headOrSectorOutOfRangeFails : Obligations.HeadOrSectorOutOfRangeFails := by
  unfold Obligations.HeadOrSectorOutOfRangeFails
  intro i f s dr hf hi hp hd hc hbad
  obtain ⟨start, ⟨rest, hstart⟩, hexec⟩ := exec_opens hf hi
  let a := (s.addressed f).addr
  have hout : dr.cfg.heads.toNat ≤ a.head.toNat ∨ dr.cfg.spt.toNat ≤ (firstSector i a).toNat := by
    rcases hbad with hhead | hspt | ⟨hreads, hsector⟩
    · exact .inl (by rwa [show a.head.toNat = f.head.toNat from BitVec.toNat_setWidth_of_le (by decide)])
    · exact .inr (by omega)
    · exact .inr (by rwa [firstSector_eq_sector hreads])
  let u := ((s.begun f).addressed f).seeked f.drive.toNat a.cyl
  have hu : u.hasDrive u.d { dr with currentCylinder := a.cyl } :=
    hasDrive_seeked (s := (s.begun f).addressed f) hd
  have hlocate : u.locate a.head (firstSector i a) = .error (u.failed .illegalAddress) := locate_outside hu hout
  rw [hexec s hp, hstart, setupAddress_inRange (s := s.begun f) hd hc]
  exact congrArg (fun r => Host.Outcome.next (andThen r rest)) hlocate

end Sys2Proof.Machine
end

section
/-! The walk of nextSector over a disk (42_chs_translator.md R206, R208): each of its three moves, that inside the disk
it is the next block address, and what many of them reach. -/

namespace Sys2Proof.Machine

/-! ## The three moves -/

section
variable {g : Geometry} {a : Address}

theorem advance_within_track (hs : (a.sector + 1).toNat < g.spt.toNat) :
    advance g a = { a with sector := a.sector + 1 } := if_pos hs

theorem advance_to_next_head (hs : g.spt.toNat ≤ (a.sector + 1).toNat) (hh : (a.head + 1).toNat < g.heads.toNat) :
    advance g a = { a with sector := 0, head := a.head + 1 } :=
  (if_neg (Nat.not_lt.mpr hs)).trans (if_pos hh)

theorem advance_to_next_cylinder (hs : g.spt.toNat ≤ (a.sector + 1).toNat)
    (hh : g.heads.toNat ≤ (a.head + 1).toNat) :
    advance g a = { a with
      sector := 0, head := 0
      cyl := if (a.cyl + 1).toNat < g.cylinders.toNat then a.cyl + 1 else lastCylinder g } :=
  (if_neg (Nat.not_lt.mpr hs)).trans (if_neg (Nat.not_lt.mpr hh))

end

/-- Settles O34: the address is that of `advance`, field by field in each of its three moves. -/
theorem nextSectorRollsAndSaturates : Obligations.NextSectorRollsAndSaturates := by
  unfold Obligations.NextSectorRollsAndSaturates
  intro d s dr hslot a sector head cyl
  have hsector : (a.sector + 1).toNat = sector := BitVec.toNat_add _ _
  have hhead : (a.head + 1).toNat = head := BitVec.toNat_add _ _
  have hcyl : (a.cyl + 1).toNat = cyl := BitVec.toNat_add _ _
  rw [← hsector, ← hhead, ← hcyl]
  refine ⟨advance dr.cfg a, nextSector_of_slot hslot, advance_count _ _, advance_lba _ _, fun hs => ?_,
    fun hs => ⟨?_, fun hh => ?_, fun hh => ?_⟩⟩
  · rw [advance_within_track hs]
    exact ⟨rfl, rfl, rfl⟩
  · by_cases hh : (a.head + 1).toNat < dr.cfg.heads.toNat
    · rw [advance_to_next_head hs hh]
    · rw [advance_to_next_cylinder hs (Nat.not_lt.mp hh)]
  · rw [advance_to_next_head hs hh]
    exact ⟨rfl, rfl⟩
  · rw [advance_to_next_cylinder hs hh]
    exact ⟨rfl, by rw [← toNat_lastCylinder]; exact apply_ite BitVec.toNat _ _ _⟩

/-! ## The next block -/

/-- The address names a sector of the geometry (42_chs_translator.md R203). -/
structure Address.Within (g : Geometry) (a : Address) : Prop where
  cyl : a.cyl.toNat < g.cylinders.toNat
  head : a.head.toNat < g.heads.toNat
  sector : a.sector.toNat < g.spt.toNat

/-- The block an address names (42_chs_translator.md R203). -/
def Address.block (g : Geometry) (a : Address) : Nat := g.lba a.cyl.toNat a.head.toNat a.sector.toNat

theorem lba_next_track {g : Geometry} {s : Nat} (hs : s + 1 = g.spt.toNat) (c h : Nat) :
    g.lba c (h + 1) 0 = g.lba c h s + 1 := by
  unfold Geometry.lba
  rw [← Nat.add_assoc, Nat.succ_mul, Nat.add_assoc (_ * _) s 1, hs, Nat.add_zero]

theorem lba_next_cylinder {g : Geometry} {h : Nat} (hh : h = g.heads.toNat) (c s : Nat) :
    g.lba (c + 1) 0 s = g.lba c h s := by
  unfold Geometry.lba
  rw [hh, Nat.succ_mul, Nat.add_zero]

theorem lba_cylinders (g : Geometry) : g.lba g.cylinders.toNat 0 0 = g.blocks := rfl

/-- A field below a bound of its own width does not wrap (00_scope.md R12). -/
theorem toNat_succ_of_lt {w : Nat} {x y : BitVec w} (h : x.toNat < y.toNat) : (x + 1#w).toNat = x.toNat + 1 := by
  have hy := y.isLt
  rw [BitVec.toNat_add, BitVec.toNat_ofNat, Nat.add_mod_mod, Nat.mod_eq_of_lt (by omega)]

theorem block_advance {g : Geometry} {a : Address} (ha : a.Within g) (hlast : a.block g + 1 < g.blocks) :
    (advance g a).block g = a.block g + 1 := by
  have hs1 : (a.sector + 1).toNat = _ := toNat_succ_of_lt ha.sector
  have hh1 : (a.head + 1).toNat = _ := toNat_succ_of_lt ha.head
  have hc1 : (a.cyl + 1).toNat = _ := toNat_succ_of_lt ha.cyl
  obtain ⟨hcyl, hhead, hsector⟩ := ha
  by_cases hs : (a.sector + 1).toNat < g.spt.toNat
  · rw [advance_within_track hs, Address.block, hs1]
    rfl
  have htrack : a.sector.toNat + 1 = g.spt.toNat := by omega
  by_cases hh : (a.head + 1).toNat < g.heads.toNat
  · rw [advance_to_next_head (Nat.not_lt.mp hs) hh, Address.block, hh1]
    exact lba_next_track htrack _ _
  have hend : g.lba (a.cyl.toNat + 1) 0 0 = a.block g + 1 :=
    (lba_next_cylinder (by omega) _ 0).trans (lba_next_track htrack _ a.head.toNat)
  have hc : (a.cyl + 1).toNat < g.cylinders.toNat := by
    refine lt_of_le_of_ne (by omega) fun heq => ?_
    rw [← hc1, heq, lba_cylinders] at hend
    omega
  rw [advance_to_next_cylinder (Nat.not_lt.mp hs) (Nat.not_lt.mp hh), if_pos hc, Address.block, hc1]
  exact hend

/-- Settles O36: `block_advance`, with the address as a structure. -/
theorem nextSectorIsTheNextBlock : Obligations.NextSectorIsTheNextBlock := by
  unfold Obligations.NextSectorIsTheNextBlock
  exact fun g a hc hh hs hlast => block_advance ⟨hc, hh, hs⟩ hlast

/-! ## Many sectors on -/

theorem iterate_advance_frame (g : Geometry) (a : Address) (n : Nat) :
    ((advance g)^[n] a).count = a.count ∧ ((advance g)^[n] a).lba = a.lba := by
  induction n with
  | zero => exact ⟨rfl, rfl⟩
  | succ n ih => simpa only [Function.iterate_succ_apply', advance_count, advance_lba] using ih

theorem Address.Within.iterate_advance {g : Geometry} {a : Address} (h : a.Within g) (n : Nat) :
    ((advance g)^[n] a).Within g := by
  induction n with
  | zero => exact h
  | succ n ih =>
    rw [Function.iterate_succ_apply']
    have ⟨hs, hh⟩ := advance_in_range ih.sector ih.head
    exact ⟨advance_cyl_lt ih.cyl, hh, hs⟩

theorem block_iterate_advance {g : Geometry} {a : Address} (h : a.Within g) {n : Nat}
    (hn : a.block g + n < g.blocks) : ((advance g)^[n] a).block g = a.block g + n := by
  induction n with
  | zero => rfl
  | succ n ih =>
    have hblock := ih (by omega)
    rw [Function.iterate_succ_apply', block_advance (h.iterate_advance n) (by omega), hblock]
    rfl

theorem mul_add_inj {n x y r t : Nat} (hr : r < n) (ht : t < n) (h : x * n + r = y * n + t) : x = y ∧ r = t := by
  obtain rfl : r = t := by
    rw [← Nat.mul_add_mod_of_lt (a := x) hr, h, Nat.mul_add_mod_of_lt ht]
  exact ⟨Nat.eq_of_mul_eq_mul_right (Nat.zero_lt_of_lt hr) (Nat.add_right_cancel h), rfl⟩

/-- A block has one address on a geometry (42_chs_translator.md R203). -/
theorem Address.Within.eq_of_block_eq {g : Geometry} {a b : Address} (ha : a.Within g) (hb : b.Within g)
    (hblock : a.block g = b.block g) (hcount : a.count = b.count) (hlba : a.lba = b.lba) : a = b := by
  obtain ⟨htrack, hsector⟩ := mul_add_inj ha.sector hb.sector hblock
  obtain ⟨hcyl, hhead⟩ := mul_add_inj ha.head hb.head htrack
  rw [Address.mk.injEq]
  exact ⟨BitVec.eq_of_toNat_eq hcyl, BitVec.eq_of_toNat_eq hhead, BitVec.eq_of_toNat_eq hsector, hcount, hlba⟩

/-- The first block of a cylinder and the first block of the next are `heads * spt` apart. -/
theorem lba_cylinder_span (g : Geometry) (c : Nat) :
    g.lba (c + 1) 0 0 = g.lba c 0 0 + g.heads.toNat * g.spt.toNat := by
  simp only [Geometry.lba, Nat.add_zero, Nat.succ_mul, Nat.add_mul]

/-- Settles O35: the walk reaches the block the next cylinder begins with, and a block has one address. -/
theorem nextSectorWalksATrackCylinder : Obligations.NextSectorWalksATrackCylinder := by
  unfold Obligations.NextSectorWalksATrackCylinder
  intro g a hheads hspt hhead hsector hcyl
  let b : Address := { a with cyl := a.cyl + 1 }
  have hcyl1 : b.cyl.toNat = a.cyl.toNat + 1 := toNat_succ_of_lt (Nat.lt_of_succ_lt hcyl)
  have ha : a.Within g := ⟨Nat.lt_of_succ_lt hcyl, by simpa [hhead], by simpa [hsector]⟩
  have hb : b.Within g := ⟨hcyl1 ▸ hcyl, ha.head, ha.sector⟩
  have hspan : b.block g = a.block g + g.heads.toNat * g.spt.toNat := by
    rw [Address.block, Address.block, hcyl1, hhead, hsector]
    exact lba_cylinder_span g a.cyl.toNat
  have hend : b.block g < g.blocks := lba_lt_blocks hb.cyl hb.head hb.sector
  obtain ⟨hcount, hlba⟩ := iterate_advance_frame g a (g.heads.toNat * g.spt.toNat)
  exact (ha.iterate_advance _).eq_of_block_eq hb
    ((block_iterate_advance ha (hspan ▸ hend)).trans hspan.symm) hcount hlba

end Sys2Proof.Machine
end

section
/-! The transfer engine (43_transfer_engine.md R224 to R229): one DMA byte step of every command, by the channel's
answer. -/

namespace Sys2Proof.Machine

theorem exec_dmaSend {i : Instr} {f : Cdb} {s : State} (hf : i.fields? = some f) (hp : s.phase = .sendData)
    (hx : s.xferDma = true) : exec i s = dmaSend (s.begun f) := by
  obtain ⟨row, hrow, _⟩ := exec_command hf
  rw [hrow, scheduledStep_dmaSend hp hx]

theorem exec_dmaReceive {i : Instr} {f : Cdb} {s : State} (hf : i.fields? = some f) (hp : s.phase = .receiveData)
    (hx : s.xferDma = true) : exec i s = dmaReceive (s.begun f) := by
  obtain ⟨row, hrow, _⟩ := exec_command hf
  rw [hrow, scheduledStep_dmaReceive hp hx]

theorem dmaSend_noData {s : State} (hb : s.bufPos < s.params.bufSize) (ha : s.dma.write = .noData) :
    dmaSend s = .next (s.event (.dmaNoData s.params.dmaChannel)).dmaStall := by
  simp only [dmaSend, hb, ha, ↓reduceIte]

theorem dmaReceive_noData {s : State} (ha : s.dma.read = .noData) :
    dmaReceive s = .next (s.event (.dmaNoData s.params.dmaChannel)).dmaStall := by
  simp only [dmaReceive, ha]

/-- Settles O21: of the cases of `dmaSend_cases` the two in which the byte is taken. -/
theorem dmaSendStepMovesOneByte : Obligations.DmaSendStepMovesOneByte := by
  unfold Obligations.DmaSendStepMovesOneByte
  intro i f s hf hp hx hb ha
  rw [exec_dmaSend hf hp hx]
  rcases dmaSend_cases (s := s.begun f) hb with ⟨_, hlast, e⟩ | ⟨_, hmore, e⟩ | ⟨hn, _⟩
  · replace hlast : s.bufPos + 1 = s.bufCount := hlast
    rw [e]
    simp only [if_pos hlast]
    rfl
  · replace hmore : s.bufPos + 1 ≠ s.bufCount := hmore
    rw [e]
    simp only [if_neg hmore, ← hp]
    rfl
  · exact nomatch hn.symm.trans ha

/-- Settles O22: of the cases of `dmaReceive_cases` the two in which a byte comes; the buffer by `read_writeByte`. -/
theorem dmaReceiveStepMovesOneByte : Obligations.DmaReceiveStepMovesOneByte := by
  unfold Obligations.DmaReceiveStepMovesOneByte
  intro i f s b hf hp hx hb ha
  rw [exec_dmaReceive hf hp hx]
  rcases dmaReceive_cases (s := s.begun f) hb with ⟨b', hb', hlast, e⟩ | ⟨b', hb', hmore, e⟩ | ⟨hn, _⟩
  · obtain rfl : b' = b := DmaRead.byte.inj (hb'.symm.trans ha)
    replace hlast : s.bufPos + 1 = s.bufCount := hlast
    refine ⟨_, e, ?_, read_writeByte s.buffer s.bufPos b'⟩
    simp only [if_pos hlast]
    rfl
  · obtain rfl : b' = b := DmaRead.byte.inj (hb'.symm.trans ha)
    replace hmore : s.bufPos + 1 ≠ s.bufCount := hmore
    refine ⟨_, e, ?_, read_writeByte s.buffer s.bufPos b'⟩
    simp only [if_neg hmore, ← hp]
    rfl
  · exact nomatch hn.symm.trans ha

/-- Settles O23: in either direction the step is a stall, and `dmaStall_cases` says on which side of the budget. -/
theorem dmaStallCountsThenFails : Obligations.DmaStallCountsThenFails := by
  unfold Obligations.DmaStallCountsThenFails
  intro i f s hf hx hasked
  have hstall : exec i s = .next ((s.begun f).event (.dmaNoData s.params.dmaChannel)).dmaStall := by
    rcases hasked with ⟨hp, ha, hb⟩ | ⟨hp, ha⟩
    · exact (exec_dmaSend hf hp hx).trans (dmaSend_noData (s := s.begun f) hb ha)
    · exact (exec_dmaReceive hf hp hx).trans (dmaReceive_noData (s := s.begun f) ha)
  rw [hstall]
  rcases dmaStall_cases ((s.begun f).event (.dmaNoData s.params.dmaChannel)) with ⟨hlt, e⟩ | ⟨hge, e⟩
  · rw [e, if_pos (show s.stall + 1 < s.params.retryBudget from hlt)]
    rfl
  · rw [e, if_neg (show ¬ s.stall + 1 < s.params.retryBudget from Nat.not_lt.mpr hge)]
    rfl

end Sys2Proof.Machine
end

section
/-! A whole DMA phase under turns of the scheduler alone (43_transfer_engine.md R226 to R228, R231;
70_reset_and_hazards.md R343): where a phase of NoData answers ends, and a send phase whose every byte is taken. -/

namespace Sys2Proof.Machine

/-- A DMA-driven data phase of an attached controller without the mark (43_transfer_engine.md R221, R222). -/
structure State.Transferring (s : State) : Prop where
  inv : s.Inv
  fault : s.fault = false
  attached : s.attached = true
  dma : s.xferDma = true
  phase : s.phase = .sendData ∨ s.phase = .receiveData

theorem State.Transferring.pending {s : State} (h : s.Transferring) : s.pending.isSome = true := by
  have hshown := h.inv.pending
  rcases h.phase with hp | hp <;> simp only [State.pendingShown, hp, h.dma, ↓reduceIte] at hshown <;>
    exact hshown h.attached h.fault

/-- A turn of the scheduler in a DMA phase runs a byte step (41_state_machine.md R170). -/
theorem State.Transferring.step_eq {s : State} (h : s.Transferring) {a : DmaAnswer} {rest : List Turn}
    (ht : s.turns = .fire a :: rest) :
    step s = exec s.current { s with turns := rest, dma := a, pending := none } :=
  step_fire ⟨h.fault, h.inv.config⟩ h.attached ht h.pending

theorem runSteps_succ_of_next {s u : State} (h : step s = .next u) (n : Nat) : runSteps (n + 1) s = runSteps n u := by
  rw [runSteps, h]

/-! ## Only NoData answers -/

/-- The channel's answers to a step that moves no byte. -/
def DmaAnswer.silent : DmaAnswer := { read := .noData, write := .noData }

/-- `n` stalls on from `s`, the command with fields `f` has failed (43_transfer_engine.md R226, R227). -/
def State.stalledOut (f : Cdb) (n : Nat) (rest : List Turn) (s : State) : State :=
  State.failed .noRecovery
    { s.begun f with
      stall := s.stall + n, pending := none, turns := rest, dma := .silent
      log := s.log ++ List.replicate n (.dmaNoData s.params.dmaChannel) }

/-- One stall on from `s`, the phase goes on (43_transfer_engine.md R226, R229). -/
def State.stalledOnce (f : Cdb) (rest : List Turn) (s : State) : State :=
  { s.begun f with
    stall := s.stall + 1, status := s.status ||| 0x0F, pending := some .stall, turns := rest, dma := .silent
    log := s.log ++ [.dmaNoData s.params.dmaChannel] }

/-- The failure overwrites the status, and the step that fails is pending no more: one stall first makes no difference
but in the count and the log. -/
theorem stalledOut_stalledOnce (f : Cdb) (n : Nat) (rest rest' : List Turn) (s : State) :
    (s.stalledOnce f rest').stalledOut f n rest = s.stalledOut f (n + 1) rest := by
  have hlog : s.log ++ [.dmaNoData s.params.dmaChannel] ++ List.replicate n (.dmaNoData s.params.dmaChannel) =
      s.log ++ List.replicate (n + 1) (.dmaNoData s.params.dmaChannel) := by
    rw [List.append_assoc, List.singleton_append, List.replicate_succ]
  have hstall : s.stall + 1 + n = s.stall + (n + 1) := by omega
  simp only [State.stalledOut, State.stalledOnce, State.begun, hlog, hstall]
  rfl

theorem step_noData {s : State} (h : s.Transferring) {f : Cdb} (hf : s.current.fields? = some f) {rest : List Turn}
    (ht : s.turns = .fire .silent :: rest) :
    step s = .next (if s.stall + 1 < s.params.retryBudget then s.stalledOnce f rest else s.stalledOut f 1 rest) := by
  rw [h.step_eq ht]
  refine dmaStallCountsThenFails s.current f { s with turns := rest, dma := .silent, pending := none } hf h.dma ?_
  rcases h.phase with hp | hp
  · exact .inl ⟨hp, rfl, (h.inv.byteLeft h.phase).2⟩
  · exact .inr ⟨hp, rfl⟩

/-- The stalls left of the budget, one a turn, and then the failure. -/
theorem runSteps_noData {f : Cdb} {rest : List Turn} (n : Nat) {s : State} (h : s.Transferring)
    (hf : s.current.fields? = some f) (hn : s.stall + n = s.params.retryBudget)
    (ht : s.turns = List.replicate n (.fire .silent) ++ rest) :
    runSteps n s = .next (s.stalledOut f n rest) := by
  induction n generalizing s with
  | zero =>
    have hlt : s.stall < s.params.retryBudget := h.inv.stall.2 h.phase h.dma
    omega
  | succ n ih =>
    rw [List.replicate_succ, List.cons_append] at ht
    have hstep := step_noData h hf ht
    by_cases hlt : s.stall + 1 < s.params.retryBudget
    · rw [if_pos hlt] at hstep
      have hnext : (s.stalledOnce f _).Transferring :=
        ⟨stepKeepsTheInvariant s _ h.inv hstep, h.fault, h.attached, h.dma, h.phase⟩
      rw [runSteps_succ_of_next hstep, ih hnext hf ((Nat.add_right_comm ..).trans hn) rfl, stalledOut_stalledOnce]
    · obtain rfl : n = 0 := by omega
      rw [if_neg hlt] at hstep
      exact runSteps_succ_of_next hstep 0

/-- Settles O24: `runSteps_noData` from a phase that has not stalled yet. -/
theorem stalledTransferEndsWithinTheBudget : Obligations.StalledTransferEndsWithinTheBudget := by
  unfold Obligations.StalledTransferEndsWithinTheBudget
  intro s rest hinv hfault ha hp hx hstall ht
  have hrun := runSteps_noData s.params.retryBudget ⟨hinv, hfault, ha, hx, hp.symm⟩ (fields_current s)
    (by rw [hstall, Nat.zero_add]) ht
  have hmoving : s.phase.moving = true := by rcases hp with hp | hp <;> rw [hp] <;> rfl
  have hdrive : s.driveSelect = s.command[1].extractLsb' 5 3 := hinv.drive (.inl hmoving)
  refine ⟨_, hrun, ?_⟩
  rw [State.stalledOut, ← fail_eq_failed, fail_phase, fail_errorCode, fail_completionByte, fail_pending, fail_turns,
    fail_drives, fail_buffer, fail_log, irqEnabled_eq, hdrive]
  refine ⟨rfl, rfl, rfl, rfl, rfl, rfl, rfl, ?_⟩
  show (if s.irqDmaMask.getLsbD 1 then _ else _) = _
  cases s.irqDmaMask.getLsbD 1
  · exact (List.append_nil _).symm
  · rfl

/-! ## Every byte taken -/

/-- The channel's answers to a send step whose byte is taken. -/
def DmaAnswer.taken : DmaAnswer := { read := .noData, write := .ack }

/-- The events of `n` bytes sent from `bufPos` on (20_memory.md R86). -/
def State.sentEvents (n : Nat) (s : State) : List Event :=
  (List.range' s.bufPos n).map fun k => .dmaOut s.params.dmaChannel (Memory.read s.buffer k)

/-- `n` bytes on from `s`, the send phase has ended (43_transfer_engine.md R224, R231). -/
def State.allSent (f : Cdb) (n : Nat) (rest : List Turn) (s : State) : State :=
  { s.begun f with
    bufPos := s.bufPos + n, stall := 0, phase := .sentData, status := 0x08, pending := some .step, turns := rest
    dma := .taken, log := s.log ++ s.sentEvents n }

/-- One byte on from `s`, the send phase goes on (43_transfer_engine.md R224). -/
def State.oneSent (f : Cdb) (rest : List Turn) (s : State) : State :=
  { s.begun f with
    bufPos := s.bufPos + 1, stall := 0, status := 0x1A, pending := some .dma, turns := rest, dma := .taken
    log := s.log ++ s.sentEvents 1 }

theorem allSent_oneSent (f : Cdb) (n : Nat) (rest rest' : List Turn) (s : State) :
    (s.oneSent f rest').allSent f n rest = s.allSent f (n + 1) rest := by
  have hevents : s.sentEvents (n + 1) = s.sentEvents 1 ++ (s.oneSent f rest').sentEvents n := by
    simp only [State.sentEvents, List.range'_succ, List.range'_zero, List.map_cons, List.map_nil,
      List.singleton_append]
    rfl
  have hpos : (s.oneSent f rest').bufPos + n = s.bufPos + (n + 1) := (Nat.add_right_comm ..)
  unfold State.allSent
  rw [hevents, hpos, ← List.append_assoc]
  rfl

theorem step_taken {s : State} (h : s.Transferring) (hp : s.phase = .sendData) {f : Cdb}
    (hf : s.current.fields? = some f) {rest : List Turn} (ht : s.turns = .fire .taken :: rest) :
    step s = .next (if s.bufPos + 1 = s.bufCount then s.allSent f 1 rest else s.oneSent f rest) := by
  rw [h.step_eq ht, dmaSendStepMovesOneByte s.current f { s with turns := rest, dma := .taken, pending := none } hf hp
    h.dma (h.inv.byteLeft h.phase).2 rfl]
  by_cases hlast : s.bufPos + 1 = s.bufCount
  · simp only [if_pos hlast]
    rfl
  · simp only [if_neg hlast, ← hp]
    rfl

/-- The bytes left of a send phase, one a turn, in order. -/
theorem runSteps_taken {f : Cdb} {rest : List Turn} (n : Nat) {s : State} (h : s.Transferring)
    (hp : s.phase = .sendData) (hf : s.current.fields? = some f) (hn : s.bufPos + n = s.bufCount)
    (ht : s.turns = List.replicate n (.fire .taken) ++ rest) : runSteps n s = .next (s.allSent f n rest) := by
  induction n generalizing s with
  | zero =>
    have hlt : s.bufPos < s.bufCount := h.inv.bufLeft h.phase
    omega
  | succ n ih =>
    rw [List.replicate_succ, List.cons_append] at ht
    have hstep := step_taken h hp hf ht
    by_cases hlast : s.bufPos + 1 = s.bufCount
    · obtain rfl : n = 0 := by omega
      rw [if_pos hlast] at hstep
      exact runSteps_succ_of_next hstep 0
    · rw [if_neg hlast] at hstep
      have hnext : (s.oneSent f _).Transferring :=
        ⟨stepKeepsTheInvariant s _ h.inv hstep, h.fault, h.attached, h.dma, h.phase⟩
      rw [runSteps_succ_of_next hstep, ih hnext hp hf ((Nat.add_right_comm ..).trans hn) rfl, allSent_oneSent]

/-- Settles O25: `runSteps_taken` from the first byte of the buffer. -/
theorem dmaSendPhaseMovesTheWholeBlock : Obligations.DmaSendPhaseMovesTheWholeBlock := by
  unfold Obligations.DmaSendPhaseMovesTheWholeBlock
  intro s rest hinv hfault ha hp hx hpos ht
  have hrun := runSteps_taken s.bufCount ⟨hinv, hfault, ha, hx, .inl hp⟩ hp (fields_current s)
    (by rw [hpos, Nat.zero_add]) ht
  refine ⟨_, hrun, rfl, rfl, rfl, rfl, rfl, ?_⟩
  rw [List.range_eq_range', ← hpos]
  rfl

end Sys2Proof.Machine
end

section
/-! The commands that need nothing of the disk but a drive (44_commands.md R240 to R244, R260), or not even that (R263
to R269, R272, R275). -/

namespace Sys2Proof.Machine

/-- The end of a handler that does nothing more (41_state_machine.md R180). -/
theorem next_complete (s : State) :
    (.next s.complete : Host.Outcome State Fault Refusal) = .next s.completed :=
  congrArg _ (complete_eq_completed s)

/-! ## The drive check and the address (44_commands.md R240, R241) -/

theorem requireDrive_lacksDrive {s : State} (hl : s.lacksDrive s.d) :
    s.requireDrive = .error (s.failed .notReady) := by
  rcases requireDrive_cases s with ⟨_, h⟩ | ⟨_, hd, _⟩
  · exact h
  · exact (hasDrive_not_lacksDrive hd hl).elim

theorem requireDrive_hasDrive {s : State} {dr : Drive} (hd : s.hasDrive s.d dr) : s.requireDrive = .ok s := by
  rcases requireDrive_cases s with ⟨hl, _⟩ | ⟨_, _, h⟩
  · exact (hasDrive_not_lacksDrive hd hl).elim
  · exact h

theorem setupAddress_lacksDrive {s : State} (hl : s.lacksDrive s.d) (e : ErrorName) (f : Cdb) :
    s.setupAddress e f = .error (s.failed .notReady) := by
  rw [State.setupAddress, requireDrive_lacksDrive hl]

/-- Settles O26: the drive check of R240 ends the handler, as its first sub-step or within `SetupAddress`. -/
theorem absentDriveIsNotReady : Obligations.AbsentDriveIsNotReady := by
  unfold Obligations.AbsentDriveIsNotReady
  rintro i f s hf (hi | rfl | rfl) hp hl
  · obtain ⟨start, ⟨rest, hstart⟩, hexec⟩ := exec_opens hf hi
    rw [hexec s hp, hstart, setupAddress_lacksDrive (s := s.begun f) hl]
    rfl
  · have hexec : exec (.recalibrate f) s = .next (recalibrateStart (s.begun f)) := scheduledStep_start hp
    rw [hexec, recalibrateStart, requireDrive_lacksDrive (s := s.begun f) hl]
    rfl
  · have hexec : exec (.seek f) s = .next (seekStart f (s.begun f)) := scheduledStep_start hp
    rw [hexec, seekStart, setupAddress_lacksDrive (s := s.begun f) hl]
    rfl

/-! ## TEST_READY, RECALIBRATE and SEEK -/

/-- Settles O30: TEST_READY reports the answer of `driveOk`. -/
theorem testReadyReportsPresence : Obligations.TestReadyReportsPresence := by
  unfold Obligations.TestReadyReportsPresence
  intro f s hp
  have hexec : exec (.testReady f) s = .next (testReadyStart (s.begun f)) := scheduledStep_start hp
  rw [hexec, testReadyStart]
  refine ⟨fun dr hd => ?_, fun hl => ?_⟩
  · have hok : (s.begun f).driveOk (s.begun f).d = true := (driveOk_iff _ _).mpr ⟨dr, hd⟩
    rw [if_pos hok, complete_eq_completed]
  · have hok : (s.begun f).driveOk (s.begun f).d = false := (driveOk_false_iff _ _).mpr hl
    rw [hok, if_neg Bool.false_ne_true]
    exact congrArg _ (fail_eq_failed .notReady _)

/-- Settles O31: the drive check, then the two phase entries. -/
theorem recalibrateWaitsThenRewinds : Obligations.RecalibrateWaitsThenRewinds := by
  unfold Obligations.RecalibrateWaitsThenRewinds
  intro f s
  refine ⟨fun dr hp hd => ?_, fun hp => ?_⟩
  · have hexec : exec (.recalibrate f) s = .next (recalibrateStart (s.begun f)) := scheduledStep_start hp
    rw [hexec, recalibrateStart, requireDrive_hasDrive (s := s.begun f) hd]
    rfl
  · have hexec : exec (.recalibrate f) s = .next (recalibrateDone (s.begun f)) := scheduledStep_done hp
    rw [hexec, recalibrateDone, complete_eq_completed]
    rfl

/-- Settles O32: `SetupAddress` of a cylinder in range moves the drive, and nothing is left but the completion. -/
theorem seekMovesTheDrive : Obligations.SeekMovesTheDrive := by
  unfold Obligations.SeekMovesTheDrive
  intro f s dr hp hd hc
  have hexec : exec (.seek f) s = .next (seekStart f (s.begun f)) := scheduledStep_start hp
  rw [hexec, seekStart, setupAddress_inRange (s := s.begun f) hd hc]
  exact next_complete _

/-! ## The commands without a drive check -/

/-- Settles O46: every handler is one phase entry. -/
theorem bufferAndDiagnosticCommands : Obligations.BufferAndDiagnosticCommands := by
  unfold Obligations.BufferAndDiagnosticCommands
  intro f s
  refine ⟨fun hp => ⟨?_, ?_, ?_, ?_, ?_⟩, fun hp => ?_, fun hp => ?_⟩
  · exact (scheduledStep_start hp).trans (congrArg _ (enterSend_eq_sending 512 _))
  · exact (scheduledStep_start hp).trans (congrArg _ (enterReceive_eq_receiving 512 _))
  · exact (scheduledStep_start hp).trans (next_complete _)
  · exact (scheduledStep_start hp).trans (next_complete _)
  · exact (scheduledStep_start hp).trans (next_complete _)
  · exact (scheduledStep_sent hp).trans (next_complete _)
  · exact (scheduledStep_received hp).trans (next_complete _)

/-- Settles O49: the five rows share one StartCommand handler, the error. -/
theorem wrongFamilyAndUnknownAreBadCommand : Obligations.WrongFamilyAndUnknownAreBadCommand := by
  unfold Obligations.WrongFamilyAndUnknownAreBadCommand
  intro i op f s hi hp
  have hexec : exec i s = .next (State.fail .badCommand (s.begun f)) := by
    rcases hi with rfl | rfl | rfl | rfl | rfl <;> exact scheduledStep_start hp
  rw [hexec, fail_eq_failed]

end Sys2Proof.Machine
end

section
/-! The commands that move a parameter block (44_commands.md R245, R246, R261, R262, R270, R271, R273, R274;
30_encoding.md R113 to R115). -/

namespace Sys2Proof.Machine

/-! ## A block sent from the start of the buffer -/

theorem sendBytes_eq_sending (bs : List Byte) (s : State) :
    s.sendBytes bs = State.sending bs.length { s with buffer := Memory.writeBytes s.buffer 0 bs } :=
  enterSend_eq_sending _ _

theorem read_block (m : Memory) (bs : List Byte) (k : Nat) :
    Memory.read (Memory.writeBytes m 0 bs) k = if k < bs.length then bs.getD k 0#8 else Memory.read m k := by
  simp only [Memory.read_writeBytes, Nat.zero_le, true_and, Nat.zero_add, Nat.sub_zero]

/-! ## SENSE (30_encoding.md R113) -/

theorem toNat_append_eq {n m : Nat} (x : BitVec n) (y : BitVec m) :
    (x ++ y).toNat = x.toNat * 2 ^ m + y.toNat := by
  rw [BitVec.toNat_append, ← Nat.shiftLeft_add_eq_or_of_lt y.isLt, Nat.shiftLeft_eq]

theorem toNat_field {w : Nat} (x : BitVec w) (lo n : Nat) :
    (x.extractLsb' lo n).toNat = x.toNat / 2 ^ lo % 2 ^ n := by
  rw [BitVec.extractLsb'_toNat, Nat.shiftRight_eq_div_pow]

/-- The cylinder in the host's own numbering, modulo 1024. -/
theorem toNat_hostCylinder (c : BitVec 16) (offset : Nat) :
    (((c.toNat : Int) - (offset : Int)) % 1024).toNat = (c - BitVec.ofNat 16 offset).toNat % 1024 := by
  rw [BitVec.toNat_sub, BitVec.toNat_ofNat]
  omega

/-- Settles O38: each of the four bytes is a field or, by `toNat_append_eq`, the sum of two. -/
theorem senseReportsAndClearsTheError : Obligations.SenseReportsAndClearsTheError := by
  unfold Obligations.SenseReportsAndClearsTheError
  refine fun f s => ⟨fun hp => ?_, fun hp => ?_⟩
  · intro lcyl
    let c := s.addr.cyl - BitVec.ofNat 16 s.params.cylOffset
    have hlcyl : lcyl = c.toNat % 1024 := toNat_hostCylinder s.addr.cyl s.params.cylOffset
    have hexec : exec (.sense f) s = .next ((s.begun f).sendBytes (senseBlock (s.begun f))) := scheduledStep_start hp
    have hread := read_block s.buffer (senseBlock (s.begun f))
    rw [hexec, sendBytes_eq_sending]
    refine ⟨_, rfl, rfl, hread 0, ?_, ?_, ?_, fun a ha => (hread a).trans (if_neg ?_)⟩
    · have hhead := toNat_field s.addr.head 0 5
      have hbyte := (congrArg BitVec.toNat (hread 1)).trans (toNat_append_eq f.drive (s.addr.head.extractLsb' 0 5))
      refine hbyte.trans ?_
      omega
    · have hhigh := toNat_field c 8 2
      have hsector := toNat_field s.addr.sector 0 6
      have hbyte := (congrArg BitVec.toNat (hread 2)).trans
        (toNat_append_eq (c.extractLsb' 8 2) (s.addr.sector.extractLsb' 0 6))
      refine hbyte.trans ?_
      omega
    · have hlow := toNat_field c 0 8
      have hbyte := (congrArg BitVec.toNat (hread 3)).trans hlow
      refine hbyte.trans ?_
      omega
    · exact Nat.not_lt.mpr ha
  · exact (scheduledStep_sent hp).trans (next_complete _)

/-! ## A configured geometry stored -/

theorem configure_of_slot {s : State} (h : s.d < s.drives.length) (g : Geometry → Geometry) :
    s.configure g = State.completed (s.onDrive s.d fun dr => { dr with cfg := g dr.cfg }) := by
  rw [State.configure, if_pos h, complete_eq_completed]

theorem configure_noSlot {s : State} (h : s.drives.length ≤ s.d) (g : Geometry → Geometry) :
    s.configure g = s.failed .notReady := by
  rw [State.configure, if_neg (Nat.not_lt.mpr h), fail_eq_failed]

/-- The block's two cylinder bytes spell a number, high byte first (30_encoding.md R114). -/
theorem append_eq_ofNat (hi lo : Byte) : hi ++ lo = BitVec.ofNat 16 (hi.toNat * 256 + lo.toNat) :=
  BitVec.eq_of_toNat_eq <| (toNat_append_eq hi lo).trans <|
    (Nat.mod_eq_of_lt (by have := hi.isLt; have := lo.isLt; omega)).symm

/-- Settles O45, by the slot. -/
theorem specifyStoresCylindersAndHeads : Obligations.SpecifyStoresCylindersAndHeads := by
  unfold Obligations.SpecifyStoresCylindersAndHeads
  intro f s
  have hreceived (hp : s.phase = .receivedData) : exec (.specify f) s = .next (specifyReceived (s.begun f)) :=
    scheduledStep_received hp
  refine ⟨fun hp => ?_, fun hp hslot => ?_, fun hp hslot => ?_⟩
  · exact (scheduledStep_start hp).trans (congrArg _ (enterReceive_eq_receiving 8 _))
  · rw [hreceived hp, specifyReceived, configure_of_slot (s := s.begun f) hslot, append_eq_ofNat]
    rfl
  · rw [hreceived hp, specifyReceived, configure_noSlot (s := s.begun f) hslot]

/-! ## The vendor geometry commands (30_encoding.md R115) -/

theorem exec_getGeom_start {i : Instr} {fam : Family} {f : Cdb} {s : State}
    (hi : i = .dtcGetGeom f ∧ fam = .dtc ∨ i = .st11GetGeom f ∧ fam = .st11) (hp : s.phase = .startCommand) :
    exec i s = .next (getGeomStart fam (s.begun f)) := by
  rcases hi with ⟨rfl, rfl⟩ | ⟨rfl, rfl⟩ <;> exact scheduledStep_start hp

theorem length_geomBlock (fam : Family) (dr : Drive) : (geomBlock fam dr).length = 16 := by
  rw [geomBlock, List.length_map, List.length_range]

theorem read_geomBlock (m : Memory) (fam : Family) (dr : Drive) (k : Nat) :
    Memory.read (Memory.writeBytes m 0 (geomBlock fam dr)) k =
      if k < 16 then Config.geomEncode fam dr.cfg dr.phys k else Memory.read m k := by
  rw [read_block, length_geomBlock]
  by_cases hk : k < 16
  · simp [hk, geomBlock]
  · rw [if_neg hk, if_neg hk]

/-- Settles O47, by the slot: the block of a drive that is there is read back by `read_geomBlock`. -/
theorem getGeometrySendsTheBlock : Obligations.GetGeometrySendsTheBlock := by
  unfold Obligations.GetGeometrySendsTheBlock
  refine fun i fam f s hi => ⟨fun dr hp hslot => ?_, fun hp hslot => ?_, fun hp => ?_⟩
  · have hdrive : (s.begun f).drives[(s.begun f).d]? = some dr := hslot
    rw [exec_getGeom_start hi hp, getGeomStart, hdrive]
    refine ⟨_, rfl, (sendBytes_eq_sending _ _).trans ?_, read_geomBlock s.buffer fam dr⟩
    rw [length_geomBlock]
    rfl
  · have hdrive : (s.begun f).drives[(s.begun f).d]? = none := List.getElem?_eq_none hslot
    rw [exec_getGeom_start hi hp, getGeomStart, hdrive]
    exact congrArg _ (fail_eq_failed _ _)
  · rcases hi with ⟨rfl, rfl⟩ | ⟨rfl, rfl⟩ <;>
      exact (scheduledStep_sent hp).trans (next_complete _)

theorem exec_setGeom_received {i : Instr} {fam : Family} {f : Cdb} {s : State}
    (hi : i = .dtcSetGeom f ∧ fam = .dtc ∨ i = .st11SetGeom f ∧ fam = .st11) (hp : s.phase = .receivedData) :
    exec i s = .next (setGeomReceived fam (s.begun f)) := by
  rcases hi with ⟨rfl, rfl⟩ | ⟨rfl, rfl⟩ <;> exact scheduledStep_received hp

/-- Settles O48, by the slot: the bytes that GEOM_DECODE is given are the buffer's first 16. -/
theorem setGeometryStoresTheDecodedBlock : Obligations.SetGeometryStoresTheDecodedBlock := by
  unfold Obligations.SetGeometryStoresTheDecodedBlock
  refine fun i fam f s hi => ⟨fun hp => ?_, fun hp hslot => ?_, fun hp hslot => ?_⟩
  · rcases hi with ⟨rfl, rfl⟩ | ⟨rfl, rfl⟩ <;>
      exact (scheduledStep_start hp).trans (congrArg _ (enterReceive_eq_receiving 16 _))
  · have hblock : Memory.readBytes s.buffer 0 16 = (List.range 16).map (fun k => Memory.read s.buffer k) := by
      simp only [Memory.readBytes, Nat.zero_add]
    rw [exec_setGeom_received hi hp, setGeomReceived, configure_of_slot (s := s.begun f) hslot, ← hblock]
    rfl
  · rw [exec_setGeom_received hi hp, setGeomReceived, configure_noSlot (s := s.begun f) hslot]

end Sys2Proof.Machine
end

section
/-! READ and READ_LONG inside the image (44_commands.md R252 to R255): the block brought into the buffer, and the two
ways to its address. -/

namespace Sys2Proof.Machine

/-! ## A block sent -/

/-- `m` is the buffer `old` with a block of drive `d` in front, and behind it as much of the four ECC bytes as `n` bytes
have room for (20_memory.md R80, 30_encoding.md R116). -/
def HoldsBlock (n d lba : Nat) (s : State) (m : Memory) : Prop :=
  ∀ k, Memory.read m k =
    if k < 512 then State.imageByte d (lba * 512 + k) s
    else if k < n then s.params.eccFill.toList.getD (k - 512) 0 else Memory.read s.buffer k

/-- `g` ends a handler by sending the block of `addr.lba` in `n` bytes. -/
def SendsBlock (n : Nat) (g : State → State) : Prop :=
  ∀ s : State, s.imageHas s.d s.addr.lba.toNat 1 = true →
    ∃ m, g s = State.sending n { s with buffer := m } ∧ HoldsBlock n s.d s.addr.lba.toNat s m

theorem imageToBuffer_inside {d lba : Nat} {s : State} (h : s.imageHas d lba 1 = true) :
    ∃ m, s.imageToBuffer d lba = .ok { s with buffer := m } ∧ HoldsBlock 512 d lba s m := by
  rcases imageToBuffer_cases d lba s with ⟨_, m, e, _, _, hm⟩ | ⟨hnot, _⟩
  · refine ⟨m, e, fun k => (hm k).trans ?_⟩
    by_cases hk : k < 512
    · rw [if_pos hk, if_pos hk]
    · rw [if_neg hk, if_neg hk, if_neg hk]
  · exact nomatch h.symm.trans hnot

theorem sendsBlock_sendBlock : SendsBlock 512 sendBlock := by
  intro s h
  obtain ⟨m, e, hm⟩ := imageToBuffer_inside h
  exact ⟨m, by rw [sendBlock, e, andThen, enterSend_eq_sending], hm⟩

theorem holdsBlock_fillEcc {d lba : Nat} {s : State} {m : Memory} (h : HoldsBlock 512 d lba s m) :
    HoldsBlock 516 d lba s (Memory.writeBytes m 512 s.params.eccFill.toList) := by
  intro k
  rw [Memory.read_writeBytes, h k, Vector.length_toList]
  by_cases hk : k < 512
  · rw [if_pos hk, if_pos hk, if_neg (by omega)]
  · rw [if_neg hk, if_neg hk, if_neg hk]
    by_cases hecc : k < 516
    · rw [if_pos hecc, if_pos ⟨by omega, hecc⟩]
      rfl
    · rw [if_neg hecc, if_neg (fun hin => hecc hin.2)]

theorem sendsBlock_sendLongBlock : SendsBlock 516 sendLongBlock := by
  intro s h
  obtain ⟨m, e, hm⟩ := imageToBuffer_inside h
  refine ⟨_, ?_, holdsBlock_fillEcc hm⟩
  rw [sendLongBlock, e, andThen, enterSend_eq_sending]
  rfl

/-! ## The two handlers -/

/-- The row of READ or READ_LONG in the handler table (41_state_machine.md R179). -/
theorem exec_sends {i : Instr} {n : Nat} {f : Cdb} (hi : i = .read f ∧ n = 512 ∨ i = .readLong f ∧ n = 516) :
    ∃ g, SendsBlock n g ∧
      (∀ s : State, s.phase = .startCommand → exec i s = .next (andThen ((s.begun f).openSector f) g)) ∧
      ∀ s : State, s.phase = .sentData → exec i s = .next (andThen (s.begun f).sectorAdvance g) := by
  rcases hi with ⟨rfl, rfl⟩ | ⟨rfl, rfl⟩
  · exact ⟨_, sendsBlock_sendBlock, fun _ hp => scheduledStep_start hp, fun _ hp => scheduledStep_sent hp⟩
  · exact ⟨_, sendsBlock_sendLongBlock, fun _ hp => scheduledStep_start hp, fun _ hp => scheduledStep_sent hp⟩

theorem imageByte_seeked (k a d : Nat) (c : BitVec 16) (s : State) :
    State.imageByte k a (s.seeked d c) = State.imageByte k a s :=
  imageByte_of_images (images_seeked d c s) k a

/-- A call that stays inside the configured disk and inside the image. -/
theorem imageHas_atBlock_inside {s : State} {d lba n : Nat} {dr : Drive} (hd : s.hasDrive d dr)
    (hlba : lba < dr.cfg.blocks) (hin : lba + n ≤ dr.phys.blocks) (a : Address) :
    State.imageHas d (s.atBlock d a lba).addr.lba.toNat n (s.atBlock d a lba) = true := by
  rw [toNat_atBlock_lba hlba]
  exact (imageHas_iff d lba n _).mpr ⟨_, hasDrive_seeked (c := a.cyl) hd, hin⟩

theorem SendsBlock.atBlock {n : Nat} {g : State → State} (hg : SendsBlock n g) {s : State} {lba : Nat} {dr : Drive}
    (hd : s.hasDrive s.d dr) (hlba : lba < dr.cfg.blocks) (hin : lba < dr.phys.blocks) (a : Address) :
    ∃ m, g (s.atBlock s.d a lba) = State.sending n { s.atBlock s.d a lba with buffer := m } ∧
      HoldsBlock n s.d lba s m := by
  obtain ⟨m, e, hm⟩ := hg (s.atBlock s.d a lba) (imageHas_atBlock_inside hd hlba hin a)
  refine ⟨m, e, fun k => (hm k).trans ?_⟩
  rw [toNat_atBlock_lba hlba]
  exact congrArg (fun b => ite (k < 512) b _) (imageByte_seeked s.d _ s.d a.cyl s)

/-- Settles O40: `openSector_valid` stands at the addressed block. -/
theorem readSendsTheAddressedBlock : Obligations.ReadSendsTheAddressedBlock := by
  unfold Obligations.ReadSendsTheAddressedBlock
  intro i n f s dr hi hp hd a lba hc hh hs hin
  obtain ⟨g, hg, hstart, _⟩ := exec_sends hi
  obtain ⟨m, e, hm⟩ := hg.atBlock (s := (s.begun f).addressed f) hd (lba_lt_blocks hc hh hs) hin a
  have hexec := hstart s hp
  rw [openSector_valid (s := s.begun f) hd hc hh hs] at hexec
  exact ⟨_, hexec.trans (congrArg _ e), rfl, hm⟩

/-- The last sector's count down ends the handler (44_commands.md R276). -/
theorem sectorAdvance_last {s : State} (hcount : s.addr.count = 1) :
    s.sectorAdvance = .error (State.completed { s with addr := { s.addr with count := 0 } }) := by
  have hdown : s.countDown = { s with addr := { s.addr with count := 0 } } := by
    rw [State.countDown, hcount]
    rfl
  rw [State.sectorAdvance, hdown, if_pos rfl, complete_eq_completed]

/-- Settles O41, by `sectorAdvance_last` and `sectorAdvance_valid`. -/
theorem readCompletesOrSendsTheNextBlock : Obligations.ReadCompletesOrSendsTheNextBlock := by
  unfold Obligations.ReadCompletesOrSendsTheNextBlock
  constructor
  · intro i f s hi hp hcount
    have hexec : ∃ g, exec i s = .next (andThen (s.begun f).sectorAdvance g) := by
      rcases hi with rfl | rfl <;> exact ⟨_, scheduledStep_sent hp⟩
    obtain ⟨g, hexec⟩ := hexec
    rw [hexec, sectorAdvance_last (s := s.begun f) hcount]
    rfl
  · intro i n f s dr hi hp hd a lba hcount hh hs hc hin
    obtain ⟨g, hg, _, hsent⟩ := exec_sends hi
    obtain ⟨m, e, hm⟩ := hg.atBlock (s := s.begun f) hd (lba_lt_blocks hc hh hs) hin a
    have hexec := hsent s hp
    rw [sectorAdvance_valid (s := s.begun f) hd hcount hh hs] at hexec
    exact ⟨_, hexec.trans (congrArg _ e), rfl, hm⟩

end Sys2Proof.Machine
end

section
/-! The commands that store inside the image: WRITE and WRITE_LONG (44_commands.md R256 to R259) and the FORMAT commands
(R247 to R250). What a store changes of a drive is its image, so `Drive.bare` says the rest stays. -/

namespace Sys2Proof.Machine

/-! ## A drive but for its image -/

theorem map_modify_of_semiconj {α β : Type} (h : α → β) {g : α → α} {g' : β → β} (hg : ∀ x, h (g x) = g' (h x))
    (l : List α) (d : Nat) : (l.modify d g).map h = (l.map h).modify d g' := by
  apply List.ext_getElem?
  intro k
  simp only [List.getElem?_map, List.getElem?_modify]
  cases l[k]? with
  | none => rfl
  | some x => by_cases hk : d = k <;> simp [hk, hg]

/-- A change of a drive's image only. -/
theorem bare_modify {g : Drive → Drive} (hg : ∀ dr, (g dr).bare = dr.bare) (l : List Drive) (d : Nat) :
    (l.modify d g).map Drive.bare = l.map Drive.bare :=
  (map_modify_of_semiconj Drive.bare (g' := id) hg l d).trans (List.modify_id d _)

theorem bare_seeked {s t : State} (h : t.drives.map Drive.bare = s.drives.map Drive.bare) (d : Nat) (c : BitVec 16) :
    (t.seeked d c).drives.map Drive.bare = (s.seeked d c).drives.map Drive.bare := by
  have hseek (u : State) : (u.seeked d c).drives.map Drive.bare =
      (u.drives.map Drive.bare).modify d fun dr => { dr with currentCylinder := c } :=
    map_modify_of_semiconj Drive.bare (g := fun dr => { dr with currentCylinder := c })
      (g' := fun dr => { dr with currentCylinder := c }) (fun _ => rfl) u.drives d
  rw [hseek, hseek, h]

theorem hasDrive_of_bare {s t : State} (h : t.drives.map Drive.bare = s.drives.map Drive.bare) {d : Nat} {dr : Drive}
    (hd : s.hasDrive d dr) : ∃ dr', t.hasDrive d dr' ∧ dr'.cfg = dr.cfg := by
  have hslot : t.drives[d]?.map Drive.bare = some dr.bare := by
    rw [← List.getElem?_map, h, List.getElem?_map, hd.1, Option.map_some]
  obtain ⟨dr', hslot', hbare⟩ := Option.map_eq_some_iff.mp hslot
  refine ⟨dr', ⟨hslot', ?_⟩, ?_⟩
  · show dr'.bare.present = true
    rw [hbare]
    exact hd.2
  · show dr'.bare.cfg = dr.cfg
    rw [hbare]
    rfl

theorem imageByte_of_drives {s t : State} (h : t.drives = s.drives) (d k : Nat) :
    State.imageByte d k t = State.imageByte d k s :=
  imageByte_of_images (images_of_drives h) d k

theorem completed_drives (s : State) : s.completed.drives = s.drives := by
  rw [← complete_eq_completed, complete_drives]

/-! ## WRITE and WRITE_LONG -/

/-- The handlers of WRITE and WRITE_LONG (41_state_machine.md R179). -/
theorem exec_stores {i : Instr} {n : Nat} {f : Cdb} (hi : i = .write f ∧ n = 512 ∨ i = .writeLong f ∧ n = 516)
    (s : State) :
    (s.phase = .startCommand → exec i s = .next (andThen ((s.begun f).openSector f) (State.enterReceive n))) ∧
    (s.phase = .receivedData → exec i s = .next (storeBlock n (s.begun f))) := by
  rcases hi with ⟨rfl, rfl⟩ | ⟨rfl, rfl⟩ <;> exact ⟨scheduledStep_start, scheduledStep_received⟩

/-- Settles O42: `openSector_valid`, then the phase entry. -/
theorem writeAsksForTheSector : Obligations.WriteAsksForTheSector := by
  unfold Obligations.WriteAsksForTheSector
  intro i n f s dr hi hp hd a hc hh hs
  rw [(exec_stores hi s).1 hp, openSector_valid (s := s.begun f) hd hc hh hs]
  exact congrArg _ (enterReceive_eq_receiving n _)

/-- After the store of a sector that left the drives `ds` (20_memory.md R81). -/
def State.stored (ds : List Drive) (s : State) : State :=
  { s with drives := ds, log := s.log ++ [.imageWritten s.d s.addr.lba.toNat] }

/-- A store inside the image, up to the advance to the next sector (44_commands.md R257, R259). -/
theorem storeBlock_inside (n : Nat) {s : State} {dr : Drive} (hd : s.hasDrive s.d dr)
    (hin : s.addr.lba.toNat < dr.phys.blocks) :
    ∃ ds, storeBlock n s = andThen (s.stored ds).sectorAdvance (State.enterReceive n) ∧
      ds.map Drive.bare = s.drives.map Drive.bare ∧
      ∀ d k, State.imageByte d k (s.stored ds) =
        if d = s.d ∧ s.addr.lba.toNat * 512 ≤ k ∧ k < s.addr.lba.toNat * 512 + 512 then
          Memory.read s.buffer (k - s.addr.lba.toNat * 512)
        else State.imageByte d k s := by
  have hhas : s.imageHas s.d s.addr.lba.toNat 1 = true := (imageHas_iff _ _ _ s).mpr ⟨dr, hd, hin⟩
  rcases bufferToImage_cases s.d s.addr.lba.toNat s with ⟨_, ds, e, hds, hbytes⟩ | ⟨hnot, _⟩
  · refine ⟨ds, ?_, ?_, hbytes⟩
    · rw [storeBlock, e, andThen]
      rfl
    · rw [hds]
      refine bare_modify (fun dr => ?_) s.drives s.d
      rfl
  · exact nomatch hhas.symm.trans hnot

/-- Settles O43: after the store the count is at its last, so `sectorAdvance_last` completes the command. -/
theorem writeStoresTheLastSector : Obligations.WriteStoresTheLastSector := by
  unfold Obligations.WriteStoresTheLastSector
  intro i f s dr hi hp hd hin hcount
  have hexec : ∃ n, exec i s = .next (storeBlock n (s.begun f)) := by
    rcases hi with rfl | rfl <;> exact ⟨_, scheduledStep_received hp⟩
  obtain ⟨n, hexec⟩ := hexec
  obtain ⟨ds, e, hbare, hbytes⟩ := storeBlock_inside n (s := s.begun f) hd hin
  rw [e, sectorAdvance_last (s := (s.begun f).stored ds) hcount] at hexec
  let v : State := { (s.begun f).stored ds with addr := { s.addr with count := 0 } }
  have hdrives : v.completed.drives = ds := completed_drives v
  refine ⟨v.completed, hexec, ?_, ?_, fun d k => ?_⟩
  · show v.completed = State.completed { v with drives := v.completed.drives }
    rw [hdrives]
    rfl
  · exact (congrArg _ hdrives).trans hbare
  · exact (imageByte_of_drives (s := (s.begun f).stored ds) hdrives d k).trans (hbytes d k)

/-- Settles O44: after the store the drive is the same but for its image, and `sectorAdvance_valid` goes on from it. -/
theorem writeStoresTheSectorAndGoesOn : Obligations.WriteStoresTheSectorAndGoesOn := by
  unfold Obligations.WriteStoresTheSectorAndGoesOn
  intro i n f s dr hi hp hd a hin hcount hh hs
  obtain ⟨ds, e, hbare, hbytes⟩ := storeBlock_inside n (s := s.begun f) hd hin
  let u := (s.begun f).stored ds
  obtain ⟨dr', hd', hcfg⟩ := hasDrive_of_bare (t := u) hbare hd
  have hexec := (exec_stores hi s).2 hp
  have ha : advance dr'.cfg u.countDown.addr = a := congrArg (advance · _) hcfg
  rw [e, sectorAdvance_valid (s := u) hd' hcount (by rwa [ha, hcfg]) (by rwa [ha, hcfg]), ha, hcfg] at hexec
  refine ⟨_, hexec.trans (congrArg _ (enterReceive_eq_receiving n _)), rfl, ?_, fun d k => ?_⟩
  · exact bare_seeked (t := u) hbare _ a.cyl
  · exact (imageByte_seeked d k _ a.cyl u).trans (hbytes d k)

/-! ## The FORMAT commands -/

/-- A zeroing inside the image (44_commands.md R247, R249; 20_memory.md R82). -/
theorem zeroFrom_inside {n : Nat} (hn : n ≠ 0) {s : State} (hin : s.imageHas s.d s.addr.lba.toNat n = true) :
    ∃ ds, zeroFrom n s = State.waiting (.format n)
        { s with drives := ds, log := s.log ++ [.imageZeroed s.d s.addr.lba.toNat n] } ∧
      ds.map Drive.bare = s.drives.map Drive.bare ∧
      ∀ d k, State.imageByte d k { s with drives := ds } =
        if d = s.d ∧ s.addr.lba.toNat * 512 ≤ k ∧ k < (s.addr.lba.toNat + n) * 512 then 0
        else State.imageByte d k s := by
  rcases imageZero_cases s.d s.addr.lba.toNat n s with ⟨h0, _⟩ | ⟨_, _, ds, e, hds, hbytes⟩ | ⟨_, hnot, _⟩
  · exact absurd h0 hn
  · rw [Nat.add_mul]
    refine ⟨ds, ?_, ?_, hbytes⟩
    · rw [zeroFrom, e]
      rfl
    · rw [hds]
      refine bare_modify (fun dr => ?_) s.drives s.d
      rfl
  · exact nomatch hin.symm.trans hnot

/-- The StartCommand handler of a FORMAT command zeroes from the addressed track on; how far, it reads off the drive at
that track. -/
theorem exec_format_start {i : Instr} {f : Cdb} (hi : i = .formatTrack f ∨ i = .formatBadTrack f ∨ i = .formatDrive f)
    {s : State} (hp : s.phase = .startCommand) :
    ∃ extent : State → Nat,
      exec i s = .next (andThen ((s.begun f).openTrack f) fun t => zeroFrom (extent t) t) ∧
      ∀ (u : State) (dr : Drive) (a : Address) (lba : Nat), u.hasDrive u.d dr → lba < dr.cfg.blocks →
        extent (u.atBlock u.d a lba) = if i = .formatDrive f then dr.cfg.blocks - lba else dr.cfg.spt.toNat := by
  rcases hi with rfl | rfl | rfl <;>
    refine ⟨_, scheduledStep_start hp, fun u dr a lba hd hlba => ?_⟩
  · rw [if_neg nofun]
    exact congrArg (·.spt.toNat) (cfgOf_atBlock hd a lba)
  · rw [if_neg nofun]
    exact congrArg (·.spt.toNat) (cfgOf_atBlock hd a lba)
  · rw [if_pos rfl]
    exact congrArg₂ (·.blocks - ·) (cfgOf_atBlock hd a lba) (toNat_atBlock_lba hlba u.d a u)

/-- Settles O39: `openTrack_valid` stands at the extent's first block, and `zeroFrom_inside` zeroes it. -/
theorem formatZeroesItsExtentThenCompletes : Obligations.FormatZeroesItsExtentThenCompletes := by
  unfold Obligations.FormatZeroesItsExtentThenCompletes
  constructor
  · intro i f s hi hp
    rcases hi with rfl | rfl | rfl <;> exact (scheduledStep_done hp).trans (next_complete _)
  · intro i f s dr hi hp hd a lba n hc hh hs hin
    let u := (s.begun f).addressed f
    have hlba : lba < dr.cfg.blocks := lba_lt_blocks hc hh hs
    have hn : n ≠ 0 := by
      show ite _ _ _ ≠ 0
      split
      · exact Nat.sub_ne_zero_of_lt hlba
      · exact hs.ne'
    obtain ⟨extent, hexec, hextent⟩ := exec_format_start hi hp
    obtain ⟨ds, e, hbare, hbytes⟩ := zeroFrom_inside hn (imageHas_atBlock_inside (s := u) hd hlba hin a)
    rw [openTrack_valid (s := s.begun f) hd hc hh hs] at hexec
    have hend := (congrArg (zeroFrom · (u.atBlock u.d a lba)) (hextent u dr a lba hd hlba)).trans e
    rw [toNat_atBlock_lba hlba] at hend hbytes
    refine ⟨_, hexec.trans (congrArg _ hend), rfl, hbare, fun d k => (hbytes d k).trans ?_⟩
    exact congrArg (ite _ 0) (imageByte_seeked d k u.d a.cyl u)

end Sys2Proof.Machine
end

section
/-! VERIFY from a valid address (44_commands.md R251): each round checks a sector of the disk and moves on to the next,
so the loop ends only with its count. -/

namespace Sys2Proof.Machine

/-! ## nextSector and the rest of the address (42_chs_translator.md R207) -/

/-- The address with another count and block. -/
def Address.tallied (count : Byte) (lba : BitVec 32) (a : Address) : Address := { a with count := count, lba := lba }

theorem advance_tallied (g : Geometry) (count : Byte) (lba : BitVec 32) :
    Function.Commute (advance g) (Address.tallied count lba) := by
  intro a
  unfold advance Address.tallied
  dsimp only
  split
  · rfl
  · split <;> rfl

/-- Where the drive and the address were before does not show. -/
theorem atBlock_seeked (d : Nat) (c : BitVec 16) (a : Address) (lba : Nat) (s : State) :
    (s.seeked d c).atBlock d a lba = s.atBlock d a lba := by
  simp only [State.atBlock, State.seeked, List.modify_modify_eq]
  rfl

/-! ## The loop -/

/-- After a round that checked the addressed sector (R251; log 14). -/
def State.verifiedOne (g : Geometry) (s : State) : State :=
  s.atBlock s.d { advance g s.addr with count := s.addr.count - 1 } (s.addr.block g)

/-- After the last `n + 1` rounds of VERIFY. -/
def State.verified (g : Geometry) (n : Nat) (s : State) : State :=
  s.atBlock s.d { (advance g)^[n + 1] s.addr with count := 0 } (((advance g)^[n] s.addr).block g)

theorem verified_verifiedOne (g : Geometry) (n : Nat) (s : State) :
    (s.verifiedOne g).verified g n = s.verified g (n + 1) := by
  have hwalk (k : Nat) : (advance g)^[k] (s.verifiedOne g).addr =
      ((advance g)^[k + 1] s.addr).tallied (s.addr.count - 1) (BitVec.ofNat 32 (s.addr.block g)) :=
    (advance_tallied g _ _).iterate_left k (advance g s.addr)
  rw [State.verified, hwalk, hwalk]
  exact atBlock_seeked s.d _ _ _ s

/-- A valid address, the drive at its cylinder. -/
structure State.Placed (dr : Drive) (s : State) : Prop where
  drive : s.hasDrive s.d dr
  cylinder : dr.currentCylinder = s.addr.cyl
  within : s.addr.Within dr.cfg

theorem State.Placed.verifiedOne {dr : Drive} {s : State} (h : s.Placed dr) :
    (s.verifiedOne dr.cfg).Placed { dr with currentCylinder := (advance dr.cfg s.addr).cyl } := by
  have hnext : (advance dr.cfg s.addr).Within dr.cfg := h.within.iterate_advance 1
  exact ⟨hasDrive_seeked h.drive, rfl, hnext.cyl, hnext.head, hnext.sector⟩

theorem verifyLoop_placed {dr : Drive} {s : State} (h : s.Placed dr) (k : Nat) :
    verifyLoop (k + 1) s =
      if s.addr.count - 1 = 0 then (s.verifiedOne dr.cfg).completed else verifyLoop k (s.verifiedOne dr.cfg) := by
  let t := s.setLba (s.addr.block dr.cfg)
  have hround : (t.nextSector t.d).countDown = s.verifiedOne dr.cfg := by
    have hnext : advance dr.cfg t.addr =
        (advance dr.cfg s.addr).tallied s.addr.count (BitVec.ofNat 32 (s.addr.block dr.cfg)) :=
      advance_tallied dr.cfg _ _ s.addr
    rw [nextSector_of_slot (d := t.d) (s := t) h.drive.1, hnext]
    rfl
  have hlocate : s.locate s.addr.head s.addr.sector = .ok t :=
    locate_valid h.drive h.cylinder h.within.head h.within.sector
  rw [verifyLoop_succ, hlocate, andThen, verifyNext, hround, complete_eq_completed]
  rfl

theorem ofNat_sub_one (n : Nat) : BitVec.ofNat 8 (n + 1) - 1 = BitVec.ofNat 8 n := by
  rw [BitVec.ofNat_add]
  exact BitVec.add_sub_cancel _ _

/-- The loop from a count of `n + 1`, 256 being 0 (R276), in as many rounds of `k`. -/
theorem verifyLoop_eq_verified {n : Nat} (hn : n < 256) {k : Nat} (hk : n < k) {dr : Drive} {s : State}
    (h : s.Placed dr) (hcount : s.addr.count = BitVec.ofNat 8 (n + 1)) :
    verifyLoop k s = (s.verified dr.cfg n).completed := by
  induction n generalizing s k dr with
  | zero =>
    obtain ⟨k, rfl⟩ := Nat.exists_eq_add_one_of_ne_zero (Nat.ne_zero_of_lt hk)
    rw [verifyLoop_placed h, State.verifiedOne, hcount]
    rfl
  | succ n ih =>
    obtain ⟨k, rfl⟩ := Nat.exists_eq_add_one_of_ne_zero (Nat.ne_zero_of_lt hk)
    have hmore : BitVec.ofNat 8 (n + 1) ≠ 0 := fun h0 => by
      have hwrap : (n + 1) % 256 = 0 := congrArg BitVec.toNat h0
      omega
    have hcount' : (s.verifiedOne dr.cfg).addr.count = BitVec.ofNat 8 (n + 1) :=
      (congrArg (· - 1) hcount).trans (ofNat_sub_one (n + 1))
    rw [verifyLoop_placed h, hcount, ofNat_sub_one, if_neg hmore, ih (by omega) (by omega) h.verifiedOne hcount']
    exact congrArg State.completed (verified_verifiedOne dr.cfg n s)

/-- How many sectors a count byte asks for (R276). -/
theorem exists_rounds (c : Byte) :
    ∃ m < 256, (if c = 0 then 256 else c.toNat) = m + 1 ∧ c = BitVec.ofNat 8 (m + 1) := by
  by_cases hc : c = 0
  · exact ⟨255, by decide, if_pos hc, hc⟩
  · have hpos : c.toNat ≠ 0 := fun h => hc (BitVec.eq_of_toNat_eq h)
    have hlt := c.isLt
    refine ⟨c.toNat - 1, by omega, (if_neg hc).trans (by omega), ?_⟩
    rw [Nat.sub_one_add_one hpos, BitVec.ofNat_toNat, BitVec.setWidth_eq]

/-- Settles O33: from the addressed sector `verifyLoop_eq_verified` walks the whole count. -/
theorem verifyFromAValidAddressCompletes : Obligations.VerifyFromAValidAddressCompletes := by
  unfold Obligations.VerifyFromAValidAddressCompletes
  intro f s dr hp hd hc hh hs n a b lba
  let u := ((s.begun f).addressed f).seeked f.drive.toNat (s.addressed f).addr.cyl
  have hhead : u.addr.head.toNat = f.head.toNat := BitVec.toNat_setWidth_of_le (by decide)
  have hplaced : u.Placed { dr with currentCylinder := u.addr.cyl } :=
    ⟨hasDrive_seeked (s := (s.begun f).addressed f) hd, rfl, hc, by rwa [hhead], hs⟩
  obtain ⟨m, hm, hn, hcount⟩ := exists_rounds f.count
  change n = m + 1 at hn
  clear_value n
  subst hn
  have hexec : exec (.verify f) s = .next (verifyStart f (s.begun f)) := scheduledStep_start hp
  rw [hexec, verifyStart, setupAddress_inRange (s := s.begun f) hd hc]
  refine congrArg Host.Outcome.next ((verifyLoop_eq_verified hm hm hplaced hcount).trans (congrArg State.completed ?_))
  exact atBlock_seeked f.drive.toNat _ _ _ ((s.begun f).addressed f)

end Sys2Proof.Machine
end

section
/-! The silent host (60_exceptions.md R322; log 7). -/

namespace Sys2Proof.Machine

/-- Settles O7: `step_silent` with nothing pending, `step_silent_fires` with a step pending, whose answers are those of
`State.drawDma`. -/
theorem silentHostLetsTheSchedulerRun : Obligations.SilentHostLetsTheSchedulerRun := by
  unfold Obligations.SilentHostLetsTheSchedulerRun
  exact fun s hf hc ha ht =>
    ⟨step_silent ⟨hf, hc⟩ ha ht, fun hp => ⟨s.drawDma.dma, step_silent_fires ⟨hf, hc⟩ ha ht hp⟩⟩

end Sys2Proof.Machine
end
